-- ==== Sys2Proof/Machine/SineUnit.lean ====
section
/-! DEFINITION. The contract of the sine unit (`40_generator.md` rules R116, R117), the reference unit `SINE_REF` (rule
R118), and a computable unit, a Taylor sum in exact integers. The contract is what the model knows of SINE. Both units
meet it, and they agree wherever the Taylor sum is clear of a tie; the computable one runs tests. No meaning of an
instruction calls either. -/

namespace Sys2Proof.Machine

/-- The domain of SINE (rule R116): `2^16 <= mod < 2^47`, mod a multiple of `2^16`, `acc < mod`. -/
def Sine.Domain (acc mod : Nat) : Prop :=
  2 ^ 16 ≤ mod ∧ mod < 2 ^ 47 ∧ 2 ^ 16 ∣ mod ∧ acc < mod

/-- The real number a sine unit approximates (rule R117): `2^30 * sin(2 * pi * acc / mod)`. -/
noncomputable def Sine.exact (acc mod : Nat) : ℝ :=
  2 ^ 30 * Real.sin (2 * Real.pi * acc / mod)

/-- Contract part S1 (rule R116): on the domain the result is a signed 32-bit number, the amplitude in Q2.30. That it
depends on (acc, mod) and on nothing else is its type. -/
def Sine.InRange (sine : Nat → Nat → Int) : Prop :=
  ∀ acc mod, Sine.Domain acc mod → -2 ^ 31 ≤ sine acc mod ∧ sine acc mod < 2 ^ 31

/-- Contract part S2 (rule R117): on the domain the result is within 1 of the exact amplitude. -/
def Sine.Accurate (sine : Nat → Nat → Int) : Prop :=
  ∀ acc mod, Sine.Domain acc mod → |(sine acc mod : ℝ) - Sine.exact acc mod| ≤ 1

/-- `t 0 + … + t (n - 1)`. -/
def Sine.sumTerms (t : Nat → Int) : Nat → Int
  | 0 => 0
  | n + 1 => Sine.sumTerms t n + t n

/-- The j-th Taylor term of sin(u/v), over the common denominator `v^49 * 49!`. -/
def Sine.term (u v : Int) (j : Nat) : Int :=
  (-1) ^ j * u ^ (2 * j + 1) * v ^ (48 - 2 * j) * (Nat.factorial 49 / Nat.factorial (2 * j + 1) : Nat)

/-- pi to 20 decimals, times `10^20`. -/
def Sine.piDigits : Nat := 314159265358979323846

/-- The denominator of the Taylor sum. -/
def Sine.taylorDen (mod : Nat) : Int := (10 ^ 20 * mod : Int) ^ 49 * (Nat.factorial 49 : Nat)

/-- The numerator of `2^30` times the Taylor sum, of 25 terms, of the sine of `2 * pi * acc / mod`. -/
def Sine.taylorNum (acc mod : Nat) : Int :=
  2 ^ 30 * Sine.sumTerms (Sine.term (2 * Sine.piDigits * acc) (10 ^ 20 * mod)) 25

/-- A computable sine unit: the integer nearest to `2^30` times the Taylor sum. -/
def Sine.taylor (acc mod : Nat) : Int :=
  (2 * Sine.taylorNum acc mod + Sine.taylorDen mod) / (2 * Sine.taylorDen mod)

/-- `2^30` times the Taylor sum is at least `2^-20` away from every `k + 1/2`. -/
def Sine.clearOfTie (acc mod : Nat) : Bool :=
  let d := 2 * Sine.taylorDen mod
  let r := (2 * Sine.taylorNum acc mod + Sine.taylorDen mod) % d
  decide (d ≤ 2 ^ 20 * r) && decide (d ≤ 2 ^ 20 * (d - r))

/-- `SINE_REF` (rule R118): the integer nearest to `2^30 * sin(2 * pi * acc / mod)`, a tie going away from zero. -/
noncomputable def Sine.reference (acc mod : Nat) : Int :=
  if 0 ≤ Sine.exact acc mod then ⌊Sine.exact acc mod + 1 / 2⌋ else -⌊-Sine.exact acc mod + 1 / 2⌋

theorem Sine.sumTerms_cast (t : Nat → Int) (n : Nat) :
    ((Sine.sumTerms t n : Int) : ℝ) = ∑ j ∈ Finset.range n, (t j : ℝ) := by
  induction n with
  | zero => simp [Sine.sumTerms]
  | succ n ih => rw [Finset.sum_range_succ, ← ih, Sine.sumTerms]; push_cast; rfl

/-- The imaginary part of the partial exponential sum of `i x` is the partial Taylor sum of the sine. -/
theorem Sine.im_expSum (x : ℝ) (n : ℕ) :
    (∑ m ∈ Finset.range (2 * n), ((x : ℂ) * Complex.I) ^ m / (m.factorial : ℂ)).im
      = ∑ j ∈ Finset.range n, (-1 : ℝ) ^ j * x ^ (2 * j + 1) / ((2 * j + 1).factorial : ℝ) := by
  induction n with
  | zero => simp
  | succ n ih =>
    rw [show 2 * (n + 1) = 2 * n + 1 + 1 by ring, Finset.sum_range_succ, Finset.sum_range_succ, Complex.add_im,
      Complex.add_im, ih, Finset.sum_range_succ]
    have he : ((x : ℂ) * Complex.I) ^ (2 * n) = ((((-1 : ℝ)) ^ n * x ^ (2 * n) : ℝ) : ℂ) := by
      rw [mul_pow, pow_mul Complex.I, Complex.I_sq]; push_cast; ring
    have h0 : (((x : ℂ) * Complex.I) ^ (2 * n) / ((2 * n).factorial : ℂ)).im = 0 := by
      rw [he, ← Complex.ofReal_natCast, ← Complex.ofReal_div, Complex.ofReal_im]
    have h1 : (((x : ℂ) * Complex.I) ^ (2 * n + 1) / ((2 * n + 1).factorial : ℂ)).im
        = (-1 : ℝ) ^ n * x ^ (2 * n + 1) / ((2 * n + 1).factorial : ℝ) := by
      have : ((x : ℂ) * Complex.I) ^ (2 * n + 1) / ((2 * n + 1).factorial : ℂ)
          = (((-1 : ℝ) ^ n * x ^ (2 * n + 1) / ((2 * n + 1).factorial : ℝ) : ℝ) : ℂ) * Complex.I := by
        rw [pow_succ, he]; push_cast; ring
      rw [this, Complex.im_ofReal_mul, Complex.I_im, mul_one]
    rw [h0, h1]; ring

theorem Sine.taylor_error (x : ℝ) (hx : |x| ≤ 7) :
    |Real.sin x - ∑ j ∈ Finset.range 25, (-1 : ℝ) ^ j * x ^ (2 * j + 1) / ((2 * j + 1).factorial : ℝ)|
      ≤ 1 / 2 ^ 60 := by
  have hn : ‖(x : ℂ) * Complex.I‖ = |x| := by simp
  have h := @Complex.exp_bound' ((x : ℂ) * Complex.I) (2 * 25) (by
    rw [hn]; norm_num; linarith)
  rw [hn] at h
  have hs : Real.sin x = (Complex.exp ((x : ℂ) * Complex.I)).im := by
    rw [Complex.exp_ofReal_mul_I_im]
  rw [hs, ← Sine.im_expSum, ← Complex.sub_im]
  refine (Complex.abs_im_le_norm _).trans (h.trans ?_)
  have : |x| ^ (2 * 25) ≤ 7 ^ (2 * 25) := pow_le_pow_left₀ (abs_nonneg x) hx _
  calc |x| ^ (2 * 25) / ((2 * 25).factorial : ℝ) * 2 ≤ 7 ^ (2 * 25) / ((2 * 25).factorial : ℝ) * 2 := by gcongr
    _ ≤ _ := by norm_num [Nat.factorial]

theorem Sine.term_cast (u v : Int) (hv : 0 < v) (j : Nat) (hj : j < 25) :
    ((Sine.term u v j : Int) : ℝ) = (v : ℝ) ^ 49 * (Nat.factorial 49 : ℝ) *
      ((-1 : ℝ) ^ j * ((u : ℝ) / v) ^ (2 * j + 1) / ((2 * j + 1).factorial : ℝ)) := by
  have hd : Nat.factorial (2 * j + 1) ∣ Nat.factorial 49 := Nat.factorial_dvd_factorial (by omega)
  have hf : ((2 * j + 1).factorial : ℝ) ≠ 0 := by positivity
  have hv' : (v : ℝ) ≠ 0 := by exact_mod_cast hv.ne'
  have hp : (v : ℝ) ^ 49 = (v : ℝ) ^ (48 - 2 * j) * (v : ℝ) ^ (2 * j + 1) := by rw [← pow_add]; congr 1; omega
  rw [Sine.term, Int.cast_mul, Int.cast_natCast, Nat.cast_div hd hf, hp, div_pow]
  push_cast
  field_simp

/-- Rounding `2 * n / (2 * d)` half up by one floor division misses the quotient by at most 1/2. -/
theorem Sine.round_error (n d : Int) (hd : 0 < d) : |(((2 * n + d) / (2 * d) : Int) : ℝ) - n / d| ≤ 1 / 2 := by
  have hdR : (0 : ℝ) < d := by exact_mod_cast hd
  set q := (2 * n + d) / (2 * d) with hq
  have h1 : q * (2 * d) ≤ 2 * n + d := hq ▸ Int.ediv_mul_le _ (by omega)
  have h2 : 2 * n + d < (q + 1) * (2 * d) := hq ▸ Int.lt_ediv_add_one_mul_self _ (by omega)
  have h1' : (q : ℝ) * (2 * d) ≤ 2 * n + d := by exact_mod_cast h1
  have h2' : 2 * (n : ℝ) + d < (q + 1) * (2 * d) := by exact_mod_cast h2
  have e : (q : ℝ) - n / d = (q * d - n) / d := by field_simp
  rw [e, abs_le, div_le_iff₀ hdR, le_div_iff₀ hdR]
  constructor <;> linarith

/-- The angle built from 20 decimals of pi has nearly the sine of the true angle. -/
theorem Sine.angle_error (r : ℝ) (h0 : 0 ≤ r) (h1 : r ≤ 1) :
    |Real.sin (2 * (Sine.piDigits / 10 ^ 20) * r) - Real.sin (2 * Real.pi * r)| ≤ 1 / 2 ^ 60 := by
  have hl := Real.lipschitzWith_sin.dist_le_mul (2 * (Sine.piDigits / 10 ^ 20) * r) (2 * Real.pi * r)
  rw [Real.dist_eq, Real.dist_eq, NNReal.coe_one, one_mul, ← sub_mul, abs_mul, abs_of_nonneg h0] at hl
  have hb : |2 * ((Sine.piDigits : ℝ) / 10 ^ 20) - 2 * Real.pi| ≤ 1 / 2 ^ 60 := by
    have := Real.pi_gt_d20
    have := Real.pi_lt_d20
    rw [abs_le]; constructor <;> norm_num [Sine.piDigits] at * <;> linarith
  exact hl.trans (by simpa using mul_le_mul hb h1 h0 (by positivity))

/-- `2^30` times the Taylor sum is within `2^-20` of the exact amplitude. -/
theorem Sine.taylorSum_close (acc mod : Nat) (h : Sine.Domain acc mod) :
    |((Sine.taylorNum acc mod : Int) : ℝ) / Sine.taylorDen mod - Sine.exact acc mod| < 1 / 2 ^ 20 := by
  obtain ⟨hm, -, -, ha⟩ := h
  have hmod : (0 : ℝ) < mod := by exact_mod_cast (by omega : 0 < mod)
  have h0 : (0 : ℝ) ≤ acc / mod := by positivity
  have h1 : (acc : ℝ) / mod ≤ 1 := by rw [div_le_one hmod]; exact_mod_cast ha.le
  set u : Int := 2 * Sine.piDigits * acc with hu
  set v : Int := 10 ^ 20 * mod with hvd
  have hv : 0 < v := by rw [hvd]; positivity
  have hx : (u : ℝ) / v = 2 * (Sine.piDigits / 10 ^ 20) * (acc / mod) := by
    rw [hu, hvd]; push_cast; ring
  have hden : ((Sine.taylorDen mod : Int) : ℝ) = (v : ℝ) ^ 49 * (Nat.factorial 49 : ℝ) := by
    rw [Sine.taylorDen, ← hvd]; push_cast; rfl
  have hdR : ((Sine.taylorDen mod : Int) : ℝ) ≠ 0 := by
    have : (v : ℝ) ≠ 0 := by exact_mod_cast hv.ne'
    rw [hden]; positivity
  have hsum : ((Sine.taylorNum acc mod : Int) : ℝ) / Sine.taylorDen mod = 2 ^ 30 *
      ∑ j ∈ Finset.range 25, (-1 : ℝ) ^ j * ((u : ℝ) / v) ^ (2 * j + 1) / ((2 * j + 1).factorial : ℝ) := by
    rw [Sine.taylorNum, ← hu, ← hvd, Int.cast_mul, Sine.sumTerms_cast, Finset.sum_congr rfl fun j hj =>
      Sine.term_cast u v hv j (Finset.mem_range.1 hj), ← Finset.mul_sum, ← hden, mul_div_assoc,
      mul_div_cancel_left₀ _ hdR]
    norm_num
  have hty := Sine.taylor_error ((u : ℝ) / v) (by
    rw [hx, abs_of_nonneg (by positivity)]
    have : (2 * ((Sine.piDigits : ℝ) / 10 ^ 20)) ≤ 7 := by norm_num [Sine.piDigits]
    nlinarith)
  have han := Sine.angle_error _ h0 h1
  rw [← hx, ← mul_div_assoc] at han
  rw [hsum, Sine.exact]
  rw [abs_le] at hty han
  rw [abs_lt]
  constructor <;> norm_num at * <;> linarith [hty.1, hty.2, han.1, han.2]

theorem Sine.taylorDen_pos {acc mod : Nat} (h : Sine.Domain acc mod) : 0 < Sine.taylorDen mod := by
  have : (0 : Int) < mod := by have := h.1; omega
  rw [Sine.taylorDen]; positivity

theorem Sine.taylor_accurate : Sine.Accurate Sine.taylor := fun acc mod h => by
  have hr := Sine.round_error (Sine.taylorNum acc mod) _ (Sine.taylorDen_pos h)
  have hc := Sine.taylorSum_close acc mod h
  have : |((Sine.taylor acc mod : Int) : ℝ) - Sine.exact acc mod| ≤ 1 / 2 + 1 / 2 ^ 20 :=
    (abs_sub_le _ _ _).trans (add_le_add hr hc.le)
  exact this.trans (by norm_num)

/-- `SINE_REF` is the integer within less than 1/2 of the exact amplitude, where there is one. -/
theorem Sine.reference_eq_of_close {acc mod : Nat} {q : Int} (h : |(q : ℝ) - Sine.exact acc mod| < 1 / 2) :
    Sine.reference acc mod = q := by
  rw [abs_lt] at h
  unfold Sine.reference
  split_ifs
  · rw [Int.floor_eq_iff]; constructor <;> linarith
  · rw [neg_eq_iff_eq_neg, Int.floor_eq_iff]; push_cast; constructor <;> linarith

/-- The error of `SINE_REF` is at most 1/2 (rule R118). -/
theorem Sine.reference_error (acc mod : Nat) : |(Sine.reference acc mod : ℝ) - Sine.exact acc mod| ≤ 1 / 2 := by
  rw [abs_le]
  unfold Sine.reference
  split_ifs
  · have h1 := Int.floor_le (Sine.exact acc mod + 1 / 2)
    have h2 := Int.lt_floor_add_one (Sine.exact acc mod + 1 / 2)
    constructor <;> linarith
  · have h1 := Int.floor_le (-Sine.exact acc mod + 1 / 2)
    have h2 := Int.lt_floor_add_one (-Sine.exact acc mod + 1 / 2)
    push_cast
    constructor <;> linarith

theorem Sine.reference_accurate : Sine.Accurate Sine.reference := fun acc mod _ =>
  (Sine.reference_error acc mod).trans (by norm_num)

/-- The computable unit is `SINE_REF` wherever the Taylor sum is clear of a tie. -/
theorem Sine.reference_eq_taylor {acc mod : Nat} (h : Sine.Domain acc mod) (hc : Sine.clearOfTie acc mod = true) :
    Sine.reference acc mod = Sine.taylor acc mod := by
  apply Sine.reference_eq_of_close
  have hd := Sine.taylorDen_pos h
  have hs := Sine.taylorSum_close acc mod h
  have hdR : (0 : ℝ) < Sine.taylorDen mod := by exact_mod_cast hd
  simp only [Sine.clearOfTie, Bool.and_eq_true, decide_eq_true_eq] at hc
  have hq := Int.mul_ediv_add_emod (2 * Sine.taylorNum acc mod + Sine.taylorDen mod) (2 * Sine.taylorDen mod)
  rw [← Sine.taylor] at hq
  set n := Sine.taylorNum acc mod
  set d := Sine.taylorDen mod
  set q := Sine.taylor acc mod
  set r := (2 * n + d) % (2 * d)
  have hq' : 2 * (d : ℝ) * q + r = 2 * n + d := by exact_mod_cast hq
  have h1 : 2 * (d : ℝ) ≤ 2 ^ 20 * r := by exact_mod_cast hc.1
  have h2 : 2 * (d : ℝ) ≤ 2 ^ 20 * (2 * d - r) := by exact_mod_cast hc.2
  have e : (q : ℝ) - n / d = (q * d - n) / d := by field_simp
  have hb : |(q : ℝ) - n / d| ≤ 1 / 2 - 1 / 2 ^ 20 := by
    rw [e, abs_le, div_le_iff₀ hdR, le_div_iff₀ hdR]
    norm_num at *
    constructor <;> linarith
  calc |(q : ℝ) - Sine.exact acc mod| ≤ |(q : ℝ) - n / d| + |(n : ℝ) / d - Sine.exact acc mod| := abs_sub_le _ _ _
    _ < 1 / 2 := by linarith

/-- S2 implies S1 (rule R119's first bound): a unit within 1 of the exact amplitude stays below `2^30 + 1`. -/
theorem Sine.abs_le_of_accurate {sine : Nat → Nat → Int} (hs : Sine.Accurate sine) {acc mod : Nat}
    (h : Sine.Domain acc mod) : |sine acc mod| ≤ 2 ^ 30 + 1 := by
  have h1 := abs_le.1 (hs acc mod h)
  have h2 := Real.neg_one_le_sin (2 * Real.pi * acc / mod)
  have h3 := Real.sin_le_one (2 * Real.pi * acc / mod)
  rw [Sine.exact] at h1
  have hb : |(sine acc mod : ℝ)| ≤ 2 ^ 30 + 1 := abs_le.2 ⟨by linarith, by linarith⟩
  exact_mod_cast hb

/-- S2 implies S1. -/
theorem Sine.inRange_of_accurate {sine : Nat → Nat → Int} (hs : Sine.Accurate sine) : Sine.InRange sine :=
  fun _ _ h => by
    have := abs_le.1 (Sine.abs_le_of_accurate hs h)
    omega

end Sys2Proof.Machine
end

