-- ==== Sys2Proof/Word.lean ====
section
/-! DEFINITION. The words of the block (`00_scope.md` rules R7 to R9): 32-bit registers, 16-bit sample cells, bytes.
`signed_N(w)` of rule R9 is `BitVec.toInt`, `word_N(v)` is `BitVec.ofInt N v`. -/

namespace Sys2Proof

/-- A register of space REG: XLEN = 32 bits (rule R7). -/
abbrev Word := BitVec 32

/-- A cell of the sample memory SMP (`10_state.md` rule R34). -/
abbrev Half := BitVec 16

/-- A cell of the output memory OUT (`10_state.md` rule R35). -/
abbrev Byte := BitVec 8

end Sys2Proof
end

