-- ==== Sys2Proof/Config.lean ====
section
/-! DEFINITION. What an implementation fixes (`00_scope.md` rule R7: the two OPEN parameters N_MAX and SINE, under their
constraints) and the free values of the model. Every constant named `Config.…` below is opaque: a claim about it holds
whatever it is. -/

namespace Sys2Proof

/-- The two OPEN parameters with the constraints the spec puts on them. The default of N_MAX is the spec's reference value,
that of SINE the computable unit (log entry 12); only tests use the defaults. -/
structure Params where
  /-- N_MAX, the capacity of the sample memory in samples (rule R7). -/
  nMax : Nat := 65536
  /-- SINE, the sine unit (rules R116, R117). -/
  sine : Nat → Nat → Int := Machine.Sine.taylor
  nMax_pos : 1 ≤ nMax := by decide
  nMax_le : nMax ≤ 2 ^ 31 - 23 := by decide
  sine_inRange : Machine.Sine.InRange sine := by exact Machine.Sine.inRange_of_accurate Machine.Sine.taylor_accurate
  sine_accurate : Machine.Sine.Accurate sine := by exact Machine.Sine.taylor_accurate
  deriving Inhabited

/-- The reference values of the two parameters (`92_eei_decisions.md`, open parameters): N_MAX = 65536 and SINE_REF
(`40_generator.md` rule R118). -/
noncomputable def Params.reference : Params where
  sine := Machine.Sine.reference
  sine_inRange := Machine.Sine.inRange_of_accurate Machine.Sine.reference_accurate
  sine_accurate := Machine.Sine.reference_accurate

/-- N_MAX = 65536 and the computable sine unit, for tests. -/
def Params.computable : Params := {}

/-- OUT_CAP, the capacity of the output memory in bytes (rule R7). -/
def Params.outCap (P : Params) : Nat := 44 + 2 * P.nMax

/-- The parameters of the block modelled: any the spec allows (log entry 3). -/
opaque Config.params : Params

/-- What a cell of SMP that nothing has written since reset reads as: a free value for each reset epoch and index
(`20_memory.md` rule R73, log entry 4). -/
opaque Config.powerOnSample : Nat → Nat → Half

/-- What a byte of OUT that nothing has written since reset reads as: a free value for each reset epoch and address
(`20_memory.md` rule R73, log entry 4). -/
opaque Config.powerOnByte : Nat → Nat → Byte

/-- Whether the k-th read of a length register while BUSY = 1 sees the value before the command (true) or the one
after it (`70_reset_and_hazards.md` rule R215, log entry 6). -/
opaque Config.busyReadIsOld : Nat → Bool

end Sys2Proof
end

