-- ==== Sys2Proof/Transactions.lean ====
section
/-! DEFINITION. What the outside world does to the block: host transactions (`30_encoding.md` rules R90 to R93), host
accesses of any other shape (`20_memory.md` rule R69), reset (`70_reset_and_hazards.md` rule R210). -/

namespace Sys2Proof

/-- The nine registers of space REG (`10_state.md` rule R20). -/
inductive Reg where
  | cmd | status | sampleRate | bitDepth | freq | duration | channels | smpLen | outLen
  deriving DecidableEq, Repr

/-- The five kinds of host transaction, as tuples (rule R90). -/
inductive Transaction where
  /-- `RegWrite(off, w)` (rule R91). -/
  | regWrite (off : Nat) (w : Word)
  /-- `RegRead(off)` (rule R91). -/
  | regRead (off : Nat)
  /-- `SmpHostWrite(k, w)` (rule R92). -/
  | smpWrite (k : Nat) (w : Half)
  /-- `SmpHostRead(k)` (rule R92). -/
  | smpRead (k : Nat)
  /-- `OutHostRead(a)` (rule R93). -/
  | outRead (a : Nat)
  deriving DecidableEq, Repr

/-- The three address spaces (`20_memory.md` rule R60). -/
inductive Space where
  | reg | smp | out
  deriving DecidableEq, Repr

/-- A host access of any shape: which space, read or write, how many bits, where, and the data of a write. Only the
shapes of rule R69 are transactions of the block. -/
structure Access where
  space : Space
  isWrite : Bool
  bits : Nat
  cell : Nat
  data : Nat
  deriving DecidableEq, Repr

/-- One thing the outside world does. -/
inductive Event where
  /-- The host issues a transaction (rule R90). -/
  | host (t : Transaction)
  /-- The host makes an access of any shape (rule R69). -/
  | access (a : Access)
  /-- The environment applies reset (rule R210). -/
  | reset
  /-- The outside world waits while the block makes one micro-step (log entry 2). -/
  | tick
  deriving DecidableEq, Repr

/-- What a host read returns (rule R90). -/
inductive Reply where
  | word (w : Word)
  | sample (w : Half)
  | byte (b : Byte)
  deriving DecidableEq, Repr

end Sys2Proof
end

