-- ==== Sys2Proof/Machine/AddressMap.lean ====
section
/-! DEFINITION. The register map (`10_state.md` rule R20) and the shapes of access that are transactions
(`20_memory.md` rule R69), and the fields of a command word (`30_encoding.md` rule R94). -/

namespace Sys2Proof

/-- The register at an offset of REG, if the table of rule R20 lists that offset. -/
def Reg.ofOffset : Nat → Option Reg
  | 0x00 => some .cmd
  | 0x04 => some .status
  | 0x08 => some .sampleRate
  | 0x0C => some .bitDepth
  | 0x10 => some .freq
  | 0x14 => some .duration
  | 0x18 => some .channels
  | 0x1C => some .smpLen
  | 0x20 => some .outLen
  | _ => none

/-- The offset of a register (rule R20). -/
def Reg.offset : Reg → Nat
  | .cmd => 0x00
  | .status => 0x04
  | .sampleRate => 0x08
  | .bitDepth => 0x0C
  | .freq => 0x10
  | .duration => 0x14
  | .channels => 0x18
  | .smpLen => 0x1C
  | .outLen => 0x20

/-- The transaction an access is, by its space, direction and width (rule R69): REG 32 bits, SMP one 16-bit cell, OUT
one byte and read only; data that does not fit its width is no access of that width. -/
def Access.transaction (a : Access) : Option Transaction :=
  match a.space, a.isWrite, a.bits with
  | .reg, true, 32 => if a.data < 2 ^ 32 then some (.regWrite a.cell (BitVec.ofNat 32 a.data)) else none
  | .reg, false, 32 => some (.regRead a.cell)
  | .smp, true, 16 => if a.data < 2 ^ 16 then some (.smpWrite a.cell (BitVec.ofNat 16 a.data)) else none
  | .smp, false, 16 => some (.smpRead a.cell)
  | .out, false, 8 => some (.outRead a.cell)
  | _, _, _ => none

/-- The field OPC of a command word, bits 7:0 (`30_encoding.md` rule R94). -/
def commandOpc (w : Word) : BitVec 8 := w.extractLsb' 0 8

/-- The field ZERO of a command word, bits 31:8 (`30_encoding.md` rule R94). -/
def commandZero (w : Word) : BitVec 24 := w.extractLsb' 8 24

end Sys2Proof
end

