-- ==== Sys2Proof/Syntax.lean ====
section
/-! DEFINITION. The instructions of the block: its three commands (`30_encoding.md` rules R94, R95). -/

namespace Sys2Proof

/-- A command. It has no operand field: its operands are the registers and memories it reads (rule R96). -/
inductive Instr where
  /-- GEN, word 0x00000001: generate the sample sequence (rule R110). -/
  | gen
  /-- ENC, word 0x00000002: encode the sample sequence (rule R140). -/
  | enc
  /-- SYN, word 0x00000003: generate, then encode (rule R170). -/
  | syn
  deriving DecidableEq, Repr

end Sys2Proof
end

