-- ==== Sys2Proof/WellFormed.lean ====
section
/-! DEFINITION. Which instructions, command words and host transactions are well formed. -/

namespace Sys2Proof

/-- A command has no register, immediate or mode field (`30_encoding.md` rule R94), so no command is ill formed. -/
def Instr.wf : Instr → Bool
  | .gen => true
  | .enc => true
  | .syn => true

/-- A command word is well formed when ZERO is 0 and OPC is 1, 2 or 3 (`30_encoding.md` rules R94, R95). -/
def isCommandWord (w : Word) : Bool :=
  commandZero w == 0 && (commandOpc w == 1 || commandOpc w == 2 || commandOpc w == 3)

/-- A transaction is one of the block's when its offset is listed, its index below N_MAX, its address below OUT_CAP
(`20_memory.md` rule R69, `30_encoding.md` rule R90). -/
def Transaction.wf (P : Params) : Transaction → Bool
  | .regWrite off _ => (Reg.ofOffset off).isSome
  | .regRead off => (Reg.ofOffset off).isSome
  | .smpWrite k _ => decide (k < P.nMax)
  | .smpRead k => decide (k < P.nMax)
  | .outRead a => decide (a < P.outCap)

end Sys2Proof
end

