-- ==== Sys2Proof/Decode.lean ====
section
/-! DEFINITION. Decoding and encoding of command words (`30_encoding.md` rules R94, R95, R98, R102). A command is one
32-bit word written to CMD; REG has no byte order (`20_memory.md` rule R62), so the decoder reads the word itself. -/

namespace Sys2Proof

/-- Why a word is no command (rule R98). -/
inductive IllegalWord where
  /-- OPC is none of 1, 2, 3. -/
  | opcode
  /-- A bit among 31:8 is set. -/
  | zeroField
  deriving DecidableEq, Repr

/-- Rule R102, total on 32-bit words; an illegal word is rejected by the field that makes it so. -/
def decode (w : Word) : Except IllegalWord Instr :=
  if commandZero w ≠ 0 then .error .zeroField
  else match (commandOpc w).toNat with
    | 0x01 => .ok .gen
    | 0x02 => .ok .enc
    | 0x03 => .ok .syn
    | _ => .error .opcode

/-- The opcode of a command (rule R95), also what the register OP holds (`10_state.md` rule R30). -/
def Instr.opcode : Instr → Nat
  | .gen => 1
  | .enc => 2
  | .syn => 3

/-- The command word: ZERO above OPC (rules R94, R95). -/
def encode (i : Instr) : Word := (0 : BitVec 24) ++ BitVec.ofNat 8 i.opcode

/-- The instruction read from the number w of an nbits-bit row of the opcode table. A command is one 32-bit word, so a
number that does not fit 32 bits is no command. -/
def decodeTableWord (nbits w : Nat) : Option Instr :=
  if nbits ≤ 32 ∧ w < 2 ^ 32 then
    match decode (BitVec.ofNat 32 w) with
    | .ok i => some i
    | .error _ => none
  else none

end Sys2Proof
end

