-- ==== Sys2Proof/Machine/State.lean ====
section
/-! DEFINITION. The state of the block (`10_state.md`), all of it, as plain data; the reasons a step can stop; the state
right after reset (rule R38). -/

namespace Sys2Proof.Machine

/-- The result codes of STATUS.RESULT (`60_exceptions.md` rule R180). -/
inductive Result where
  | none | ok | invalidConfiguration | resourceExhausted | unsupported | illegalCommand
  deriving DecidableEq, Repr

/-- The cause codes of STATUS.CAUSE (`60_exceptions.md` rule R181). -/
inductive Cause where
  | none | sampleRate | frequency | duration | bitDepth | channels | capacity | opcode
  deriving DecidableEq, Repr

/-- The register STATUS by its three fields; every other bit of it reads 0 (`10_state.md` rule R24). -/
structure Status where
  busy : Bool
  result : Result
  cause : Cause
  deriving DecidableEq, Repr

/-- The sequencer state SEQ (`10_state.md` rule R31). -/
inductive Seq where
  /-- IDLE (0): no command executing. -/
  | idle
  /-- GEN_LOOP (1): generating samples. -/
  | genLoop
  /-- ENC_HEADER (2): writing the 13 header fields. -/
  | encHeader
  /-- ENC_DATA (3): writing sample bytes. -/
  | encData
  deriving DecidableEq, Repr

/-- How much of a command one step of the model is (log entry 2): all of it (`70_reset_and_hazards.md` rule R214), or one
micro-step of the sequencer (`10_state.md` rule R31). -/
inductive Granularity where
  | command | microStep
  deriving DecidableEq, Repr

/-- A sparse memory: (address, value) pairs. Its one canonical form is strictly rising addresses (`Memory.wf`); an
address that is not listed holds no value (`20_memory.md` rule R73), so no entry can equal what an unlisted one reads. -/
abbrev Memory (α : Type) := List (Nat × α)

/-- The state of the block. -/
structure State where
  /-- STATUS (rules R20, R24). -/
  status : Status
  /-- SAMPLE_RATE (rules R20, R21). -/
  sampleRate : Word
  /-- BIT_DEPTH (rules R20, R21). -/
  bitDepth : Word
  /-- FREQ, Q16.16 (rules R20, R22). -/
  freq : Word
  /-- DURATION (rules R20, R21). -/
  duration : Word
  /-- CHANNELS (rules R20, R21). -/
  channels : Word
  /-- SMP_LEN (rules R20, R26). -/
  smpLen : Word
  /-- OUT_LEN (rules R20, R27). -/
  outLen : Word
  /-- SEQ (rules R30, R31). -/
  seq : Seq
  /-- OP, the command that executes (rule R30). -/
  op : Instr
  /-- N, the number of samples of the command that executes (rule R30). -/
  n : BitVec 31
  /-- MOD, the phase modulus (rules R25, R30). -/
  modulus : BitVec 47
  /-- STEP, the phase step (rules R25, R30). -/
  stepWord : BitVec 47
  /-- ACC, the phase accumulator (rules R25, R30). -/
  acc : BitVec 47
  /-- IDX, the sample index (rules R30, R32). -/
  idx : BitVec 31
  /-- WP, the write pointer into OUT (rules R30, R32). -/
  wp : BitVec 32
  /-- SMP, the sample memory (rule R34). -/
  smp : Memory Half
  /-- OUT, the output memory (rule R35): a list of `Host.Cell`. -/
  out : List Host.Cell
  /-- The model's own: what the outside world does next, oldest first (log entry 1). -/
  inbox : List Event
  /-- The model's own: what the host's reads have returned, newest first (log entry 1). -/
  replies : List Reply
  /-- The model's own: the view in which commands run (log entry 2). -/
  granularity : Granularity
  /-- The model's own: how many resets there have been, the argument of the free values of rule R73 (log entry 4). -/
  epoch : Nat
  /-- The model's own: how many free choices of rule R215 have been drawn (log entry 6). -/
  draws : Nat
  /-- The model's own: SMP_LEN before the GEN or SYN that executes (log entry 6). -/
  smpLenBefore : Word
  deriving DecidableEq, Repr

/-- Why a step ends in a fault. -/
inductive Fault where
  /-- Raised by a micro-step in a state from which rule R31 gives the sequencer no transition (GEN_LOOP with OP = ENC,
  IDX above N, WP at no header field). Safe: the spec says there is no such transition, and no such state is reached
  from reset (log entry 8). -/
  | sequencerStuck
  deriving DecidableEq, Repr

/-- Why a step is refused. -/
inductive Refusal where
  /-- Raised by an arm of `exec` whose instruction has no meaning yet. Safe. No arm raises it. -/
  | notModelled (mnemonic : String)
  /-- Raised by a host access that is none of the block's transactions (`20_memory.md` rule R69). Safe: "the spec gives
  it no meaning and a model refuses it" (log entry 9). -/
  | undefinedTransaction
  /-- Raised by a host access to SMP or OUT while BUSY = 1 (`70_reset_and_hazards.md` rule R215). Safe: "the spec gives
  them no meaning and a model refuses them" (log entry 9). -/
  | bufferAccessWhileBusy
  deriving DecidableEq, Repr

/-- The state after reset (rule R38). OP, N, MOD, STEP, ACC, IDX and WP are unspecified there and dead (rule R36): their
values are DESIGN CHOICE (log entry 5; it also names the values between commands), as are those of the model's own fields (log entries 1, 2, 4, 6). -/
def State.reset : State where
  status := ⟨false, .none, .none⟩
  sampleRate := 0
  bitDepth := 16
  freq := 0
  duration := 0
  channels := 1
  smpLen := 0
  outLen := 0
  seq := .idle
  op := .gen
  n := 0
  modulus := 0
  stepWord := 0
  acc := 0
  idx := 0
  wp := 0
  smp := []
  out := []
  inbox := []
  replies := []
  granularity := .command
  epoch := 0
  draws := 0
  smpLenBefore := 0

end Sys2Proof.Machine
end

