-- ==== Sys2Proof/Machine/Operands.lean ====
section
/-! DEFINITION. The operands of the commands: the registers a command reads when it starts (`30_encoding.md` rules R96,
R97), as `signed_32` integers (`00_scope.md` rule R9), under the letters the spec's pseudocode gives them, and the
quantities the encoder derives from them (`41_encoder.md` rules R140, R142: "computed not stored"). -/

namespace Sys2Proof.Machine

/-- S, sampleRate in hertz. -/
def operandS (s : State) : Int := s.sampleRate.toInt

/-- B, bitDepth. -/
def operandB (s : State) : Int := s.bitDepth.toInt

/-- F, the frequency in units of `2^-16` Hz (`10_state.md` rule R22). -/
def operandF (s : State) : Int := s.freq.toInt

/-- D, durationSamples. -/
def operandD (s : State) : Int := s.duration.toInt

/-- C, channelCount. -/
def operandC (s : State) : Int := s.channels.toInt

/-- L, the length of the sequence ENC encodes (`10_state.md` rule R26). -/
def operandL (s : State) : Int := s.smpLen.toInt

/-- The sample count a command checks (`60_exceptions.md` rule R187): DURATION for GEN and SYN, SMP_LEN for ENC. -/
def operandCount (i : Instr) (s : State) : Int :=
  match i with
  | .gen => operandD s
  | .enc => operandL s
  | .syn => operandD s

/-- `blockAlign <- (B div 8) * C`. -/
def blockAlign (s : State) : Nat := (operandB s).toNat / 8 * (operandC s).toNat

/-- `byteRate <- S * blockAlign`. -/
def byteRate (s : State) : Nat := (operandS s).toNat * blockAlign s

/-- `dataSize <- N * blockAlign`. -/
def dataSize (s : State) : Nat := s.n.toNat * blockAlign s

/-- `riffChunkSize <- 36 + dataSize`. -/
def riffChunkSize (s : State) : Nat := 36 + dataSize s

end Sys2Proof.Machine
end

