-- ==== Sys2Proof/Machine/Flags.lean ====
section
/-! DEFINITION. The flags of the block, which are the fields of STATUS (`10_state.md` rules R24, R33), and the checks that
decide them (`60_exceptions.md` rules R182 to R192). -/

namespace Sys2Proof.Machine

/-- The code of a result (rule R180). -/
def Result.code : Result → Nat
  | .none => 0
  | .ok => 1
  | .invalidConfiguration => 2
  | .resourceExhausted => 3
  | .unsupported => 4
  | .illegalCommand => 5

/-- The code of a cause (rule R181). -/
def Cause.code : Cause → Nat
  | .none => 0
  | .sampleRate => 1
  | .frequency => 2
  | .duration => 3
  | .bitDepth => 4
  | .channels => 5
  | .capacity => 6
  | .opcode => 7

/-- The word STATUS reads as: `BUSY + 16 * RESULT + 256 * CAUSE` (rule R24). -/
def Status.word (t : Status) : Word :=
  BitVec.ofNat 32 (t.busy.toNat + 16 * t.result.code + 256 * t.cause.code)

/-- The checks of a command, one for each row of the table of rule R187. -/
inductive Check where
  /-- sampleRate <= 0 (rule R182). -/
  | sampleRate
  /-- frequency <= 0 (rule R183). -/
  | frequency
  /-- durationSamples < 0 (rule R184). -/
  | duration
  /-- bitDepth not a positive multiple of 8 (rule R185). -/
  | bitDepth
  /-- channelCount < 1 (rule R186). -/
  | channels
  /-- bitDepth != 16 (rule R188). -/
  | only16Bits
  /-- channelCount != 1 (rule R188). -/
  | onlyOneChannel
  /-- sample count > N_MAX (rule R189). -/
  | capacity
  deriving DecidableEq, Repr

/-- The order of the checks (rule R192). -/
def Check.order : List Check :=
  [.sampleRate, .frequency, .duration, .bitDepth, .channels, .only16Bits, .onlyOneChannel, .capacity]

/-- Which command makes which check (rule R187). -/
def Check.madeBy : Check → Instr → Bool
  | .sampleRate, _ => true
  | .frequency, i => i != .enc
  | .duration, _ => true
  | .bitDepth, _ => true
  | .channels, i => i != .gen
  | .only16Bits, _ => true
  | .onlyOneChannel, i => i != .gen
  | .capacity, _ => true

/-- Whether a check fails, on the values the registers hold now (rules R182 to R189, R195). -/
def Check.fails (P : Params) (c : Check) (i : Instr) (s : State) : Bool :=
  match c with
  | .sampleRate => decide (operandS s ≤ 0)
  | .frequency => decide (operandF s ≤ 0)
  | .duration => decide (operandCount i s < 0)
  | .bitDepth => decide (operandB s ≤ 0) || decide (operandB s % 8 ≠ 0)
  | .channels => decide (operandC s < 1)
  | .only16Bits => decide (operandB s ≠ 16)
  | .onlyOneChannel => decide (operandC s ≠ 1)
  | .capacity => decide ((P.nMax : Int) < operandCount i s)

/-- The result a failed check reports (rules R182 to R189). -/
def Check.result : Check → Result
  | .sampleRate => .invalidConfiguration
  | .frequency => .invalidConfiguration
  | .duration => .invalidConfiguration
  | .bitDepth => .invalidConfiguration
  | .channels => .invalidConfiguration
  | .only16Bits => .unsupported
  | .onlyOneChannel => .unsupported
  | .capacity => .resourceExhausted

/-- The cause a failed check reports (rules R181 to R189). -/
def Check.cause : Check → Cause
  | .sampleRate => .sampleRate
  | .frequency => .frequency
  | .duration => .duration
  | .bitDepth => .bitDepth
  | .channels => .channels
  | .only16Bits => .bitDepth
  | .onlyOneChannel => .channels
  | .capacity => .capacity

/-- Validation (`40_generator.md` rule R111, `41_encoder.md` rule R141, `42_synth.md` rule R171): the first check, of
those the command makes, that fails; none if the command passes. -/
def validate (P : Params) (i : Instr) (s : State) : Option Check :=
  Check.order.find? fun c => c.madeBy i && c.fails P i s

end Sys2Proof.Machine
end

