-- ==== Sys2Proof/Machine/Ops.lean ====
section
/-! DEFINITION. The named operations over memory and registers (`00_scope.md` rule R10, `20_memory.md`), ending a command
in failure (`60_exceptions.md` rule R193) and in success (rule R194), and reset. There is no return from a failure:
"There is no return-from-trap command and nothing to restore" (rule R196). -/

namespace Sys2Proof.Machine

/-- The value at an address, if the memory lists one. -/
def Memory.read {α : Type} : Memory α → Nat → Option α
  | [], _ => none
  | (b, w) :: m, a => if a = b then some w else Memory.read m a

/-- The memory with v at an address, the addresses still rising. -/
def Memory.write {α : Type} : Memory α → Nat → α → Memory α
  | [], a, v => [(a, v)]
  | (b, w) :: m, a, v =>
    if a < b then (a, v) :: (b, w) :: m
    else if a = b then (a, v) :: m
    else (b, w) :: Memory.write m a v

/-- Every address of the memory is above `lo`. -/
def Memory.above {α : Type} (lo : Nat) (m : Memory α) : Bool := m.all fun e => decide (lo < e.1)

/-- The canonical form: addresses strictly rising. -/
def Memory.wf {α : Type} : Memory α → Bool
  | [] => true
  | (b, _) :: m => Memory.above b m && Memory.wf m

/-- Every address of the memory is below `bound`. -/
def Memory.below {α : Type} (bound : Nat) (m : Memory α) : Bool := m.all fun e => decide (e.1 < bound)

/-- `SmpRead(k)` (`20_memory.md` rule R63). A cell that holds no value reads as a free value (rule R73, log entry 4). -/
def smpRead (s : State) (k : Nat) : Half := (Memory.read s.smp k).getD (Config.powerOnSample s.epoch k)

/-- `SmpWrite(k, w)` (`20_memory.md` rule R63). -/
def smpWrite (s : State) (k : Nat) (w : Half) : State := { s with smp := Memory.write s.smp k w }

/-- The byte `OUT[a]` (`20_memory.md` rule R65). A byte that holds no value reads as a free value (rule R73, log entry 4). -/
def outRead (s : State) (a : Nat) : Byte := (Memory.read s.out a).getD (Config.powerOnByte s.epoch a)

/-- `OUT[a] <- b`. -/
def outWrite (s : State) (a : Nat) (b : Byte) : State := { s with out := Memory.write s.out a b }

/-- `MemWrite(addr, n, v)` (`20_memory.md` rule R66): the n low bytes of v, least significant at addr. -/
def memWrite (s : State) (addr : Nat) : Nat → Nat → State
  | 0, _ => s
  | n + 1, v => memWrite (outWrite s addr (BitVec.ofNat 8 v)) (addr + 1) n (v / 256)

/-- `MemRead(addr, n)` (`20_memory.md` rule R67): the integer the n bytes from addr spell, least significant first. -/
def memRead (s : State) (addr : Nat) : Nat → Nat
  | 0 => 0
  | n + 1 => (outRead s addr).toNat + 256 * memRead s (addr + 1) n

/-- The word a register reads as (`30_encoding.md` rule R91); CMD stores nothing and reads 0 (`10_state.md` rule R23). -/
def readReg (s : State) : Reg → Word
  | .cmd => 0
  | .status => s.status.word
  | .sampleRate => s.sampleRate
  | .bitDepth => s.bitDepth
  | .freq => s.freq
  | .duration => s.duration
  | .channels => s.channels
  | .smpLen => s.smpLen
  | .outLen => s.outLen

/-- A host write of w to a register that stores what is written (`30_encoding.md` rule R91, `10_state.md` rule R29); a
write to a read-only register changes nothing (rule R28), and CMD stores nothing (rule R23). -/
def writeReg (s : State) (r : Reg) (w : Word) : State :=
  match r with
  | .cmd => s
  | .status => s
  | .sampleRate => { s with sampleRate := w }
  | .bitDepth => { s with bitDepth := w }
  | .freq => { s with freq := w }
  | .duration => { s with duration := w }
  | .channels => { s with channels := w }
  | .smpLen => { s with smpLen := w }
  | .outLen => s

/-- Whether a command produces the sample sequence (`30_encoding.md` rule R96). -/
def producesSamples : Instr → Bool
  | .gen => true
  | .enc => false
  | .syn => true

/-- Whether a command produces the file (`30_encoding.md` rule R96). -/
def producesFile : Instr → Bool
  | .gen => false
  | .enc => true
  | .syn => true

/-- `raise`: the end of a command in failure (`60_exceptions.md` rule R193): STATUS takes the result and the cause, the
length register of every buffer the command would have produced becomes 0, nothing else changes. `none` stands for a
word that is no command: it would have produced nothing, so it writes STATUS only (rule R190). The internal registers
keep what they held, which the spec leaves open (`93_implementation_defined.md` U11; DESIGN CHOICE, log entry 5). -/
def raise (i : Option Instr) (r : Result) (c : Cause) (s : State) : State :=
  { s with
    status := ⟨false, r, c⟩
    smpLen := if i.any producesSamples then 0 else s.smpLen
    outLen := if i.any producesFile then 0 else s.outLen }

/-- The end of a command in success: `x[STATUS] <- {BUSY=0, RESULT=OK, CAUSE=NONE}`, `SEQ <- IDLE`
(`60_exceptions.md` rule R194). The internal registers OP, N, MOD, STEP, ACC, IDX and WP keep their last values, which
the spec leaves open (`93_implementation_defined.md` U11; DESIGN CHOICE, log entry 5). -/
def succeed (s : State) : State := { s with status := ⟨false, .ok, .none⟩, seq := .idle }

/-- STATUS while a command executes: `{BUSY=1, RESULT=NONE, CAUSE=NONE}` (`10_state.md` rule R33). -/
def Status.executing : Status := ⟨true, .none, .none⟩

/-- Reset (`70_reset_and_hazards.md` rules R210, R212): the block is as after reset, whatever it was doing; no cell of
SMP or OUT holds a value. What the outside world does next and has read is not the block's and stays; the epoch of the
free values is a new one (log entry 4). -/
def applyReset (s : State) : State :=
  { State.reset with
    inbox := s.inbox
    replies := s.replies
    granularity := s.granularity
    epoch := s.epoch + 1
    draws := s.draws }

end Sys2Proof.Machine
end

