-- ==== Sys2Proof/Machine/Encoder.lean ====
section
/-! DEFINITION. The command ENC and the sub-block `riff_wave_encoder` (`41_encoder.md`). -/

namespace Sys2Proof.Machine

/-- A field of the header (`20_memory.md` rule R72): where it stands, its size in bytes, the integer its bytes spell. -/
structure HeaderField where
  offset : Nat
  size : Nat
  value : Nat
  deriving DecidableEq, Repr

/-- The 13 header fields in rising offset order, from the registers and N (rules R145 to R157). The four tags are the
integers of `20_memory.md` rule R70. -/
def headerFields (s : State) : List HeaderField :=
  [ ⟨0, 4, 0x46464952⟩,              -- ChunkID "RIFF" (rule R145)
    ⟨4, 4, riffChunkSize s⟩,         -- ChunkSize (rule R146)
    ⟨8, 4, 0x45564157⟩,              -- Format "WAVE" (rule R147)
    ⟨12, 4, 0x20746D66⟩,             -- Subchunk1ID "fmt " (rule R148)
    ⟨16, 4, 16⟩,                     -- Subchunk1Size (rule R149)
    ⟨20, 2, 1⟩,                      -- AudioFormat, PCM (rule R150)
    ⟨22, 2, (operandC s).toNat⟩,     -- NumChannels (rule R151)
    ⟨24, 4, (operandS s).toNat⟩,     -- SampleRate (rule R152)
    ⟨28, 4, byteRate s⟩,             -- ByteRate (rule R153)
    ⟨32, 2, blockAlign s⟩,           -- BlockAlign (rule R154)
    ⟨34, 2, (operandB s).toNat⟩,     -- BitsPerSample (rule R155)
    ⟨36, 4, 0x61746164⟩,             -- Subchunk2ID "data" (rule R156)
    ⟨40, 4, dataSize s⟩ ]            -- Subchunk2Size (rule R157)

/-- The length of the header in bytes, where WP stands after the thirteenth field (rule R144). -/
abbrev headerSize : Nat := 44

/-- The start of ENC (rules R140, R144): BUSY, `OP <- ENC`, `N <- L`, `WP <- 0`, `SEQ <- ENC_HEADER`. -/
def startEncoder (s : State) : State :=
  { s with
    status := Status.executing
    op := .enc
    n := BitVec.ofNat 31 (operandL s).toNat
    wp := 0
    seq := .encHeader }

/-- `MemWrite(WP, n, v)`, then `WP <- WP + n` (rules R144, R158). -/
def writeAtWp (s : State) (n v : Nat) : State :=
  { memWrite s s.wp.toNat n v with wp := s.wp + BitVec.ofNat 32 n }

/-- One micro-step of ENC_HEADER: one field written at WP (rule R144). -/
def writeField (s : State) (f : HeaderField) : State := writeAtWp s f.size f.value

/-- The 13 header fields (rules R144 to R157). -/
def writeHeader (s : State) : State := (headerFields s).foldl writeField s

/-- ENC_HEADER to ENC_DATA: `SEQ <- ENC_DATA`, `IDX <- 0` (rules R140, R32). -/
def enterData (s : State) : State := { s with seq := .encData, idx := 0 }

/-- One micro-step of ENC_DATA: `MemWrite(WP, 2, SmpRead(IDX))`, WP and IDX advance (rule R158). -/
def encodeSample (s : State) : State :=
  { writeAtWp s 2 (smpRead s s.idx.toNat).toNat with idx := s.idx + 1 }

/-- The loop of rule R140, as many turns as its first argument says. -/
def encodeLoop : Nat → State → State
  | 0, s => s
  | k + 1, s => encodeLoop k (encodeSample s)

/-- The end of encoding: `x[OUT_LEN] <- 44 + dataSize`, success (rules R140, R159). -/
def finishEncoder (s : State) : State :=
  succeed { s with outLen := BitVec.ofNat 32 (headerSize + dataSize s) }

/-- The encoder's body from `WP = 0` to its end (rule R140), for ENC and SYN. -/
def runEncoder (s : State) : State :=
  let t := enterData (writeHeader s)
  finishEncoder (encodeLoop t.n.toNat t)

/-- ENC on a block with parameters P (rule R140). -/
def encodeFile (P : Params) (s : State) : State :=
  match validate P .enc s with
  | some c => raise (some .enc) c.result c.cause s
  | none => runEncoder (startEncoder s)

/-- The meaning of ENC (rule R140): the whole command in one step (`70_reset_and_hazards.md` rule R214). -/
def execEnc (s : State) : Host.Outcome State Fault Refusal := .next (encodeFile Config.params s)

end Sys2Proof.Machine
end

