-- ==== Sys2Proof/Machine/Quantizer.lean ====
section
/-! DEFINITION. The sub-block `fixed_point_quantizer` (`40_generator.md` rules R120 to R123). -/

namespace Sys2Proof.Machine

/-- `clamp(v, lo, hi)` (`00_scope.md` rule R10). -/
def clamp (v lo hi : Int) : Int := if v < lo then lo else if hi < v then hi else v

/-- `round(p / 2^30)`, half away from zero: `sgn(p) * floor((|p| + 2^29) / 2^30)` (rules R120, R121). -/
def roundHalfAway (p : Int) : Int := p.sign * (((p.natAbs + 2 ^ 29) / 2 ^ 30 : Nat) : Int)

/-- QUANT (rule R120): scale by 32767, round, saturate to the signed 16-bit range (rule R122). -/
def quant (a : Int) : Int := clamp (roundHalfAway (a * 32767)) (-32768) 32767

end Sys2Proof.Machine
end

