-- ==== Sys2Proof/Machine/Generator.lean ====
section
/-! DEFINITION. The command GEN and the sub-block `sine_phase_accumulator` (`40_generator.md`). -/

namespace Sys2Proof.Machine

/-- The start of generation, for GEN and SYN (rules R110, R112, `42_synth.md` rule R170): BUSY, `OP`, `N <- D`,
`MOD <- S * 2^16`, `STEP <- F mod MOD`, `ACC <- 0`, `IDX <- 0`, `SEQ <- GEN_LOOP`. SMP_LEN is kept for reads while BUSY
(log entry 6). -/
def startGenerator (i : Instr) (s : State) : State :=
  let modulus := (operandS s).toNat * 2 ^ 16
  { s with
    status := Status.executing
    op := i
    n := BitVec.ofNat 31 (operandD s).toNat
    modulus := BitVec.ofNat 47 modulus
    stepWord := BitVec.ofNat 47 ((operandF s).toNat % modulus)
    acc := 0
    idx := 0
    seq := .genLoop
    smpLenBefore := s.smpLen }

/-- The sample at an accumulator value: `QUANT(SINE(ACC, MOD))` (rules R116, R120). -/
def sampleAt (P : Params) (acc modulus : Nat) : Int := quant (P.sine acc modulus)

/-- `(ACC + STEP) mod MOD` (rule R113). -/
def nextAcc (acc stepWord modulus : BitVec 47) : BitVec 47 :=
  BitVec.ofNat 47 ((acc.toNat + stepWord.toNat) % modulus.toNat)

/-- One micro-step of GEN_LOOP (rule R124): one sample stored at IDX, then ACC and IDX advance. -/
def generateSample (P : Params) (s : State) : State :=
  { smpWrite s s.idx.toNat (BitVec.ofInt 16 (sampleAt P s.acc.toNat s.modulus.toNat)) with
    acc := nextAcc s.acc s.stepWord s.modulus
    idx := s.idx + 1 }

/-- The loop of rule R110, as many turns as its first argument says. -/
def generateLoop (P : Params) : Nat → State → State
  | 0, s => s
  | k + 1, s => generateLoop P k (generateSample P s)

/-- `x[SMP_LEN] <- word_32(N)` (rule R125). -/
def storeSampleCount (s : State) : State := { s with smpLen := s.n.setWidth 32 }

/-- The end of GEN_LOOP when OP = GEN (rule R125). -/
def finishGenerator (s : State) : State := succeed (storeSampleCount s)

/-- GEN on a block with parameters P (rule R110). -/
def generate (P : Params) (s : State) : State :=
  match validate P .gen s with
  | some c => raise (some .gen) c.result c.cause s
  | none =>
    let t := startGenerator .gen s
    finishGenerator (generateLoop P t.n.toNat t)

/-- The meaning of GEN (rule R110): the whole command in one step (`70_reset_and_hazards.md` rule R214). -/
def execGen (s : State) : Host.Outcome State Fault Refusal := .next (generate Config.params s)

end Sys2Proof.Machine
end

