-- ==== Sys2Proof/Machine/Synth.lean ====
section
/-! DEFINITION. The command SYN: generate, then encode (`42_synth.md`). -/

namespace Sys2Proof.Machine

/-- GEN_LOOP to ENC_HEADER when OP = SYN: `x[SMP_LEN] <- N`, `WP <- 0`, BUSY still 1 (`40_generator.md` rule R125,
rules R170, R172). -/
def turnToEncoder (s : State) : State := { storeSampleCount s with wp := 0, seq := .encHeader }

/-- SYN on a block with parameters P (rule R170). -/
def synthesise (P : Params) (s : State) : State :=
  match validate P .syn s with
  | some c => raise (some .syn) c.result c.cause s
  | none =>
    let t := startGenerator .syn s
    runEncoder (turnToEncoder (generateLoop P t.n.toNat t))

/-- The meaning of SYN (rule R170): the whole command in one step (`70_reset_and_hazards.md` rule R214). -/
def execSyn (s : State) : Host.Outcome State Fault Refusal := .next (synthesise Config.params s)

end Sys2Proof.Machine
end

