-- ==== Sys2Proof/Machine/Sequencer.lean ====
section
/-! DEFINITION. The sequencer: the micro-steps that refine a command (`10_state.md` rule R31, `70_reset_and_hazards.md`
rule R214), grouped as the trace `95_test_vectors.md` V-SYN-5 groups them (log entry 7). -/

namespace Sys2Proof.Machine

/-- The start of a command in the micro-step view: validation, then IDLE to GEN_LOOP or to ENC_HEADER; a command that
fails validation never leaves IDLE (rule R31). -/
def startCommand (P : Params) (i : Instr) (s : State) : State :=
  match validate P i s with
  | some c => raise (some i) c.result c.cause s
  | none =>
    match i with
    | .gen => startGenerator .gen s
    | .enc => startEncoder s
    | .syn => startGenerator .syn s

/-- What GEN_LOOP does when IDX = N (rules R31, R125): to IDLE if OP = GEN, to ENC_HEADER if OP = SYN; there is no
transition for OP = ENC. -/
def leaveGenLoop (s : State) : Host.Outcome State Fault Refusal :=
  match s.op with
  | .gen => .next (finishGenerator s)
  | .syn => .next (turnToEncoder s)
  | .enc => .fault .sequencerStuck

/-- The header field that starts at WP, if one does. -/
def fieldAtWp (s : State) : Option HeaderField := (headerFields s).find? fun f => f.offset == s.wp.toNat

/-- One micro-step (rule R31). An idle block keeps all its state (`60_exceptions.md` rule R201). -/
def microStep (P : Params) (s : State) : Host.Outcome State Fault Refusal :=
  match s.seq with
  | .idle => .next s
  | .genLoop =>
    if s.idx.toNat < s.n.toNat then .next (generateSample P s)
    else if s.idx = s.n then leaveGenLoop s
    else .fault .sequencerStuck
  | .encHeader =>
    if s.wp.toNat = headerSize then .next (enterData s)
    else match fieldAtWp s with
      | some f => .next (writeField s f)
      | none => .fault .sequencerStuck
  | .encData =>
    if s.idx.toNat < s.n.toNat then .next (encodeSample s)
    else if s.idx = s.n then .next (finishEncoder s)
    else .fault .sequencerStuck

end Sys2Proof.Machine
end

