-- ==== Sys2Proof/Machine/HostPort.lean ====
section
/-! DEFINITION. The host's side of the block: transactions (`30_encoding.md` rules R90 to R93, R102), also while BUSY = 1
(`70_reset_and_hazards.md` rule R215), and the order in which the outside world and the sequencer move. -/

namespace Sys2Proof.Machine

/-- A host read returned r. -/
def reply (r : Reply) (s : State) : State := { s with replies := r :: s.replies }

/-- A host write of w to CMD while BUSY = 0 (`10_state.md` rule R23, `30_encoding.md` rule R102): a command is executed,
whole (rule R214) or by starting the sequencer (log entry 2); any other word is an illegal command (`60_exceptions.md`
rule R190). -/
def writeCommand (P : Params) (w : Word) (s : State) : Host.Outcome State Fault Refusal :=
  match decode w with
  | .error _ => .next (raise none .illegalCommand .opcode s)
  | .ok i =>
    match s.granularity with
    | .command => exec i s
    | .microStep => .next (startCommand P i s)

/-- `RegWrite` to register r (rule R91); while BUSY = 1 every register write is ignored (rule R215). -/
def hostWriteReg (P : Params) (r : Reg) (w : Word) (s : State) : Host.Outcome State Fault Refusal :=
  if s.status.busy then .next s
  else match r with
    | .cmd => writeCommand P w s
    | r => .next (writeReg s r w)

/-- The word a register will hold when the command that executes has ended (`10_state.md` rules R26, R27): SMP_LEN after
GEN and SYN, OUT_LEN after ENC and SYN. -/
def lengthAfter (s : State) (r : Reg) : Word :=
  match r with
  | .smpLen => if producesSamples s.op then s.n.setWidth 32 else s.smpLen
  | .outLen => if producesFile s.op then BitVec.ofNat 32 (headerSize + dataSize s) else s.outLen
  | r => readReg s r

/-- The word a register held before the command that executes (`93_implementation_defined.md` U14): of the registers only
SMP_LEN changes inside a command before its end, in SYN (`40_generator.md` rule R125). -/
def lengthBefore (s : State) (r : Reg) : Word :=
  match r with
  | .smpLen => if producesSamples s.op then s.smpLenBefore else s.smpLen
  | r => readReg s r

/-- `RegRead` of register r (rule R91). While BUSY = 1, SMP_LEN and OUT_LEN "may hold the old or the new value" (rule
R215): which one is a free choice (log entry 6). -/
def hostReadReg (r : Reg) (s : State) : State :=
  if s.status.busy && (r == .smpLen || r == .outLen) then
    { reply (.word (if Config.busyReadIsOld s.draws then lengthBefore s r else lengthAfter s r)) s with draws := s.draws + 1 }
  else reply (.word (readReg s r)) s

/-- A host access to SMP or OUT: defined while BUSY = 0 only (rules R92, R93, R215). -/
def bufferAccess (t s : State) : Host.Outcome State Fault Refusal :=
  if s.status.busy then .refused .bufferAccessWhileBusy else .next t

/-- A host transaction (rule R90); one at an offset, index or address outside its space is refused (`20_memory.md` rule
R69). -/
def hostTransaction (P : Params) (t : Transaction) (s : State) : Host.Outcome State Fault Refusal :=
  if t.wf P then
    match t with
    | .regWrite off w => match Reg.ofOffset off with
      | some r => hostWriteReg P r w s
      | none => .refused .undefinedTransaction
    | .regRead off => match Reg.ofOffset off with
      | some r => .next (hostReadReg r s)
      | none => .refused .undefinedTransaction
    | .smpWrite k w => bufferAccess (smpWrite s k w) s
    | .smpRead k => bufferAccess (reply (.sample (smpRead s k)) s) s
    | .outRead a => bufferAccess (reply (.byte (outRead s a)) s) s
  else .refused .undefinedTransaction

/-- What one event does. -/
def handle (P : Params) (e : Event) (s : State) : Host.Outcome State Fault Refusal :=
  match e with
  | .host t => hostTransaction P t s
  | .access a => match a.transaction with
    | some t => hostTransaction P t s
    | none => .refused .undefinedTransaction
  | .reset => .next (applyReset s)
  | .tick => microStep P s

/-- The next thing that happens: the oldest event of the inbox, or, when none waits, a micro-step of the block (log
entries 1, 2). -/
def advance (P : Params) (s : State) : Host.Outcome State Fault Refusal :=
  match s.inbox with
  | [] => microStep P s
  | e :: rest => handle P e { s with inbox := rest }

/-- A host write of the command word w to CMD, put before everything else in the inbox, in the view in which a command
is one step (log entry 10). -/
def placeCommand (s : State) (w : Word) : State :=
  { s with inbox := .host (.regWrite (Reg.offset .cmd) w) :: s.inbox, granularity := .command }

end Sys2Proof.Machine
end

