-- ==== Sys2Proof/Machine/Step.lean ====
section
/-! DEFINITION. One step of the machine, and where its next instruction comes from. -/

namespace Sys2Proof.Machine

/-- One step: the next event, or a micro-step of the block. -/
def step (s : State) : Host.Outcome State Fault Refusal := advance Config.params s

/-- The block fetches no instructions (`10_state.md` rule R31, `20_memory.md` rule R77): "each command is the word the
host writes to CMD". The word stands where `step` takes its next command from: the head of the inbox (log entry 10).
The bits above nbits are 0. -/
def State.withFetchWord (s : State) (nbits w : Nat) : State := placeCommand s (BitVec.ofNat 32 (w % 2 ^ nbits))

end Sys2Proof.Machine
end

