-- ==== Sys2Proof/Safety.lean ====
section
/-! DEFINITION. The terms claims about the block use: when a command is ready to run, the closed form of a sample, the
invariant every step keeps, and runs of the sequencer. -/

namespace Sys2Proof.Machine

/-- The configuration passes GEN's checks (`40_generator.md` rule R111). -/
def GenReady (s : State) : Prop :=
  0 < operandS s ∧ 0 < operandF s ∧ 0 ≤ operandD s ∧ operandB s = 16 ∧ operandD s ≤ Config.params.nMax

/-- The configuration passes ENC's checks (`41_encoder.md` rule R141). -/
def EncReady (s : State) : Prop :=
  0 < operandS s ∧ 0 ≤ operandL s ∧ operandB s = 16 ∧ operandC s = 1 ∧ operandL s ≤ Config.params.nMax

/-- The configuration passes SYN's checks (`42_synth.md` rule R171). -/
def SynReady (s : State) : Prop :=
  0 < operandS s ∧ 0 < operandF s ∧ 0 ≤ operandD s ∧ operandB s = 16 ∧ operandC s = 1 ∧
    operandD s ≤ Config.params.nMax

/-- The configuration passes the checks of command i. -/
def Ready : Instr → State → Prop
  | .gen => GenReady
  | .enc => EncReady
  | .syn => SynReady

/-- `S * 2^16`, the phase modulus of a configuration (`40_generator.md` rule R112). -/
def modulusOf (s : State) : Nat := (operandS s).toNat * 2 ^ 16

/-- `(F * i) mod (S * 2^16)`, the phase of sample i (`40_generator.md` rule R114). -/
def phaseOf (s : State) (i : Nat) : Nat := (operandF s).toNat * i % modulusOf s

/-- `QUANT(SINE((F * i) mod (S * 2^16), S * 2^16))`, the sample with index i (`40_generator.md` rule R126). -/
def sampleOf (s : State) (i : Nat) : Int := quant (Config.params.sine (phaseOf s i) (modulusOf s))

/-- `32767 * sin(2 * pi * frequency * i / sampleRate)`, with `frequency = F / 2^16` (`40_generator.md` rules R115,
R127 e). -/
noncomputable def idealSample (s : State) (i : Nat) : ℝ :=
  32767 * Real.sin (2 * Real.pi * ((operandF s : ℝ) / 2 ^ 16) * i / operandS s)

/-- `round(p / 2^30)` half to even, the rounding mode the block does not use (`40_generator.md` rule R121). -/
def roundHalfEven (p : Int) : Int :=
  let q := p / 2 ^ 30
  let r := p % 2 ^ 30
  if r < 2 ^ 29 then q else if 2 ^ 29 < r then q + 1 else if q % 2 = 0 then q else q + 1

/-- The STATUS values that can be read (`60_exceptions.md` rule R181). -/
def Status.legal : List Status :=
  [⟨false, .none, .none⟩, ⟨false, .ok, .none⟩, ⟨false, .invalidConfiguration, .sampleRate⟩,
    ⟨false, .invalidConfiguration, .frequency⟩, ⟨false, .invalidConfiguration, .duration⟩,
    ⟨false, .invalidConfiguration, .bitDepth⟩, ⟨false, .invalidConfiguration, .channels⟩,
    ⟨false, .resourceExhausted, .capacity⟩, ⟨false, .unsupported, .bitDepth⟩, ⟨false, .unsupported, .channels⟩,
    ⟨false, .illegalCommand, .opcode⟩, ⟨true, .none, .none⟩]

/-- What holds inside the command that executes, for each state of the sequencer (`10_state.md` rules R30 to R32,
`40_generator.md` rules R112, R114, R125, `41_encoder.md` rules R144, R158). -/
def InsideCommand (s : State) : Prop :=
  match s.seq with
  | .idle => True
  | .genLoop => s.op ≠ .enc ∧ Ready s.op s ∧ s.n.toNat = (operandD s).toNat ∧ s.idx.toNat ≤ s.n.toNat ∧
      s.modulus.toNat = modulusOf s ∧ s.stepWord.toNat = (operandF s).toNat % modulusOf s ∧
      s.acc.toNat = phaseOf s s.idx.toNat ∧ s.smpLenBefore = s.smpLen
  | .encHeader => s.op ≠ .gen ∧ Ready s.op s ∧ s.n.toNat = (operandCount s.op s).toNat ∧
      s.wp.toNat ∈ [0, 4, 8, 12, 16, 20, 22, 24, 28, 32, 34, 36, 40, 44] ∧
      (s.op = .syn → s.smpLen = s.n.setWidth 32)
  | .encData => s.op ≠ .gen ∧ Ready s.op s ∧ s.n.toNat = (operandCount s.op s).toNat ∧ s.idx.toNat ≤ s.n.toNat ∧
      s.wp.toNat = 44 + 2 * s.idx.toNat ∧ (s.op = .syn → s.smpLen = s.n.setWidth 32)

/-- The invariant: both memories in canonical form and inside their spaces; OUT_LEN at most OUT_CAP; STATUS one of the
legal words; BUSY exactly when the sequencer is not idle; the internal registers as the command that executes has
them. -/
structure BlockInv (s : State) : Prop where
  smp_wf : Memory.wf s.smp = true
  smp_below : Memory.below Config.params.nMax s.smp = true
  out_wf : Memory.wf s.out = true
  out_below : Memory.below Config.params.outCap s.out = true
  outLen_le : s.outLen.toNat ≤ Config.params.outCap
  status_legal : s.status ∈ Status.legal
  busy_iff : s.status.busy = true ↔ s.seq ≠ .idle
  inside : InsideCommand s

/-- k micro-steps of the sequencer, stopping at the first fault. -/
def runMicro (P : Params) : Nat → State → Host.Outcome State Fault Refusal
  | 0, s => .next s
  | k + 1, s => match microStep P s with
    | .next t => runMicro P k t
    | o => o

/-- How many micro-steps a command of N samples takes after its start, in the grouping of log entry 7: one for each
sample and header field, one for each change of SEQ (`95_test_vectors.md` V-SYN-5). -/
def microStepsOf (i : Instr) (n : Nat) : Nat :=
  match i with
  | .gen => n + 1
  | .enc => 13 + 1 + n + 1
  | .syn => n + 1 + 13 + 1 + n + 1

/-- The transaction an event is, if it is one. -/
def eventTransaction : Event → Option Transaction
  | .host t => some t
  | .access a => a.transaction
  | .reset => none
  | .tick => none

/-- The next event is the host transaction t. -/
def NextIs (s : State) (t : Transaction) (rest : List Event) : Prop :=
  ∃ e, s.inbox = e :: rest ∧ eventTransaction e = some t

end Sys2Proof.Machine
end

