-- ==== Sys2Proof/Certificates/Slice0/Obligations.lean ====
section
/-! DEFINITION. The statements about the block, from the numbered rules of the spec. -/

open Sys2Proof Sys2Proof.Machine

/-! ### Reset -/

/-- Rule R38: the state after reset, and what a command issued before any configuration does. -/
def Obligations.ResetStateValues : Prop :=
  readReg State.reset .cmd = 0 ∧ readReg State.reset .status = 0x00000000 ∧ readReg State.reset .sampleRate = 0 ∧
  readReg State.reset .bitDepth = 16 ∧ readReg State.reset .freq = 0 ∧ readReg State.reset .duration = 0 ∧
  readReg State.reset .channels = 1 ∧ readReg State.reset .smpLen = 0 ∧ readReg State.reset .outLen = 0 ∧
  State.reset.seq = .idle ∧
  (∀ k, Memory.read State.reset.smp k = none) ∧ (∀ a, Memory.read State.reset.out a = none) ∧
  (∀ i, exec i State.reset =
    .next { State.reset with status := ⟨false, .invalidConfiguration, .sampleRate⟩ })

/-- Rules R210, R212: a reset event, in any state, also in the middle of a command. -/
def Obligations.ResetAbandonsEverything : Prop :=
  ∀ s rest, s.inbox = .reset :: rest → ∃ t, step s = .next t ∧ t.inbox = rest ∧
    (∀ r, readReg t r = readReg State.reset r) ∧ t.seq = .idle ∧ t.status.busy = false ∧
    (∀ k, Memory.read t.smp k = none) ∧ (∀ a, Memory.read t.out a = none) ∧
    (∀ P, microStep P t = .next t)

/-! ### Command words -/

/-- Words written out from the encoding of rules R94, R95, and some illegal ones of rule R98. -/
def Obligations.SpecCommandWordsDecode : Prop :=
  decode 0b00000000000000000000000000000001#32 = .ok .gen ∧
  decode 0b00000000000000000000000000000010#32 = .ok .enc ∧
  decode 0b00000000000000000000000000000011#32 = .ok .syn ∧
  decode 0x00000000#32 = .error .opcode ∧ decode 0x00000004#32 = .error .opcode ∧
  decode 0x000000FF#32 = .error .opcode ∧ decode 0x00000101#32 = .error .zeroField ∧
  decode 0x80000001#32 = .error .zeroField ∧
  decodeTableWord 32 1 = some .gen ∧ decodeTableWord 32 2 = some .enc ∧ decodeTableWord 32 3 = some .syn

/-- Rules R95, R98: the three words, and no other, are commands. -/
def Obligations.DecodeAcceptsExactlyThreeWords : Prop :=
  ∀ (w : Word) (i : Instr), decode w = .ok i ↔
    (w = 0x00000001 ∧ i = .gen) ∨ (w = 0x00000002 ∧ i = .enc) ∨ (w = 0x00000003 ∧ i = .syn)

/-- Decoding the word of a command gives the command back. -/
def Obligations.DecodeEncodeRoundTrip : Prop :=
  ∀ i : Instr, i.wf = true → isCommandWord (encode i) = true ∧ decode (encode i) = .ok i

/-- Rule R102: a host write of a command word to CMD, while BUSY = 0, is that command executed: whole, or, in the
micro-step view (log entry 2), by starting the sequencer. -/
def Obligations.CommandWriteRunsDecodedInstruction : Prop :=
  ∀ s rest w i, NextIs s (.regWrite 0x00 w) rest → s.status.busy = false → decode w = .ok i →
    (s.granularity = .command → step s = exec i { s with inbox := rest }) ∧
    (s.granularity = .microStep → step s = .next (startCommand Config.params i { s with inbox := rest }))

/-- Rule R190: any other word writes STATUS (to 0x00000750) and nothing else. -/
def Obligations.IllegalWordWritesStatusOnly : Prop :=
  ∀ s rest w, NextIs s (.regWrite 0x00 w) rest → s.status.busy = false →
    w ≠ 0x00000001 → w ≠ 0x00000002 → w ≠ 0x00000003 →
    step s = .next { s with inbox := rest, status := ⟨false, .illegalCommand, .opcode⟩ } ∧
    Status.word ⟨false, .illegalCommand, .opcode⟩ = 0x00000750

/-! ### Validation and failure -/

/-- Rule R111: GEN's checks in their order, each with the whole effect of its failure (rule R193); GEN does not look at
CHANNELS. -/
def Obligations.GenValidation : Prop :=
  ∀ s,
    let S := operandS s; let B := operandB s; let F := operandF s; let D := operandD s
    let fails (r : Result) (c : Cause) : Prop :=
      exec .gen s = .next { s with status := ⟨false, r, c⟩, smpLen := 0 }
    (S ≤ 0 → fails .invalidConfiguration .sampleRate) ∧
    (0 < S → F ≤ 0 → fails .invalidConfiguration .frequency) ∧
    (0 < S → 0 < F → D < 0 → fails .invalidConfiguration .duration) ∧
    (0 < S → 0 < F → 0 ≤ D → (B ≤ 0 ∨ B % 8 ≠ 0) → fails .invalidConfiguration .bitDepth) ∧
    (0 < S → 0 < F → 0 ≤ D → 0 < B → B % 8 = 0 → B ≠ 16 → fails .unsupported .bitDepth) ∧
    (0 < S → 0 < F → 0 ≤ D → B = 16 → (Config.params.nMax : Int) < D → fails .resourceExhausted .capacity) ∧
    (∀ (w : Word) t, exec .gen s = .next t → exec .gen { s with channels := w } = .next { t with channels := w })

/-- Rule R141: ENC's checks in their order, each with the whole effect of its failure (rule R193); ENC does not look at
FREQ or DURATION. -/
def Obligations.EncValidation : Prop :=
  ∀ s,
    let S := operandS s; let B := operandB s; let C := operandC s; let L := operandL s
    let fails (r : Result) (c : Cause) : Prop :=
      exec .enc s = .next { s with status := ⟨false, r, c⟩, outLen := 0 }
    (S ≤ 0 → fails .invalidConfiguration .sampleRate) ∧
    (0 < S → L < 0 → fails .invalidConfiguration .duration) ∧
    (0 < S → 0 ≤ L → (B ≤ 0 ∨ B % 8 ≠ 0) → fails .invalidConfiguration .bitDepth) ∧
    (0 < S → 0 ≤ L → 0 < B → B % 8 = 0 → C < 1 → fails .invalidConfiguration .channels) ∧
    (0 < S → 0 ≤ L → 0 < B → B % 8 = 0 → 1 ≤ C → B ≠ 16 → fails .unsupported .bitDepth) ∧
    (0 < S → 0 ≤ L → B = 16 → 1 ≤ C → C ≠ 1 → fails .unsupported .channels) ∧
    (0 < S → 0 ≤ L → B = 16 → C = 1 → (Config.params.nMax : Int) < L → fails .resourceExhausted .capacity) ∧
    ((Config.params.nMax : Int) < L ↔ (Config.params.outCap : Int) < 44 + 2 * L) ∧
    (∀ (f d : Word) t, exec .enc s = .next t →
      exec .enc { s with freq := f, duration := d } = .next { t with freq := f, duration := d })

/-- Rule R171: SYN's checks in their order, each with the whole effect of its failure (rule R193). -/
def Obligations.SynValidation : Prop :=
  ∀ s,
    let S := operandS s; let B := operandB s; let F := operandF s; let D := operandD s; let C := operandC s
    let fails (r : Result) (c : Cause) : Prop :=
      exec .syn s = .next { s with status := ⟨false, r, c⟩, smpLen := 0, outLen := 0 }
    (S ≤ 0 → fails .invalidConfiguration .sampleRate) ∧
    (0 < S → F ≤ 0 → fails .invalidConfiguration .frequency) ∧
    (0 < S → 0 < F → D < 0 → fails .invalidConfiguration .duration) ∧
    (0 < S → 0 < F → 0 ≤ D → (B ≤ 0 ∨ B % 8 ≠ 0) → fails .invalidConfiguration .bitDepth) ∧
    (0 < S → 0 < F → 0 ≤ D → 0 < B → B % 8 = 0 → C < 1 → fails .invalidConfiguration .channels) ∧
    (0 < S → 0 < F → 0 ≤ D → 0 < B → B % 8 = 0 → 1 ≤ C → B ≠ 16 → fails .unsupported .bitDepth) ∧
    (0 < S → 0 < F → 0 ≤ D → B = 16 → 1 ≤ C → C ≠ 1 → fails .unsupported .channels) ∧
    (0 < S → 0 < F → 0 ≤ D → B = 16 → C = 1 → (Config.params.nMax : Int) < D → fails .resourceExhausted .capacity)

/-- Rule R182: a sample rate of 0 or with bit 31 set is reported by every command. -/
def Obligations.SampleRateNotPositive : Prop :=
  ∀ i s, (operandS s ≤ 0 ↔ (s.sampleRate = 0x00000000 ∨ s.sampleRate.getLsbD 31 = true)) ∧
    (operandS s ≤ 0 → ∃ t, exec i s = .next t ∧ t.status = ⟨false, .invalidConfiguration, .sampleRate⟩ ∧
      readReg t .status = 0x00000120 ∧ t.smp = s.smp ∧ t.out = s.out)

/-- Rule R192: the check reported is the first, in the order of the rule, of those the command makes that fails. -/
def Obligations.FirstFailingCheckIsReported : Prop :=
  ∀ i s c, validate Config.params i s = some c →
    c.madeBy i = true ∧ c.fails Config.params i s = true ∧
    (∀ before after, [Check.sampleRate, .frequency, .duration, .bitDepth, .channels, .only16Bits, .onlyOneChannel,
        .capacity] = before ++ c :: after →
      ∀ d ∈ before, d.madeBy i = true → d.fails Config.params i s = false) ∧
    exec i s = .next (raise (some i) c.result c.cause s)

/-! ### What the commands do -/

/-- Rule R126: GEN as one step. -/
def Obligations.GenWritesTheSamples : Prop :=
  ∀ s,
    (GenReady s → ∃ t, exec .gen s = .next t ∧
      (∀ i < (operandD s).toNat, Memory.read t.smp i = some (BitVec.ofInt 16 (sampleOf s i))) ∧
      (∀ k, (operandD s).toNat ≤ k → Memory.read t.smp k = Memory.read s.smp k) ∧
      t.smpLen = s.duration ∧ readReg t .status = 0x00000010 ∧ t.seq = .idle ∧ t.out = s.out ∧ t.outLen = s.outLen ∧
      t.sampleRate = s.sampleRate ∧ t.bitDepth = s.bitDepth ∧ t.freq = s.freq ∧ t.duration = s.duration ∧
      t.channels = s.channels) ∧
    (¬ GenReady s → ∃ t, exec .gen s = .next t ∧ t.smp = s.smp ∧ t.smpLen = 0 ∧ t.status.busy = false ∧
      t.status.result ≠ .ok)

/-- Rule R160: ENC as one step; `le v j` is byte j of v. A sample cell that nothing has written reads as the free value of
log entry 4 (DESIGN CHOICE, where rule R73 also allows a fault). -/
def Obligations.EncWritesTheFile : Prop :=
  ∀ s,
    let N := (operandL s).toNat; let S := (operandS s).toNat
    let le (v j : Nat) : Byte := BitVec.ofNat 8 (v / 256 ^ j)
    let header : List Byte :=
      [ 0x52, 0x49, 0x46, 0x46, le (36 + 2 * N) 0, le (36 + 2 * N) 1, le (36 + 2 * N) 2, le (36 + 2 * N) 3,
        0x57, 0x41, 0x56, 0x45, 0x66, 0x6D, 0x74, 0x20,
        0x10, 0x00, 0x00, 0x00, 0x01, 0x00, 0x01, 0x00, le S 0, le S 1, le S 2, le S 3,
        le (2 * S) 0, le (2 * S) 1, le (2 * S) 2, le (2 * S) 3,
        0x02, 0x00, 0x10, 0x00, 0x64, 0x61, 0x74, 0x61, le (2 * N) 0, le (2 * N) 1, le (2 * N) 2, le (2 * N) 3 ]
    (EncReady s → ∃ t, exec .enc s = .next t ∧
      (∀ a b, header[a]? = some b → Memory.read t.out a = some b) ∧
      (∀ k < N, Memory.read t.out (44 + 2 * k) = some (BitVec.ofNat 8 ((smpRead s k).toNat % 256)) ∧
        Memory.read t.out (45 + 2 * k) = some (BitVec.ofNat 8 ((smpRead s k).toNat / 256))) ∧
      (∀ a, 44 + 2 * N ≤ a → Memory.read t.out a = Memory.read s.out a) ∧
      t.outLen.toNat = 44 + 2 * N ∧ readReg t .status = 0x00000010 ∧ t.seq = .idle ∧ t.smp = s.smp ∧
      t.smpLen = s.smpLen ∧ t.sampleRate = s.sampleRate ∧ t.bitDepth = s.bitDepth ∧ t.freq = s.freq ∧
      t.duration = s.duration ∧ t.channels = s.channels) ∧
    (¬ EncReady s → ∃ t, exec .enc s = .next t ∧ t.out = s.out ∧ t.outLen = 0 ∧ t.status.busy = false ∧
      t.status.result ≠ .ok)

/-- Rule R173: SYN as one step: GEN's effect, then ENC's with `L = D`. -/
def Obligations.SynWritesSamplesAndFile : Prop :=
  ∀ s,
    let N := (operandD s).toNat
    (SynReady s → ∃ t, exec .syn s = .next t ∧
      (∀ i < N, Memory.read t.smp i = some (BitVec.ofInt 16 (sampleOf s i))) ∧
      (∀ k, N ≤ k → Memory.read t.smp k = Memory.read s.smp k) ∧ t.smpLen = s.duration ∧
      memRead t 0 4 = 0x46464952 ∧ memRead t 4 4 = 36 + 2 * N ∧ memRead t 8 4 = 0x45564157 ∧
      memRead t 12 4 = 0x20746D66 ∧ memRead t 16 4 = 16 ∧ memRead t 20 2 = 1 ∧ memRead t 22 2 = 1 ∧
      memRead t 24 4 = (operandS s).toNat ∧ memRead t 28 4 = 2 * (operandS s).toNat ∧ memRead t 32 2 = 2 ∧
      memRead t 34 2 = 16 ∧ memRead t 36 4 = 0x61746164 ∧ memRead t 40 4 = 2 * N ∧
      (∀ i < N, memRead t (44 + 2 * i) 2 = (BitVec.ofInt 16 (sampleOf s i)).toNat) ∧
      (∀ a, 44 + 2 * N ≤ a → Memory.read t.out a = Memory.read s.out a) ∧
      t.outLen.toNat = 44 + 2 * N ∧ readReg t .status = 0x00000010 ∧ t.seq = .idle ∧ t.sampleRate = s.sampleRate ∧
      t.bitDepth = s.bitDepth ∧ t.freq = s.freq ∧ t.duration = s.duration ∧ t.channels = s.channels) ∧
    (¬ SynReady s → ∃ t, exec .syn s = .next t ∧ t.smp = s.smp ∧ t.out = s.out ∧ t.smpLen = 0 ∧ t.outLen = 0 ∧
      t.status.busy = false ∧ t.status.result ≠ .ok)

/-- What GEN leaves unchanged: the configuration, OUT, OUT_LEN, WP, and every cell of SMP but those it stores to, `0` to
`D - 1`. That WP is kept is the model's choice (log entry 5). -/
def Obligations.GenFrame : Prop :=
  ∀ s t, exec .gen s = .next t →
    t.sampleRate = s.sampleRate ∧ t.bitDepth = s.bitDepth ∧ t.freq = s.freq ∧ t.duration = s.duration ∧
    t.channels = s.channels ∧ t.outLen = s.outLen ∧ t.wp = s.wp ∧ (∀ a, outRead t a = outRead s a) ∧
    (∀ k, ¬ (GenReady s ∧ k < (operandD s).toNat) → smpRead t k = smpRead s k) ∧
    t.inbox = s.inbox ∧ t.replies = s.replies ∧ t.granularity = s.granularity ∧ t.epoch = s.epoch ∧ t.draws = s.draws

/-- What ENC leaves unchanged: the configuration, SMP, SMP_LEN, MOD, STEP, ACC, and every byte of OUT but those it stores
to, `0` to `43 + 2 * L`. That MOD, STEP and ACC are kept is the model's choice (log entry 5). -/
def Obligations.EncFrame : Prop :=
  ∀ s t, exec .enc s = .next t →
    t.sampleRate = s.sampleRate ∧ t.bitDepth = s.bitDepth ∧ t.freq = s.freq ∧ t.duration = s.duration ∧
    t.channels = s.channels ∧ t.smpLen = s.smpLen ∧ t.modulus = s.modulus ∧ t.stepWord = s.stepWord ∧ t.acc = s.acc ∧
    (∀ k, smpRead t k = smpRead s k) ∧
    (∀ a, ¬ (EncReady s ∧ a < 44 + 2 * (operandL s).toNat) → outRead t a = outRead s a) ∧
    t.inbox = s.inbox ∧ t.replies = s.replies ∧ t.granularity = s.granularity ∧ t.epoch = s.epoch ∧ t.draws = s.draws

/-- What SYN leaves unchanged: the configuration, every cell of SMP but `0` to `D - 1`, every byte of OUT but `0` to
`43 + 2 * D`. -/
def Obligations.SynFrame : Prop :=
  ∀ s t, exec .syn s = .next t →
    t.sampleRate = s.sampleRate ∧ t.bitDepth = s.bitDepth ∧ t.freq = s.freq ∧ t.duration = s.duration ∧
    t.channels = s.channels ∧
    (∀ k, ¬ (SynReady s ∧ k < (operandD s).toNat) → smpRead t k = smpRead s k) ∧
    (∀ a, ¬ (SynReady s ∧ a < 44 + 2 * (operandD s).toNat) → outRead t a = outRead s a) ∧
    t.inbox = s.inbox ∧ t.replies = s.replies ∧ t.granularity = s.granularity ∧ t.epoch = s.epoch ∧ t.draws = s.draws

/-- Rule R164: ENC does not modify the samples, and issued again gives the same file. That a cell nothing has written
reads the same both times is log entry 4 (DESIGN CHOICE). -/
def Obligations.EncAgainGivesSameFile : Prop :=
  (∀ s t, exec .enc s = .next t → t.smp = s.smp ∧ t.smpLen = s.smpLen) ∧
  (∀ s, EncReady s → ∃ t u, exec .enc s = .next t ∧ exec .enc t = .next u ∧
    u.outLen = t.outLen ∧ u.status = t.status ∧ (∀ a, outRead u a = outRead t a))

/-- Rule R174: SYN and the pair GEN, ENC. -/
def Obligations.GenThenEncEqualsSyn : Prop :=
  (∀ s, SynReady s → ∃ t u v, exec .gen s = .next t ∧ exec .enc t = .next u ∧ exec .syn s = .next v ∧
    u.smp = v.smp ∧ u.smpLen = v.smpLen ∧ u.out = v.out ∧ u.outLen = v.outLen ∧ u.status = v.status) ∧
  (∀ s, ¬ GenReady s → ∃ t, exec .gen s = .next t ∧ t.smpLen = 0 ∧
    (0 < operandS s → operandB s = 16 → operandC s = 1 →
      ∃ u, exec .enc t = .next u ∧ u.status.result = .ok ∧ u.outLen = 44)) ∧
  (∀ s, ¬ SynReady s → ∃ v, exec .syn s = .next v ∧ v.smpLen = 0 ∧ v.outLen = 0 ∧ v.smp = s.smp ∧ v.out = s.out ∧
    v.status.result ≠ .ok)

/-! ### The sequencer -/

/-- Rules R31, R214: following the sequencer from the start of a command, micro-step by micro-step, BUSY all the way,
ends in the very state the command gives as one step. The number of micro-steps is that of the model's grouping (log
entry 7, DESIGN CHOICE). -/
def Obligations.MicroStepsRefineCommand : Prop :=
  ∀ i s,
    let N := (operandCount i s).toNat
    (Ready i s →
      runMicro Config.params (microStepsOf i N) (startCommand Config.params i s) = exec i s ∧
      ∀ k < microStepsOf i N, ∃ u, runMicro Config.params k (startCommand Config.params i s) = .next u ∧
        u.status = ⟨true, .none, .none⟩ ∧ u.seq ≠ .idle) ∧
    (¬ Ready i s → exec i s = .next (startCommand Config.params i s) ∧ (startCommand Config.params i s).seq = s.seq)

/-- The invariant holds after reset. -/
def Obligations.InvariantHoldsAtReset : Prop := BlockInv State.reset

/-- Every step keeps the invariant: canonical memories inside their spaces, a legal STATUS, BUSY exactly when SEQ is not
IDLE, the internal registers in their ranges (rules R25, R30 to R32). -/
def Obligations.InvariantKeptByEveryStep : Prop := ∀ s t, BlockInv s → step s = .next t → BlockInv t

/-- From a state of the invariant the sequencer never gets stuck: no step faults (rule R31: "There is no other
transition"). -/
def Obligations.InvariantExcludesFaults : Prop := ∀ s f, BlockInv s → step s ≠ .fault f

/-- Rules R195, R214: a command that executes ends, in success, within `2 * N_MAX + 16` micro-steps, also while ticks
wait. The number counts the model's grouping of micro-steps (log entry 7, DESIGN CHOICE). -/
def Obligations.EveryCommandEndsInSuccess : Prop :=
  ∀ s, BlockInv s → s.seq ≠ .idle → (∀ e ∈ s.inbox, e = .tick) →
    ∃ k ≤ 2 * Config.params.nMax + 16, ∃ t, Host.Core.run core k s = .next t ∧ t.seq = .idle ∧
      t.status = ⟨false, .ok, .none⟩

/-- Rule R31: the transitions of SEQ, and no other. -/
def Obligations.SequencerTransitions : Prop :=
  ∀ P s t, microStep P s = .next t →
    (s.seq = .idle ∧ t = s) ∨
    (s.seq = .genLoop ∧ t.seq = .genLoop ∧ s.idx.toNat < s.n.toNat) ∨
    (s.seq = .genLoop ∧ t.seq = .idle ∧ s.idx = s.n ∧ s.op = .gen) ∨
    (s.seq = .genLoop ∧ t.seq = .encHeader ∧ s.idx = s.n ∧ s.op = .syn) ∨
    (s.seq = .encHeader ∧ t.seq = .encHeader ∧ ∃ f ∈ headerFields s, s.wp.toNat = f.offset ∧
      t.wp.toNat = f.offset + f.size) ∨
    (s.seq = .encHeader ∧ t.seq = .encData ∧ s.wp.toNat = 44 ∧ t.idx = 0) ∨
    (s.seq = .encData ∧ t.seq = .encData ∧ s.idx.toNat < s.n.toNat) ∨
    (s.seq = .encData ∧ t.seq = .idle ∧ s.idx = s.n)

/-- Rule R201: an idle block with nothing to do keeps all its state. -/
def Obligations.IdleBlockKeepsItsState : Prop :=
  ∀ s, s.seq = .idle → s.inbox = [] → step s = .next s

/-! ### The phase accumulator -/

/-- Rules R112, R170: what the start of generation latches, in GEN and in SYN. -/
def Obligations.GeneratorStartLatches : Prop :=
  ∀ i s, i ≠ .enc → Ready i s →
    let t := startGenerator i s
    let S := (operandS s).toNat; let F := (operandF s).toNat
    startCommand Config.params i s = t ∧ t.op = i ∧ t.seq = .genLoop ∧ t.status = ⟨true, .none, .none⟩ ∧
    (1 ≤ S ∧ S ≤ 2 ^ 31 - 1) ∧ (1 ≤ F ∧ F ≤ 2 ^ 31 - 1) ∧ (operandD s).toNat ≤ Config.params.nMax ∧
    t.n.toNat = (operandD s).toNat ∧ t.modulus.toNat = S * 2 ^ 16 ∧
    2 ^ 16 ≤ t.modulus.toNat ∧ t.modulus.toNat < 2 ^ 47 ∧ 2 ^ 16 ∣ t.modulus.toNat ∧
    t.stepWord.toNat = F % (S * 2 ^ 16) ∧ t.stepWord.toNat < t.modulus.toNat ∧
    (F < S * 2 ^ 16 → t.stepWord.toNat = F) ∧ t.acc = 0 ∧ t.idx = 0

/-- Rule R113: the accumulator step is one conditional subtraction, exact. -/
def Obligations.AccumulatorStepIsExact : Prop :=
  ∀ acc stepWord modulus : BitVec 47, acc.toNat < modulus.toNat → stepWord.toNat < modulus.toNat →
    let t := acc.toNat + stepWord.toNat
    t < 2 * modulus.toNat ∧ t < 2 ^ 48 ∧
    (nextAcc acc stepWord modulus).toNat = t % modulus.toNat ∧
    (nextAcc acc stepWord modulus).toNat = (if modulus.toNat ≤ t then t - modulus.toNat else t)

/-- Rule R114: when the sample with index k is computed, `ACC = (F * k) mod MOD`, in GEN and in SYN. -/
def Obligations.AccumulatorClosedForm : Prop :=
  ∀ i s k, i ≠ .enc → Ready i s → k ≤ (operandD s).toNat →
    let t := generateLoop Config.params k (startGenerator i s)
    t.idx.toNat = k ∧ t.modulus.toNat = (operandS s).toNat * 2 ^ 16 ∧
    t.acc.toNat = (operandF s).toNat * k % t.modulus.toNat

/-! ### The sine unit and the quantizer -/

/-- Rule R119: what the accuracy of the sine unit gives. -/
def Obligations.SineUnitBounds : Prop :=
  ∀ acc mod, Sine.Domain acc mod →
    |Config.params.sine acc mod| ≤ 2 ^ 30 + 1 ∧ |Config.params.sine 0 mod| ≤ 1 ∧
    |Config.params.sine (mod / 2) mod| ≤ 1 ∧ 2 ^ 30 - 1 ≤ Config.params.sine (mod / 4) mod ∧
    Config.params.sine (3 * mod / 4) mod ≤ -(2 ^ 30 - 1)

/-- Rule R121: the two rounding modes give the same function of a 32-bit amplitude; the four ties. -/
def Obligations.RoundingModesAgree : Prop :=
  ∀ a : Int, -2 ^ 31 ≤ a → a < 2 ^ 31 →
    clamp (roundHalfEven (a * 32767)) (-32768) 32767 = quant a ∧
    (a * 32767 % 2 ^ 30 = 2 ^ 29 ↔ a = -3 * 2 ^ 29 ∨ a = -2 ^ 29 ∨ a = 2 ^ 29 ∨ a = 3 * 2 ^ 29)

/-- Rule R122: where the quantizer saturates. -/
def Obligations.QuantizerSaturation : Prop :=
  (∀ a : Int, -32768 ≤ quant a ∧ quant a ≤ 32767 ∧
    (32768 ≤ roundHalfAway (a * 32767) ↔ 2 ^ 30 + 16385 ≤ a) ∧
    (roundHalfAway (a * 32767) ≤ -32769 ↔ a ≤ -(2 ^ 30 + 49154)) ∧
    (32768 ≤ roundHalfAway (a * 32767) → quant a = 32767) ∧
    (roundHalfAway (a * 32767) ≤ -32769 → quant a = -32768)) ∧
  roundHalfAway (2 ^ 30 * 32767) = 32767

/-- Rule R123: the properties of QUANT. -/
def Obligations.QuantizerProperties : Prop :=
  (∀ a b : Int, a ≤ b → quant a ≤ quant b) ∧
  (∀ a : Int, |a| ≤ 2 ^ 30 + 16384 → quant (-a) = -quant a) ∧
  (∀ a : Int, 2 ^ 30 + 16385 ≤ a → quant a = 32767) ∧
  (∀ a : Int, a ≤ -(2 ^ 30 + 16385) → quant a = -32768) ∧
  (∀ a : Int, quant a = 0 ↔ |a| ≤ 16384) ∧ quant 16385 = 1 ∧
  quant (2 ^ 30) = 32767 ∧ quant (-2 ^ 30) = -32767 ∧ quant (2 ^ 29) = 16384 ∧ quant (-2 ^ 29) = -16384 ∧
  (∀ a : Int, -32768 ≤ roundHalfAway (a * 32767) → roundHalfAway (a * 32767) ≤ 32767 →
    |(quant a : ℝ) - a * 32767 / 2 ^ 30| ≤ 1 / 2)

/-! ### The samples GEN generates, for every conforming sine unit -/

/-- Rule R127 e: every generated sample is within `1/2 + 32767 / 2^30` of `32767 * sin(2 * pi * frequency * i /
sampleRate)`. -/
def Obligations.GeneratedSamplesAreAccurate : Prop :=
  ∀ s, GenReady s → ∃ t, exec .gen s = .next t ∧ ∀ i < (operandD s).toNat,
    |((smpRead t i).toInt : ℝ) - idealSample s i| ≤ 1 / 2 + 32767 / 2 ^ 30

/-- Rule R127 b, c, d: the range of the samples, the length, the first sample. -/
def Obligations.GeneratedSamplesRange : Prop :=
  ∀ s, GenReady s → ∃ t, exec .gen s = .next t ∧ (t.smpLen.toInt = operandD s) ∧
    (∀ i < (operandD s).toNat, -32767 ≤ (smpRead t i).toInt ∧ (smpRead t i).toInt ≤ 32767) ∧
    (0 < operandD s → smpRead t 0 = 0)

/-- Rule R127 f: the sequence has period `MOD / gcd(F, MOD)`. -/
def Obligations.GeneratedSamplesArePeriodic : Prop :=
  ∀ s, GenReady s → ∃ t, exec .gen s = .next t ∧
    let period := modulusOf s / Nat.gcd (operandF s).toNat (modulusOf s)
    0 < period ∧ (∀ i, phaseOf s (i + period) = phaseOf s i) ∧
    ∀ i, i + period < (operandD s).toNat → smpRead t (i + period) = smpRead t i

/-- Rule R127 a: the same S, F, D give the same cells, whatever else the states hold. -/
def Obligations.GenerationIsDeterministic : Prop :=
  ∀ s s', GenReady s → s'.sampleRate = s.sampleRate → s'.freq = s.freq → s'.duration = s.duration →
    s'.bitDepth = s.bitDepth →
    ∃ t t', exec .gen s = .next t ∧ exec .gen s' = .next t' ∧ t'.smpLen = t.smpLen ∧ t'.status = t.status ∧
      ∀ i < (operandD s).toNat, smpRead t' i = smpRead t i

/-- Rule R128 c, d, e: a frequency that is a multiple of the sample rate, half of it, or a quarter of it. -/
def Obligations.CornerFrequencies : Prop :=
  ∀ s, GenReady s → ∃ t, exec .gen s = .next t ∧ ∀ i < (operandD s).toNat,
    ((modulusOf s ∣ (operandF s).toNat → smpRead t i = 0) ∧
    (2 * (operandF s).toNat = modulusOf s → smpRead t i = 0) ∧
    (4 * (operandF s).toNat = modulusOf s → (smpRead t i).toInt =
      if i % 4 = 1 then 32767 else if i % 4 = 3 then -32767 else 0))

/-- Rule R129: a sample whose ideal value is further than `32767 / 2^30` from every `k + 1/2` is the nearest integer. -/
def Obligations.SamplesAwayFromTiesAreFixed : Prop :=
  ∀ s, GenReady s → ∃ t, exec .gen s = .next t ∧ ∀ i < (operandD s).toNat,
    (∀ k : Int, 32767 / 2 ^ 30 < |idealSample s i - (k + 1 / 2)|) →
    |((smpRead t i).toInt : ℝ) - idealSample s i| < 1 / 2

/-! ### The file -/

/-- Rule R161: the properties of a successful ENC: header size, round trip, the empty sequence, determinism. A sample cell
that nothing has written reads as the free value of log entry 4 (DESIGN CHOICE, where rule R73 also allows a fault). -/
def Obligations.EncodedFileRoundTrip : Prop :=
  (∀ s, EncReady s → ∃ t, exec .enc s = .next t ∧
    (t.outLen.toNat : Int) = 44 + 2 * operandL s ∧
    (memRead t 24 4 : Int) = operandS s ∧ (memRead t 34 2 : Int) = operandB s ∧ memRead t 34 2 = 16 ∧
    (memRead t 22 2 : Int) = operandC s ∧ memRead t 22 2 = 1 ∧ (memRead t 40 4 : Int) = 2 * operandL s ∧
    memRead t 4 4 = t.outLen.toNat - 8 ∧ (memRead t 28 4 : Int) = 2 * operandS s ∧ memRead t 32 2 = 2 ∧
    memRead t 16 4 = 16 ∧ memRead t 20 2 = 1 ∧
    (∀ k < (operandL s).toNat, (BitVec.ofNat 16 (memRead t (44 + 2 * k) 2)).toInt = (smpRead s k).toInt) ∧
    (operandL s = 0 → memRead t 4 4 = 36 ∧ memRead t 40 4 = 0 ∧ t.outLen = 44 ∧ t.status.result = .ok)) ∧
  (∀ s s', EncReady s → s'.sampleRate = s.sampleRate → s'.bitDepth = s.bitDepth → s'.channels = s.channels →
    s'.smpLen = s.smpLen → (∀ k < (operandL s).toNat, smpRead s' k = smpRead s k) →
    ∃ t t', exec .enc s = .next t ∧ exec .enc s' = .next t' ∧ t'.outLen = t.outLen ∧
      ∀ a < t.outLen.toNat, outRead t' a = outRead t a)

/-- Rule R143: no size of the encoder wraps. -/
def Obligations.EncoderSizesDoNotWrap : Prop :=
  ∀ s, EncReady s →
    let t := startEncoder s
    t.n.toNat = (operandL s).toNat ∧ blockAlign t = 2 ∧ byteRate t = 2 * (operandS s).toNat ∧
    dataSize t = 2 * (operandL s).toNat ∧ riffChunkSize t = 36 + 2 * (operandL s).toNat ∧
    byteRate t ≤ 2 ^ 32 - 2 ∧ dataSize t ≤ 2 ^ 32 - 46 ∧ riffChunkSize t ≤ 2 ^ 32 - 10 ∧
    44 + dataSize t ≤ 2 ^ 32 - 2

/-- Rules R68, R72: where the header fields stand, their sizes, and that each is naturally aligned. -/
def Obligations.HeaderLayoutIsAligned : Prop :=
  ∀ s, (headerFields s).map (fun f => (f.offset, f.size)) =
      [(0, 4), (4, 4), (8, 4), (12, 4), (16, 4), (20, 2), (22, 2), (24, 4), (28, 4), (32, 2), (34, 2), (36, 4), (40, 4)] ∧
    ∀ f ∈ headerFields s, f.size ∣ f.offset

/-- Rules R66, R67: what `MemWrite` writes `MemRead` reads back, and it writes no other byte. -/
def Obligations.MemReadAfterMemWrite : Prop :=
  ∀ s addr n v, v < 256 ^ n →
    memRead (memWrite s addr n v) addr n = v ∧
    (∀ j < n, outRead (memWrite s addr n v) (addr + j) = BitVec.ofNat 8 (v / 2 ^ (8 * j) % 256)) ∧
    (∀ a, ¬ (addr ≤ a ∧ a < addr + n) → outRead (memWrite s addr n v) a = outRead s a)

/-! ### The host -/

/-- Rule R29: a configuration register and SMP_LEN store any word written and return it; a write changes nothing
else. -/
def Obligations.RegisterWriteThenRead : Prop :=
  ∀ s rest r w, r ∈ [Reg.sampleRate, .bitDepth, .freq, .duration, .channels, .smpLen] → s.status.busy = false →
    s.inbox = .host (.regWrite r.offset w) :: .host (.regRead r.offset) :: rest →
    ∃ t u, step s = .next t ∧ step t = .next u ∧ u.replies = .word w :: s.replies ∧ readReg t r = w ∧
      (∀ q, q ≠ r → readReg t q = readReg s q) ∧ t.smp = s.smp ∧ t.out = s.out ∧ t.seq = s.seq ∧
      u = { t with inbox := rest, replies := .word w :: s.replies }

/-- Rule R28: writes to the read-only registers change nothing, CMD reads 0, accesses REG does not have are refused. -/
def Obligations.ReadOnlyAndUnlistedRegisters : Prop :=
  ∀ s rest,
    (∀ w, NextIs s (.regWrite 0x04 w) rest → step s = .next { s with inbox := rest }) ∧
    (∀ w, NextIs s (.regWrite 0x20 w) rest → step s = .next { s with inbox := rest }) ∧
    (NextIs s (.regRead 0x00) rest → step s = .next { s with inbox := rest, replies := .word 0 :: s.replies }) ∧
    (∀ off w, off ∉ [0x00, 0x04, 0x08, 0x0C, 0x10, 0x14, 0x18, 0x1C, 0x20] →
      (NextIs s (.regWrite off w) rest ∨ NextIs s (.regRead off) rest) →
      step s = .refused .undefinedTransaction) ∧
    (∀ a : Access, s.inbox = .access a :: rest → a.space = .reg → a.bits ≠ 32 → step s = .refused .undefinedTransaction)

/-- Rules R92, R93: the host's accesses to SMP and OUT while BUSY = 0. A cell that nothing has written reads as the free
value of log entry 4 (DESIGN CHOICE, where rule R73 also allows a fault). -/
def Obligations.HostBufferAccesses : Prop :=
  ∀ s rest, s.status.busy = false →
    (∀ k w, k < Config.params.nMax → NextIs s (.smpWrite k w) rest →
      ∃ t, step s = .next t ∧ smpRead t k = w ∧ (∀ j, j ≠ k → smpRead t j = smpRead s j) ∧
        t = { s with inbox := rest, smp := t.smp }) ∧
    (∀ k, k < Config.params.nMax → NextIs s (.smpRead k) rest →
      step s = .next { s with inbox := rest, replies := .sample (smpRead s k) :: s.replies }) ∧
    (∀ a, a < Config.params.outCap → NextIs s (.outRead a) rest →
      step s = .next { s with inbox := rest, replies := .byte (outRead s a) :: s.replies })

/-- Rule R215: host transactions while BUSY = 1. That SMP_LEN and OUT_LEN may read old or new is a free choice between
the value before the command and the one after it (log entry 6). -/
def Obligations.HostTransactionsWhileBusy : Prop :=
  ∀ s rest, BlockInv s → s.status.busy = true →
    (NextIs s (.regRead 0x04) rest →
      step s = .next { s with inbox := rest, replies := .word 0x00000001 :: s.replies }) ∧
    (∀ off w, Reg.ofOffset off ≠ none → NextIs s (.regWrite off w) rest → step s = .next { s with inbox := rest }) ∧
    (∀ off r, Reg.ofOffset off = some r → r ≠ .smpLen → r ≠ .outLen → NextIs s (.regRead off) rest →
      step s = .next { s with inbox := rest, replies := .word (readReg s r) :: s.replies }) ∧
    (∀ off r, Reg.ofOffset off = some r → r = .smpLen ∨ r = .outLen → NextIs s (.regRead off) rest →
      ∃ w, (w = lengthBefore s r ∨ w = lengthAfter s r) ∧
        step s = .next { s with inbox := rest, replies := .word w :: s.replies, draws := s.draws + 1 }) ∧
    (∀ k w, k < Config.params.nMax → NextIs s (.smpWrite k w) rest → step s = .refused .bufferAccessWhileBusy) ∧
    (∀ k, k < Config.params.nMax → NextIs s (.smpRead k) rest → step s = .refused .bufferAccessWhileBusy) ∧
    (∀ a, a < Config.params.outCap → NextIs s (.outRead a) rest → step s = .refused .bufferAccessWhileBusy)

/-- Rule R69: an access of any other shape, or outside its space, is no transaction of the block and is refused; so is a
transaction of the right shape at an offset, index or address outside its space (rule R63). -/
def Obligations.UndefinedAccessesAreRefused : Prop :=
  (∀ s rest (a : Access), s.inbox = .access a :: rest →
    ((a.space = .reg ∧ (a.bits ≠ 32 ∨ a.cell % 4 ≠ 0 ∨ 0x20 < a.cell)) ∨
      (a.space = .smp ∧ (a.bits ≠ 16 ∨ Config.params.nMax ≤ a.cell)) ∨
      (a.space = .out ∧ (a.bits ≠ 8 ∨ a.isWrite = true ∨ Config.params.outCap ≤ a.cell))) →
    step s = .refused .undefinedTransaction) ∧
  (∀ s rest,
    (∀ off w, off % 4 ≠ 0 ∨ 0x20 < off → NextIs s (.regWrite off w) rest ∨ NextIs s (.regRead off) rest →
      step s = .refused .undefinedTransaction) ∧
    (∀ k w, Config.params.nMax ≤ k → NextIs s (.smpWrite k w) rest ∨ NextIs s (.smpRead k) rest →
      step s = .refused .undefinedTransaction) ∧
    (∀ a, Config.params.outCap ≤ a → NextIs s (.outRead a) rest → step s = .refused .undefinedTransaction))

/-- Rules R91, R71: while BUSY = 0 a read of any register returns its word; no read has a side effect. What the host has
read (`replies`) and the count of free choices (`draws`, log entry 6) are the model's own. -/
def Obligations.ReadsChangeNothing : Prop :=
  (∀ s rest (r : Reg), NextIs s (.regRead r.offset) rest → s.status.busy = false →
    step s = .next { s with inbox := rest, replies := .word (readReg s r) :: s.replies }) ∧
  (∀ s t rest x, NextIs s x rest → (∃ p, x = .regRead p ∨ x = .smpRead p ∨ x = .outRead p) → step s = .next t →
    ∃ v, t = { s with inbox := rest, replies := v :: s.replies, draws := t.draws })

/-! ### Rules about the whole machine -/

/-- Rule R21: "The block never writes a configuration register": a step that changes one is a host write to that register
while BUSY = 0, or a reset. -/
def Obligations.OnlyTheHostWritesConfiguration : Prop :=
  ∀ s t r, r ∈ [Reg.sampleRate, .bitDepth, .freq, .duration, .channels] → step s = .next t → readReg t r ≠ readReg s r →
    (∃ w rest, NextIs s (.regWrite r.offset w) rest ∧ s.status.busy = false ∧ readReg t r = w) ∨
    (∃ rest, s.inbox = .reset :: rest)

/-- Rules R79, R216: SMP and SMP_LEN change only by a GEN or SYN command, a host write to SMP or SMP_LEN, or reset. -/
def Obligations.SamplesStayUntilReplaced : Prop :=
  ∀ s t, step s = .next t → (t.smp ≠ s.smp ∨ t.smpLen ≠ s.smpLen) →
    (∃ w rest, NextIs s (.regWrite 0x00 w) rest ∧ s.status.busy = false ∧ (decode w = .ok .gen ∨ decode w = .ok .syn)) ∨
    (∃ k w rest, NextIs s (.smpWrite k w) rest ∧ s.status.busy = false) ∨
    (∃ w rest, NextIs s (.regWrite 0x1C w) rest ∧ s.status.busy = false) ∨
    (∃ rest, s.inbox = .reset :: rest) ∨
    (s.seq = .genLoop ∧ (s.inbox = [] ∨ ∃ rest, s.inbox = .tick :: rest))

/-- Rules R79, R216: OUT and OUT_LEN change only by an ENC or SYN command or reset. -/
def Obligations.FileStaysUntilReplaced : Prop :=
  ∀ s t, step s = .next t → (t.out ≠ s.out ∨ t.outLen ≠ s.outLen) →
    (∃ w rest, NextIs s (.regWrite 0x00 w) rest ∧ s.status.busy = false ∧ (decode w = .ok .enc ∨ decode w = .ok .syn)) ∨
    (∃ rest, s.inbox = .reset :: rest) ∨
    ((s.seq = .encHeader ∨ s.seq = .encData) ∧ (s.inbox = [] ∨ ∃ rest, s.inbox = .tick :: rest))

/-- Rule R33: nothing in the block reads RESULT or CAUSE, and every command overwrites them. -/
def Obligations.ResultAndCauseAreNeverRead : Prop :=
  ∀ i s x, ∃ t, exec i s = .next t ∧ exec i { s with status := x } = .next t ∧ t.status.busy = false ∧
    t.status.result ≠ .none

/-- Rule R36: what OP, N, MOD, STEP, ACC, IDX, WP and SEQ held before a command changes nothing the host can see after
it. -/
def Obligations.InternalRegistersAreDead : Prop :=
  ∀ i s q o n m p a x w,
    ∃ t t', exec i s = .next t ∧
      exec i { s with seq := q, op := o, n := n, modulus := m, stepWord := p, acc := a, idx := x, wp := w } = .next t' ∧
      (∀ r, readReg t' r = readReg t r) ∧ t'.smp = t.smp ∧ t'.out = t.out

/-- Rule R24: the layout of the word STATUS reads as. -/
def Obligations.StatusWordLayout : Prop :=
  ∀ t : Status,
    t.word.toNat = t.busy.toNat + 16 * t.result.code + 256 * t.cause.code ∧
    t.word.getLsbD 0 = t.busy ∧ (t.word.extractLsb' 1 3 : BitVec 3) = 0 ∧
    (t.word.extractLsb' 4 3 : BitVec 3).toNat = t.result.code ∧ t.word.getLsbD 7 = false ∧
    (t.word.extractLsb' 8 4 : BitVec 4).toNat = t.cause.code ∧ (t.word.extractLsb' 12 20 : BitVec 20) = 0 ∧
    t.result.code ≤ 5 ∧ t.cause.code ≤ 7

/-- Rule R181: the STATUS words that can be read. -/
def Obligations.OnlyLegalStatusWordsAreRead : Prop :=
  ∀ s, BlockInv s → readReg s .status ∈
    [0x000#32, 0x010#32, 0x120#32, 0x220#32, 0x320#32, 0x420#32, 0x520#32, 0x630#32, 0x440#32, 0x540#32, 0x750#32,
      0x001#32]

/-- Rule R73: a cell of SMP or OUT that nothing has written since reset reads as a free value, one for each reset and
cell, that no write of another cell changes (log entry 4). -/
def Obligations.UnwrittenCellsReadFreeValues : Prop :=
  ∀ s k, (Memory.read s.smp k = none → smpRead s k = Config.powerOnSample s.epoch k ∧
      ∀ j w, j ≠ k → smpRead (smpWrite s j w) k = Config.powerOnSample s.epoch k) ∧
    (Memory.read s.out k = none → outRead s k = Config.powerOnByte s.epoch k)

/-- Rules R26, R27, R215: what `lengthBefore` and `lengthAfter`, the two words a read of SMP_LEN or OUT_LEN chooses from
while BUSY = 1 (log entry 6), are: what the register held when the command started and will hold when it has ended. -/
def Obligations.LengthsReadWhileBusy : Prop :=
  (∀ i s r, Ready i s → r ∈ [Reg.smpLen, .outLen] →
    lengthBefore (startCommand Config.params i s) r = readReg s r ∧
    ∃ t, exec i s = .next t ∧ lengthAfter (startCommand Config.params i s) r = readReg t r) ∧
  (∀ s u r, microStep Config.params s = .next u → u.seq ≠ .idle → r ∈ [Reg.smpLen, .outLen] →
    lengthBefore u r = lengthBefore s r ∧ lengthAfter u r = lengthAfter s r) ∧
  (∀ s, BlockInv s → s.status.busy = true →
    (∃ k t, runMicro Config.params k s = .next t ∧ t.seq = .idle) ∧
    ∀ k t r, runMicro Config.params k s = .next t → t.seq = .idle → r ∈ [Reg.smpLen, .outLen] →
      readReg t r = lengthAfter s r)

/-- Rule R118: `SINE_REF` is the nearest integer to the exact amplitude, no tie occurs, it meets S1 and S2, its exact
values and its symmetries. -/
def Obligations.SineReferenceUnit : Prop :=
  ∀ acc mod, Sine.Domain acc mod →
    (∀ v : Int, |(Sine.reference acc mod : ℝ) - Sine.exact acc mod| ≤ |(v : ℝ) - Sine.exact acc mod|) ∧
    (∀ k : Int, Sine.exact acc mod ≠ k + 1 / 2) ∧
    (∀ q : ℚ, Real.sin (2 * Real.pi * acc / mod) = q → q ∈ [0, 1 / 2, -1 / 2, 1, -1]) ∧
    -2 ^ 31 ≤ Sine.reference acc mod ∧ Sine.reference acc mod < 2 ^ 31 ∧
    |(Sine.reference acc mod : ℝ) - Sine.exact acc mod| ≤ 1 / 2 ∧
    Sine.reference 0 mod = 0 ∧ Sine.reference (mod / 4) mod = 2 ^ 30 ∧ Sine.reference (mod / 2) mod = 0 ∧
    Sine.reference (3 * mod / 4) mod = -2 ^ 30 ∧ (12 ∣ mod → Sine.reference (mod / 12) mod = 2 ^ 29) ∧
    (0 < acc → Sine.reference (mod - acc) mod = -Sine.reference acc mod) ∧
    (acc < mod / 2 → Sine.reference (acc + mod / 2) mod = -Sine.reference acc mod) ∧
    (acc ≤ mod / 2 → Sine.reference (mod / 2 - acc) mod = Sine.reference acc mod) ∧
    (∀ c : Nat, 1 ≤ c → c * mod < 2 ^ 47 → Sine.reference (c * acc) (c * mod) = Sine.reference acc mod)
end

