-- ==== Sys2Proof/Laws/Memory.lean ====
section
/-! SUPPORT. The laws of the sparse memories: read after write, the canonical form is kept, and a canonical memory is
determined by what it reads. -/

namespace Sys2Proof.Machine

variable {α : Type}

@[simp] theorem Memory.read_write_same (m : Memory α) (a : Nat) (v : α) :
    Memory.read (Memory.write m a v) a = some v := by
  induction m with
  | nil => simp [Memory.write, Memory.read]
  | cons e m ih =>
    obtain ⟨b, w⟩ := e
    by_cases h1 : a < b
    · simp [Memory.write, Memory.read, h1]
    · by_cases h2 : a = b <;> simp [Memory.write, Memory.read, h1, h2, ih]

@[simp] theorem Memory.read_write_ne (m : Memory α) {a c : Nat} (v : α) (h : c ≠ a) :
    Memory.read (Memory.write m a v) c = Memory.read m c := by
  induction m with
  | nil => simp [Memory.write, Memory.read, h]
  | cons e m ih =>
    obtain ⟨b, w⟩ := e
    by_cases h1 : a < b
    · simp [Memory.write, Memory.read, h1, h]
    · by_cases h2 : a = b
      · subst h2; simp [Memory.write, Memory.read, h]
      · simp [Memory.write, Memory.read, h1, h2, ih]

theorem Memory.read_write (m : Memory α) (a c : Nat) (v : α) :
    Memory.read (Memory.write m a v) c = if c = a then some v else Memory.read m c := by
  by_cases h : c = a
  · subst h; simp
  · simp [h]

/-- A write adds no address but its own. -/
theorem Memory.address_of_mem_write {m : Memory α} {a : Nat} {v : α} {e : Nat × α} (h : e ∈ Memory.write m a v) :
    e.1 = a ∨ e ∈ m := by
  induction m with
  | nil => simp only [Memory.write, List.mem_singleton] at h; simp [h]
  | cons b m ih =>
    simp only [Memory.write] at h
    split_ifs at h <;> simp only [List.mem_cons] at h ⊢
    · rcases h with h | h <;> simp_all
    · rcases h with h | h <;> simp_all
    · rcases h with h | h
      · simp [h]
      · rcases ih h with h | h <;> simp [h]

theorem Memory.above_write {lo a : Nat} {m : Memory α} (v : α) (ha : lo < a) (h : Memory.above lo m = true) :
    Memory.above lo (Memory.write m a v) = true := by
  simp only [Memory.above, List.all_eq_true, decide_eq_true_eq] at h ⊢
  exact fun e he => (Memory.address_of_mem_write he).elim (fun hx => hx ▸ ha) (h e)

theorem Memory.above_mono {lo hi : Nat} {m : Memory α} (hl : lo ≤ hi) (h : Memory.above hi m = true) :
    Memory.above lo m = true := by
  simp only [Memory.above, List.all_eq_true, decide_eq_true_eq] at h ⊢
  exact fun e he => lt_of_le_of_lt hl (h e he)

/-- A write keeps the canonical form. -/
theorem Memory.wf_write {m : Memory α} (a : Nat) (v : α) (h : Memory.wf m = true) :
    Memory.wf (Memory.write m a v) = true := by
  induction m with
  | nil => simp [Memory.write, Memory.wf, Memory.above]
  | cons e m ih =>
    obtain ⟨b, w⟩ := e
    simp only [Memory.wf, Bool.and_eq_true] at h
    simp only [Memory.write]
    split_ifs with h1 h2
    · have ha := Memory.above_mono h1.le h.1
      simp only [Memory.above, List.all_cons, Bool.and_eq_true, decide_eq_true_eq, Memory.wf] at ha ⊢
      exact ⟨⟨h1, ha⟩, h⟩
    · subst h2; simp [Memory.wf, h.1, h.2]
    · simp [Memory.wf, Memory.above_write v (by omega : b < a) h.1, ih h.2]

theorem Memory.below_write {m : Memory α} {bound a : Nat} (v : α) (ha : a < bound)
    (h : Memory.below bound m = true) : Memory.below bound (Memory.write m a v) = true := by
  simp only [Memory.below, List.all_eq_true, decide_eq_true_eq] at h ⊢
  exact fun e he => (Memory.address_of_mem_write he).elim (fun hx => hx ▸ ha) (h e)

theorem Memory.read_none_of_above {lo a : Nat} {m : Memory α} (h : Memory.above lo m = true) (ha : a ≤ lo) :
    Memory.read m a = none := by
  induction m with
  | nil => rfl
  | cons e m ih =>
    obtain ⟨b, w⟩ := e
    simp only [Memory.above, List.all_cons, Bool.and_eq_true, decide_eq_true_eq] at h ih
    have : a ≠ b := by omega
    simp [Memory.read, this, ih h.2]

/-- Two canonical memories that read the same are equal. -/
theorem Memory.ext_of_wf {m m' : Memory α} (h : Memory.wf m = true) (h' : Memory.wf m' = true)
    (he : ∀ a, Memory.read m a = Memory.read m' a) : m = m' := by
  induction m generalizing m' with
  | nil =>
    cases m' with
    | nil => rfl
    | cons e m' => have := he e.1; simp [Memory.read] at this
  | cons e m ih =>
    obtain ⟨b, w⟩ := e
    cases m' with
    | nil => have := he b; simp [Memory.read] at this
    | cons e' m' =>
      obtain ⟨b', w'⟩ := e'
      simp only [Memory.wf, Bool.and_eq_true] at h h'
      have hbb : b = b' := by
        rcases Nat.lt_trichotomy b b' with hlt | heq | hlt
        · have h1 := he b
          have : b ≠ b' := by omega
          simp [Memory.read, this, Memory.read_none_of_above h'.1 hlt.le] at h1
        · exact heq
        · have h1 := he b'
          have : b' ≠ b := by omega
          simp [Memory.read, this, Memory.read_none_of_above h.1 hlt.le] at h1
      subst hbb
      have hw : w = w' := by simpa [Memory.read] using he b
      subst hw
      congr 1
      refine ih h.2 h'.2 fun a => ?_
      by_cases hab : a = b
      · subst hab
        rw [Memory.read_none_of_above h.1 le_rfl, Memory.read_none_of_above h'.1 le_rfl]
      · simpa [Memory.read, hab] using he a

/-- Two writes at different addresses of a canonical memory commute. -/
theorem Memory.write_comm {m : Memory α} (h : Memory.wf m = true) {a b : Nat} (hab : a ≠ b) (v w : α) :
    Memory.write (Memory.write m a v) b w = Memory.write (Memory.write m b w) a v := by
  refine Memory.ext_of_wf (Memory.wf_write _ _ (Memory.wf_write _ _ h)) (Memory.wf_write _ _ (Memory.wf_write _ _ h))
    fun c => ?_
  rw [Memory.read_write, Memory.read_write, Memory.read_write, Memory.read_write]
  split_ifs <;> simp_all

end Sys2Proof.Machine
end

