-- ==== Sys2Proof/Laws/State.lean ====
section
/-! SUPPORT. For each update of the state by a named operation, what every field becomes: one lemma a field, true by
definition. Later proofs cite these and do not unfold the operations. -/

namespace Sys2Proof.Machine

section
variable (s : State) (k : Nat) (w : Half)

@[simp] theorem smpWrite_status : (smpWrite s k w).status = s.status := rfl
@[simp] theorem smpWrite_sampleRate : (smpWrite s k w).sampleRate = s.sampleRate := rfl
@[simp] theorem smpWrite_bitDepth : (smpWrite s k w).bitDepth = s.bitDepth := rfl
@[simp] theorem smpWrite_freq : (smpWrite s k w).freq = s.freq := rfl
@[simp] theorem smpWrite_duration : (smpWrite s k w).duration = s.duration := rfl
@[simp] theorem smpWrite_channels : (smpWrite s k w).channels = s.channels := rfl
@[simp] theorem smpWrite_smpLen : (smpWrite s k w).smpLen = s.smpLen := rfl
@[simp] theorem smpWrite_outLen : (smpWrite s k w).outLen = s.outLen := rfl
@[simp] theorem smpWrite_seq : (smpWrite s k w).seq = s.seq := rfl
@[simp] theorem smpWrite_op : (smpWrite s k w).op = s.op := rfl
@[simp] theorem smpWrite_n : (smpWrite s k w).n = s.n := rfl
@[simp] theorem smpWrite_modulus : (smpWrite s k w).modulus = s.modulus := rfl
@[simp] theorem smpWrite_stepWord : (smpWrite s k w).stepWord = s.stepWord := rfl
@[simp] theorem smpWrite_acc : (smpWrite s k w).acc = s.acc := rfl
@[simp] theorem smpWrite_idx : (smpWrite s k w).idx = s.idx := rfl
@[simp] theorem smpWrite_wp : (smpWrite s k w).wp = s.wp := rfl
@[simp] theorem smpWrite_smp : (smpWrite s k w).smp = Memory.write s.smp k w := rfl
@[simp] theorem smpWrite_out : (smpWrite s k w).out = s.out := rfl
@[simp] theorem smpWrite_inbox : (smpWrite s k w).inbox = s.inbox := rfl
@[simp] theorem smpWrite_replies : (smpWrite s k w).replies = s.replies := rfl
@[simp] theorem smpWrite_granularity : (smpWrite s k w).granularity = s.granularity := rfl
@[simp] theorem smpWrite_epoch : (smpWrite s k w).epoch = s.epoch := rfl
@[simp] theorem smpWrite_draws : (smpWrite s k w).draws = s.draws := rfl
@[simp] theorem smpWrite_smpLenBefore : (smpWrite s k w).smpLenBefore = s.smpLenBefore := rfl

end

section
variable (s : State) (a : Nat) (b : Byte)

@[simp] theorem outWrite_status : (outWrite s a b).status = s.status := rfl
@[simp] theorem outWrite_sampleRate : (outWrite s a b).sampleRate = s.sampleRate := rfl
@[simp] theorem outWrite_bitDepth : (outWrite s a b).bitDepth = s.bitDepth := rfl
@[simp] theorem outWrite_freq : (outWrite s a b).freq = s.freq := rfl
@[simp] theorem outWrite_duration : (outWrite s a b).duration = s.duration := rfl
@[simp] theorem outWrite_channels : (outWrite s a b).channels = s.channels := rfl
@[simp] theorem outWrite_smpLen : (outWrite s a b).smpLen = s.smpLen := rfl
@[simp] theorem outWrite_outLen : (outWrite s a b).outLen = s.outLen := rfl
@[simp] theorem outWrite_seq : (outWrite s a b).seq = s.seq := rfl
@[simp] theorem outWrite_op : (outWrite s a b).op = s.op := rfl
@[simp] theorem outWrite_n : (outWrite s a b).n = s.n := rfl
@[simp] theorem outWrite_modulus : (outWrite s a b).modulus = s.modulus := rfl
@[simp] theorem outWrite_stepWord : (outWrite s a b).stepWord = s.stepWord := rfl
@[simp] theorem outWrite_acc : (outWrite s a b).acc = s.acc := rfl
@[simp] theorem outWrite_idx : (outWrite s a b).idx = s.idx := rfl
@[simp] theorem outWrite_wp : (outWrite s a b).wp = s.wp := rfl
@[simp] theorem outWrite_smp : (outWrite s a b).smp = s.smp := rfl
@[simp] theorem outWrite_out : (outWrite s a b).out = Memory.write s.out a b := rfl
@[simp] theorem outWrite_inbox : (outWrite s a b).inbox = s.inbox := rfl
@[simp] theorem outWrite_replies : (outWrite s a b).replies = s.replies := rfl
@[simp] theorem outWrite_granularity : (outWrite s a b).granularity = s.granularity := rfl
@[simp] theorem outWrite_epoch : (outWrite s a b).epoch = s.epoch := rfl
@[simp] theorem outWrite_draws : (outWrite s a b).draws = s.draws := rfl
@[simp] theorem outWrite_smpLenBefore : (outWrite s a b).smpLenBefore = s.smpLenBefore := rfl

end

section
variable (s : State) (i : Option Instr) (r : Result) (c : Cause)

@[simp] theorem raise_status : (raise i r c s).status = ⟨false, r, c⟩ := rfl
@[simp] theorem raise_sampleRate : (raise i r c s).sampleRate = s.sampleRate := rfl
@[simp] theorem raise_bitDepth : (raise i r c s).bitDepth = s.bitDepth := rfl
@[simp] theorem raise_freq : (raise i r c s).freq = s.freq := rfl
@[simp] theorem raise_duration : (raise i r c s).duration = s.duration := rfl
@[simp] theorem raise_channels : (raise i r c s).channels = s.channels := rfl
@[simp] theorem raise_smpLen : (raise i r c s).smpLen = if i.any producesSamples then 0 else s.smpLen := rfl
@[simp] theorem raise_outLen : (raise i r c s).outLen = if i.any producesFile then 0 else s.outLen := rfl
@[simp] theorem raise_seq : (raise i r c s).seq = s.seq := rfl
@[simp] theorem raise_op : (raise i r c s).op = s.op := rfl
@[simp] theorem raise_n : (raise i r c s).n = s.n := rfl
@[simp] theorem raise_modulus : (raise i r c s).modulus = s.modulus := rfl
@[simp] theorem raise_stepWord : (raise i r c s).stepWord = s.stepWord := rfl
@[simp] theorem raise_acc : (raise i r c s).acc = s.acc := rfl
@[simp] theorem raise_idx : (raise i r c s).idx = s.idx := rfl
@[simp] theorem raise_wp : (raise i r c s).wp = s.wp := rfl
@[simp] theorem raise_smp : (raise i r c s).smp = s.smp := rfl
@[simp] theorem raise_out : (raise i r c s).out = s.out := rfl
@[simp] theorem raise_inbox : (raise i r c s).inbox = s.inbox := rfl
@[simp] theorem raise_replies : (raise i r c s).replies = s.replies := rfl
@[simp] theorem raise_granularity : (raise i r c s).granularity = s.granularity := rfl
@[simp] theorem raise_epoch : (raise i r c s).epoch = s.epoch := rfl
@[simp] theorem raise_draws : (raise i r c s).draws = s.draws := rfl
@[simp] theorem raise_smpLenBefore : (raise i r c s).smpLenBefore = s.smpLenBefore := rfl

end

section
variable (s : State) 

@[simp] theorem succeed_status : (succeed s).status = ⟨false, .ok, .none⟩ := rfl
@[simp] theorem succeed_sampleRate : (succeed s).sampleRate = s.sampleRate := rfl
@[simp] theorem succeed_bitDepth : (succeed s).bitDepth = s.bitDepth := rfl
@[simp] theorem succeed_freq : (succeed s).freq = s.freq := rfl
@[simp] theorem succeed_duration : (succeed s).duration = s.duration := rfl
@[simp] theorem succeed_channels : (succeed s).channels = s.channels := rfl
@[simp] theorem succeed_smpLen : (succeed s).smpLen = s.smpLen := rfl
@[simp] theorem succeed_outLen : (succeed s).outLen = s.outLen := rfl
@[simp] theorem succeed_seq : (succeed s).seq = .idle := rfl
@[simp] theorem succeed_op : (succeed s).op = s.op := rfl
@[simp] theorem succeed_n : (succeed s).n = s.n := rfl
@[simp] theorem succeed_modulus : (succeed s).modulus = s.modulus := rfl
@[simp] theorem succeed_stepWord : (succeed s).stepWord = s.stepWord := rfl
@[simp] theorem succeed_acc : (succeed s).acc = s.acc := rfl
@[simp] theorem succeed_idx : (succeed s).idx = s.idx := rfl
@[simp] theorem succeed_wp : (succeed s).wp = s.wp := rfl
@[simp] theorem succeed_smp : (succeed s).smp = s.smp := rfl
@[simp] theorem succeed_out : (succeed s).out = s.out := rfl
@[simp] theorem succeed_inbox : (succeed s).inbox = s.inbox := rfl
@[simp] theorem succeed_replies : (succeed s).replies = s.replies := rfl
@[simp] theorem succeed_granularity : (succeed s).granularity = s.granularity := rfl
@[simp] theorem succeed_epoch : (succeed s).epoch = s.epoch := rfl
@[simp] theorem succeed_draws : (succeed s).draws = s.draws := rfl
@[simp] theorem succeed_smpLenBefore : (succeed s).smpLenBefore = s.smpLenBefore := rfl

end

section
variable (s : State) (r : Reply)

@[simp] theorem reply_status : (reply r s).status = s.status := rfl
@[simp] theorem reply_sampleRate : (reply r s).sampleRate = s.sampleRate := rfl
@[simp] theorem reply_bitDepth : (reply r s).bitDepth = s.bitDepth := rfl
@[simp] theorem reply_freq : (reply r s).freq = s.freq := rfl
@[simp] theorem reply_duration : (reply r s).duration = s.duration := rfl
@[simp] theorem reply_channels : (reply r s).channels = s.channels := rfl
@[simp] theorem reply_smpLen : (reply r s).smpLen = s.smpLen := rfl
@[simp] theorem reply_outLen : (reply r s).outLen = s.outLen := rfl
@[simp] theorem reply_seq : (reply r s).seq = s.seq := rfl
@[simp] theorem reply_op : (reply r s).op = s.op := rfl
@[simp] theorem reply_n : (reply r s).n = s.n := rfl
@[simp] theorem reply_modulus : (reply r s).modulus = s.modulus := rfl
@[simp] theorem reply_stepWord : (reply r s).stepWord = s.stepWord := rfl
@[simp] theorem reply_acc : (reply r s).acc = s.acc := rfl
@[simp] theorem reply_idx : (reply r s).idx = s.idx := rfl
@[simp] theorem reply_wp : (reply r s).wp = s.wp := rfl
@[simp] theorem reply_smp : (reply r s).smp = s.smp := rfl
@[simp] theorem reply_out : (reply r s).out = s.out := rfl
@[simp] theorem reply_inbox : (reply r s).inbox = s.inbox := rfl
@[simp] theorem reply_replies : (reply r s).replies = r :: s.replies := rfl
@[simp] theorem reply_granularity : (reply r s).granularity = s.granularity := rfl
@[simp] theorem reply_epoch : (reply r s).epoch = s.epoch := rfl
@[simp] theorem reply_draws : (reply r s).draws = s.draws := rfl
@[simp] theorem reply_smpLenBefore : (reply r s).smpLenBefore = s.smpLenBefore := rfl

end

section
variable (s : State) (i : Instr)

@[simp] theorem startGenerator_status : (startGenerator i s).status = Status.executing := rfl
@[simp] theorem startGenerator_sampleRate : (startGenerator i s).sampleRate = s.sampleRate := rfl
@[simp] theorem startGenerator_bitDepth : (startGenerator i s).bitDepth = s.bitDepth := rfl
@[simp] theorem startGenerator_freq : (startGenerator i s).freq = s.freq := rfl
@[simp] theorem startGenerator_duration : (startGenerator i s).duration = s.duration := rfl
@[simp] theorem startGenerator_channels : (startGenerator i s).channels = s.channels := rfl
@[simp] theorem startGenerator_smpLen : (startGenerator i s).smpLen = s.smpLen := rfl
@[simp] theorem startGenerator_outLen : (startGenerator i s).outLen = s.outLen := rfl
@[simp] theorem startGenerator_seq : (startGenerator i s).seq = .genLoop := rfl
@[simp] theorem startGenerator_op : (startGenerator i s).op = i := rfl
@[simp] theorem startGenerator_n : (startGenerator i s).n = BitVec.ofNat 31 (operandD s).toNat := rfl
@[simp] theorem startGenerator_modulus : (startGenerator i s).modulus = BitVec.ofNat 47 ((operandS s).toNat * 2 ^ 16) := rfl
@[simp] theorem startGenerator_stepWord : (startGenerator i s).stepWord = BitVec.ofNat 47 ((operandF s).toNat % ((operandS s).toNat * 2 ^ 16)) := rfl
@[simp] theorem startGenerator_acc : (startGenerator i s).acc = 0 := rfl
@[simp] theorem startGenerator_idx : (startGenerator i s).idx = 0 := rfl
@[simp] theorem startGenerator_wp : (startGenerator i s).wp = s.wp := rfl
@[simp] theorem startGenerator_smp : (startGenerator i s).smp = s.smp := rfl
@[simp] theorem startGenerator_out : (startGenerator i s).out = s.out := rfl
@[simp] theorem startGenerator_inbox : (startGenerator i s).inbox = s.inbox := rfl
@[simp] theorem startGenerator_replies : (startGenerator i s).replies = s.replies := rfl
@[simp] theorem startGenerator_granularity : (startGenerator i s).granularity = s.granularity := rfl
@[simp] theorem startGenerator_epoch : (startGenerator i s).epoch = s.epoch := rfl
@[simp] theorem startGenerator_draws : (startGenerator i s).draws = s.draws := rfl
@[simp] theorem startGenerator_smpLenBefore : (startGenerator i s).smpLenBefore = s.smpLen := rfl

end

section
variable (s : State) (P : Params)

@[simp] theorem generateSample_status : (generateSample P s).status = s.status := rfl
@[simp] theorem generateSample_sampleRate : (generateSample P s).sampleRate = s.sampleRate := rfl
@[simp] theorem generateSample_bitDepth : (generateSample P s).bitDepth = s.bitDepth := rfl
@[simp] theorem generateSample_freq : (generateSample P s).freq = s.freq := rfl
@[simp] theorem generateSample_duration : (generateSample P s).duration = s.duration := rfl
@[simp] theorem generateSample_channels : (generateSample P s).channels = s.channels := rfl
@[simp] theorem generateSample_smpLen : (generateSample P s).smpLen = s.smpLen := rfl
@[simp] theorem generateSample_outLen : (generateSample P s).outLen = s.outLen := rfl
@[simp] theorem generateSample_seq : (generateSample P s).seq = s.seq := rfl
@[simp] theorem generateSample_op : (generateSample P s).op = s.op := rfl
@[simp] theorem generateSample_n : (generateSample P s).n = s.n := rfl
@[simp] theorem generateSample_modulus : (generateSample P s).modulus = s.modulus := rfl
@[simp] theorem generateSample_stepWord : (generateSample P s).stepWord = s.stepWord := rfl
@[simp] theorem generateSample_acc : (generateSample P s).acc = nextAcc s.acc s.stepWord s.modulus := rfl
@[simp] theorem generateSample_idx : (generateSample P s).idx = s.idx + 1 := rfl
@[simp] theorem generateSample_wp : (generateSample P s).wp = s.wp := rfl
@[simp] theorem generateSample_smp : (generateSample P s).smp = Memory.write s.smp s.idx.toNat (BitVec.ofInt 16 (sampleAt P s.acc.toNat s.modulus.toNat)) := rfl
@[simp] theorem generateSample_out : (generateSample P s).out = s.out := rfl
@[simp] theorem generateSample_inbox : (generateSample P s).inbox = s.inbox := rfl
@[simp] theorem generateSample_replies : (generateSample P s).replies = s.replies := rfl
@[simp] theorem generateSample_granularity : (generateSample P s).granularity = s.granularity := rfl
@[simp] theorem generateSample_epoch : (generateSample P s).epoch = s.epoch := rfl
@[simp] theorem generateSample_draws : (generateSample P s).draws = s.draws := rfl
@[simp] theorem generateSample_smpLenBefore : (generateSample P s).smpLenBefore = s.smpLenBefore := rfl

end

section
variable (s : State) 

@[simp] theorem storeSampleCount_status : (storeSampleCount s).status = s.status := rfl
@[simp] theorem storeSampleCount_sampleRate : (storeSampleCount s).sampleRate = s.sampleRate := rfl
@[simp] theorem storeSampleCount_bitDepth : (storeSampleCount s).bitDepth = s.bitDepth := rfl
@[simp] theorem storeSampleCount_freq : (storeSampleCount s).freq = s.freq := rfl
@[simp] theorem storeSampleCount_duration : (storeSampleCount s).duration = s.duration := rfl
@[simp] theorem storeSampleCount_channels : (storeSampleCount s).channels = s.channels := rfl
@[simp] theorem storeSampleCount_smpLen : (storeSampleCount s).smpLen = s.n.setWidth 32 := rfl
@[simp] theorem storeSampleCount_outLen : (storeSampleCount s).outLen = s.outLen := rfl
@[simp] theorem storeSampleCount_seq : (storeSampleCount s).seq = s.seq := rfl
@[simp] theorem storeSampleCount_op : (storeSampleCount s).op = s.op := rfl
@[simp] theorem storeSampleCount_n : (storeSampleCount s).n = s.n := rfl
@[simp] theorem storeSampleCount_modulus : (storeSampleCount s).modulus = s.modulus := rfl
@[simp] theorem storeSampleCount_stepWord : (storeSampleCount s).stepWord = s.stepWord := rfl
@[simp] theorem storeSampleCount_acc : (storeSampleCount s).acc = s.acc := rfl
@[simp] theorem storeSampleCount_idx : (storeSampleCount s).idx = s.idx := rfl
@[simp] theorem storeSampleCount_wp : (storeSampleCount s).wp = s.wp := rfl
@[simp] theorem storeSampleCount_smp : (storeSampleCount s).smp = s.smp := rfl
@[simp] theorem storeSampleCount_out : (storeSampleCount s).out = s.out := rfl
@[simp] theorem storeSampleCount_inbox : (storeSampleCount s).inbox = s.inbox := rfl
@[simp] theorem storeSampleCount_replies : (storeSampleCount s).replies = s.replies := rfl
@[simp] theorem storeSampleCount_granularity : (storeSampleCount s).granularity = s.granularity := rfl
@[simp] theorem storeSampleCount_epoch : (storeSampleCount s).epoch = s.epoch := rfl
@[simp] theorem storeSampleCount_draws : (storeSampleCount s).draws = s.draws := rfl
@[simp] theorem storeSampleCount_smpLenBefore : (storeSampleCount s).smpLenBefore = s.smpLenBefore := rfl

end

section
variable (s : State) 

@[simp] theorem finishGenerator_status : (finishGenerator s).status = ⟨false, .ok, .none⟩ := rfl
@[simp] theorem finishGenerator_sampleRate : (finishGenerator s).sampleRate = s.sampleRate := rfl
@[simp] theorem finishGenerator_bitDepth : (finishGenerator s).bitDepth = s.bitDepth := rfl
@[simp] theorem finishGenerator_freq : (finishGenerator s).freq = s.freq := rfl
@[simp] theorem finishGenerator_duration : (finishGenerator s).duration = s.duration := rfl
@[simp] theorem finishGenerator_channels : (finishGenerator s).channels = s.channels := rfl
@[simp] theorem finishGenerator_smpLen : (finishGenerator s).smpLen = s.n.setWidth 32 := rfl
@[simp] theorem finishGenerator_outLen : (finishGenerator s).outLen = s.outLen := rfl
@[simp] theorem finishGenerator_seq : (finishGenerator s).seq = .idle := rfl
@[simp] theorem finishGenerator_op : (finishGenerator s).op = s.op := rfl
@[simp] theorem finishGenerator_n : (finishGenerator s).n = s.n := rfl
@[simp] theorem finishGenerator_modulus : (finishGenerator s).modulus = s.modulus := rfl
@[simp] theorem finishGenerator_stepWord : (finishGenerator s).stepWord = s.stepWord := rfl
@[simp] theorem finishGenerator_acc : (finishGenerator s).acc = s.acc := rfl
@[simp] theorem finishGenerator_idx : (finishGenerator s).idx = s.idx := rfl
@[simp] theorem finishGenerator_wp : (finishGenerator s).wp = s.wp := rfl
@[simp] theorem finishGenerator_smp : (finishGenerator s).smp = s.smp := rfl
@[simp] theorem finishGenerator_out : (finishGenerator s).out = s.out := rfl
@[simp] theorem finishGenerator_inbox : (finishGenerator s).inbox = s.inbox := rfl
@[simp] theorem finishGenerator_replies : (finishGenerator s).replies = s.replies := rfl
@[simp] theorem finishGenerator_granularity : (finishGenerator s).granularity = s.granularity := rfl
@[simp] theorem finishGenerator_epoch : (finishGenerator s).epoch = s.epoch := rfl
@[simp] theorem finishGenerator_draws : (finishGenerator s).draws = s.draws := rfl
@[simp] theorem finishGenerator_smpLenBefore : (finishGenerator s).smpLenBefore = s.smpLenBefore := rfl

end

section
variable (s : State) 

@[simp] theorem startEncoder_status : (startEncoder s).status = Status.executing := rfl
@[simp] theorem startEncoder_sampleRate : (startEncoder s).sampleRate = s.sampleRate := rfl
@[simp] theorem startEncoder_bitDepth : (startEncoder s).bitDepth = s.bitDepth := rfl
@[simp] theorem startEncoder_freq : (startEncoder s).freq = s.freq := rfl
@[simp] theorem startEncoder_duration : (startEncoder s).duration = s.duration := rfl
@[simp] theorem startEncoder_channels : (startEncoder s).channels = s.channels := rfl
@[simp] theorem startEncoder_smpLen : (startEncoder s).smpLen = s.smpLen := rfl
@[simp] theorem startEncoder_outLen : (startEncoder s).outLen = s.outLen := rfl
@[simp] theorem startEncoder_seq : (startEncoder s).seq = .encHeader := rfl
@[simp] theorem startEncoder_op : (startEncoder s).op = .enc := rfl
@[simp] theorem startEncoder_n : (startEncoder s).n = BitVec.ofNat 31 (operandL s).toNat := rfl
@[simp] theorem startEncoder_modulus : (startEncoder s).modulus = s.modulus := rfl
@[simp] theorem startEncoder_stepWord : (startEncoder s).stepWord = s.stepWord := rfl
@[simp] theorem startEncoder_acc : (startEncoder s).acc = s.acc := rfl
@[simp] theorem startEncoder_idx : (startEncoder s).idx = s.idx := rfl
@[simp] theorem startEncoder_wp : (startEncoder s).wp = 0 := rfl
@[simp] theorem startEncoder_smp : (startEncoder s).smp = s.smp := rfl
@[simp] theorem startEncoder_out : (startEncoder s).out = s.out := rfl
@[simp] theorem startEncoder_inbox : (startEncoder s).inbox = s.inbox := rfl
@[simp] theorem startEncoder_replies : (startEncoder s).replies = s.replies := rfl
@[simp] theorem startEncoder_granularity : (startEncoder s).granularity = s.granularity := rfl
@[simp] theorem startEncoder_epoch : (startEncoder s).epoch = s.epoch := rfl
@[simp] theorem startEncoder_draws : (startEncoder s).draws = s.draws := rfl
@[simp] theorem startEncoder_smpLenBefore : (startEncoder s).smpLenBefore = s.smpLenBefore := rfl

end

section
variable (s : State) 

@[simp] theorem enterData_status : (enterData s).status = s.status := rfl
@[simp] theorem enterData_sampleRate : (enterData s).sampleRate = s.sampleRate := rfl
@[simp] theorem enterData_bitDepth : (enterData s).bitDepth = s.bitDepth := rfl
@[simp] theorem enterData_freq : (enterData s).freq = s.freq := rfl
@[simp] theorem enterData_duration : (enterData s).duration = s.duration := rfl
@[simp] theorem enterData_channels : (enterData s).channels = s.channels := rfl
@[simp] theorem enterData_smpLen : (enterData s).smpLen = s.smpLen := rfl
@[simp] theorem enterData_outLen : (enterData s).outLen = s.outLen := rfl
@[simp] theorem enterData_seq : (enterData s).seq = .encData := rfl
@[simp] theorem enterData_op : (enterData s).op = s.op := rfl
@[simp] theorem enterData_n : (enterData s).n = s.n := rfl
@[simp] theorem enterData_modulus : (enterData s).modulus = s.modulus := rfl
@[simp] theorem enterData_stepWord : (enterData s).stepWord = s.stepWord := rfl
@[simp] theorem enterData_acc : (enterData s).acc = s.acc := rfl
@[simp] theorem enterData_idx : (enterData s).idx = 0 := rfl
@[simp] theorem enterData_wp : (enterData s).wp = s.wp := rfl
@[simp] theorem enterData_smp : (enterData s).smp = s.smp := rfl
@[simp] theorem enterData_out : (enterData s).out = s.out := rfl
@[simp] theorem enterData_inbox : (enterData s).inbox = s.inbox := rfl
@[simp] theorem enterData_replies : (enterData s).replies = s.replies := rfl
@[simp] theorem enterData_granularity : (enterData s).granularity = s.granularity := rfl
@[simp] theorem enterData_epoch : (enterData s).epoch = s.epoch := rfl
@[simp] theorem enterData_draws : (enterData s).draws = s.draws := rfl
@[simp] theorem enterData_smpLenBefore : (enterData s).smpLenBefore = s.smpLenBefore := rfl

end

section
variable (s : State) 

@[simp] theorem finishEncoder_status : (finishEncoder s).status = ⟨false, .ok, .none⟩ := rfl
@[simp] theorem finishEncoder_sampleRate : (finishEncoder s).sampleRate = s.sampleRate := rfl
@[simp] theorem finishEncoder_bitDepth : (finishEncoder s).bitDepth = s.bitDepth := rfl
@[simp] theorem finishEncoder_freq : (finishEncoder s).freq = s.freq := rfl
@[simp] theorem finishEncoder_duration : (finishEncoder s).duration = s.duration := rfl
@[simp] theorem finishEncoder_channels : (finishEncoder s).channels = s.channels := rfl
@[simp] theorem finishEncoder_smpLen : (finishEncoder s).smpLen = s.smpLen := rfl
@[simp] theorem finishEncoder_outLen : (finishEncoder s).outLen = BitVec.ofNat 32 (headerSize + dataSize s) := rfl
@[simp] theorem finishEncoder_seq : (finishEncoder s).seq = .idle := rfl
@[simp] theorem finishEncoder_op : (finishEncoder s).op = s.op := rfl
@[simp] theorem finishEncoder_n : (finishEncoder s).n = s.n := rfl
@[simp] theorem finishEncoder_modulus : (finishEncoder s).modulus = s.modulus := rfl
@[simp] theorem finishEncoder_stepWord : (finishEncoder s).stepWord = s.stepWord := rfl
@[simp] theorem finishEncoder_acc : (finishEncoder s).acc = s.acc := rfl
@[simp] theorem finishEncoder_idx : (finishEncoder s).idx = s.idx := rfl
@[simp] theorem finishEncoder_wp : (finishEncoder s).wp = s.wp := rfl
@[simp] theorem finishEncoder_smp : (finishEncoder s).smp = s.smp := rfl
@[simp] theorem finishEncoder_out : (finishEncoder s).out = s.out := rfl
@[simp] theorem finishEncoder_inbox : (finishEncoder s).inbox = s.inbox := rfl
@[simp] theorem finishEncoder_replies : (finishEncoder s).replies = s.replies := rfl
@[simp] theorem finishEncoder_granularity : (finishEncoder s).granularity = s.granularity := rfl
@[simp] theorem finishEncoder_epoch : (finishEncoder s).epoch = s.epoch := rfl
@[simp] theorem finishEncoder_draws : (finishEncoder s).draws = s.draws := rfl
@[simp] theorem finishEncoder_smpLenBefore : (finishEncoder s).smpLenBefore = s.smpLenBefore := rfl

end

section
variable (s : State) 

@[simp] theorem turnToEncoder_status : (turnToEncoder s).status = s.status := rfl
@[simp] theorem turnToEncoder_sampleRate : (turnToEncoder s).sampleRate = s.sampleRate := rfl
@[simp] theorem turnToEncoder_bitDepth : (turnToEncoder s).bitDepth = s.bitDepth := rfl
@[simp] theorem turnToEncoder_freq : (turnToEncoder s).freq = s.freq := rfl
@[simp] theorem turnToEncoder_duration : (turnToEncoder s).duration = s.duration := rfl
@[simp] theorem turnToEncoder_channels : (turnToEncoder s).channels = s.channels := rfl
@[simp] theorem turnToEncoder_smpLen : (turnToEncoder s).smpLen = s.n.setWidth 32 := rfl
@[simp] theorem turnToEncoder_outLen : (turnToEncoder s).outLen = s.outLen := rfl
@[simp] theorem turnToEncoder_seq : (turnToEncoder s).seq = .encHeader := rfl
@[simp] theorem turnToEncoder_op : (turnToEncoder s).op = s.op := rfl
@[simp] theorem turnToEncoder_n : (turnToEncoder s).n = s.n := rfl
@[simp] theorem turnToEncoder_modulus : (turnToEncoder s).modulus = s.modulus := rfl
@[simp] theorem turnToEncoder_stepWord : (turnToEncoder s).stepWord = s.stepWord := rfl
@[simp] theorem turnToEncoder_acc : (turnToEncoder s).acc = s.acc := rfl
@[simp] theorem turnToEncoder_idx : (turnToEncoder s).idx = s.idx := rfl
@[simp] theorem turnToEncoder_wp : (turnToEncoder s).wp = 0 := rfl
@[simp] theorem turnToEncoder_smp : (turnToEncoder s).smp = s.smp := rfl
@[simp] theorem turnToEncoder_out : (turnToEncoder s).out = s.out := rfl
@[simp] theorem turnToEncoder_inbox : (turnToEncoder s).inbox = s.inbox := rfl
@[simp] theorem turnToEncoder_replies : (turnToEncoder s).replies = s.replies := rfl
@[simp] theorem turnToEncoder_granularity : (turnToEncoder s).granularity = s.granularity := rfl
@[simp] theorem turnToEncoder_epoch : (turnToEncoder s).epoch = s.epoch := rfl
@[simp] theorem turnToEncoder_draws : (turnToEncoder s).draws = s.draws := rfl
@[simp] theorem turnToEncoder_smpLenBefore : (turnToEncoder s).smpLenBefore = s.smpLenBefore := rfl

end

section
variable (s : State)

@[simp] theorem applyReset_status : (applyReset s).status = State.reset.status := rfl
@[simp] theorem applyReset_sampleRate : (applyReset s).sampleRate = State.reset.sampleRate := rfl
@[simp] theorem applyReset_bitDepth : (applyReset s).bitDepth = State.reset.bitDepth := rfl
@[simp] theorem applyReset_freq : (applyReset s).freq = State.reset.freq := rfl
@[simp] theorem applyReset_duration : (applyReset s).duration = State.reset.duration := rfl
@[simp] theorem applyReset_channels : (applyReset s).channels = State.reset.channels := rfl
@[simp] theorem applyReset_smpLen : (applyReset s).smpLen = State.reset.smpLen := rfl
@[simp] theorem applyReset_outLen : (applyReset s).outLen = State.reset.outLen := rfl
@[simp] theorem applyReset_seq : (applyReset s).seq = State.reset.seq := rfl
@[simp] theorem applyReset_op : (applyReset s).op = State.reset.op := rfl
@[simp] theorem applyReset_n : (applyReset s).n = State.reset.n := rfl
@[simp] theorem applyReset_modulus : (applyReset s).modulus = State.reset.modulus := rfl
@[simp] theorem applyReset_stepWord : (applyReset s).stepWord = State.reset.stepWord := rfl
@[simp] theorem applyReset_acc : (applyReset s).acc = State.reset.acc := rfl
@[simp] theorem applyReset_idx : (applyReset s).idx = State.reset.idx := rfl
@[simp] theorem applyReset_wp : (applyReset s).wp = State.reset.wp := rfl
@[simp] theorem applyReset_smp : (applyReset s).smp = State.reset.smp := rfl
@[simp] theorem applyReset_out : (applyReset s).out = State.reset.out := rfl
@[simp] theorem applyReset_inbox : (applyReset s).inbox = s.inbox := rfl
@[simp] theorem applyReset_replies : (applyReset s).replies = s.replies := rfl
@[simp] theorem applyReset_granularity : (applyReset s).granularity = s.granularity := rfl
@[simp] theorem applyReset_epoch : (applyReset s).epoch = s.epoch + 1 := rfl
@[simp] theorem applyReset_draws : (applyReset s).draws = s.draws := rfl
@[simp] theorem applyReset_smpLenBefore : (applyReset s).smpLenBefore = State.reset.smpLenBefore := rfl

end

end Sys2Proof.Machine
end

