-- ==== Sys2Proof/Laws/Ops.lean ====
section
/-! SUPPORT. The laws of the shared operations: reads after writes of both memories, and the frame of `MemWrite` and of
the operations built on it. -/

namespace Sys2Proof.Machine

@[simp] theorem smpRead_smpWrite_same (s : State) (k : Nat) (w : Half) : smpRead (smpWrite s k w) k = w := by
  simp [smpRead]

@[simp] theorem smpRead_smpWrite_ne (s : State) {k j : Nat} (w : Half) (h : j ≠ k) :
    smpRead (smpWrite s k w) j = smpRead s j := by
  simp [smpRead, h]

@[simp] theorem outRead_outWrite_same (s : State) (a : Nat) (b : Byte) : outRead (outWrite s a b) a = b := by
  simp [outRead]

@[simp] theorem outRead_outWrite_ne (s : State) {a c : Nat} (b : Byte) (h : c ≠ a) :
    outRead (outWrite s a b) c = outRead s c := by
  simp [outRead, h]

/-- `MemWrite` changes OUT and nothing else. -/
theorem memWrite_frame (s : State) (addr n v : Nat) :
    memWrite s addr n v = { s with out := (memWrite s addr n v).out } := by
  induction n generalizing s addr v with
  | zero => rfl
  | succ n ih => rw [memWrite, ih]; rfl

section
variable (s : State) (addr n v : Nat)

@[simp] theorem memWrite_status : (memWrite s addr n v).status = s.status := by rw [memWrite_frame]
@[simp] theorem memWrite_sampleRate : (memWrite s addr n v).sampleRate = s.sampleRate := by rw [memWrite_frame]
@[simp] theorem memWrite_bitDepth : (memWrite s addr n v).bitDepth = s.bitDepth := by rw [memWrite_frame]
@[simp] theorem memWrite_freq : (memWrite s addr n v).freq = s.freq := by rw [memWrite_frame]
@[simp] theorem memWrite_duration : (memWrite s addr n v).duration = s.duration := by rw [memWrite_frame]
@[simp] theorem memWrite_channels : (memWrite s addr n v).channels = s.channels := by rw [memWrite_frame]
@[simp] theorem memWrite_smpLen : (memWrite s addr n v).smpLen = s.smpLen := by rw [memWrite_frame]
@[simp] theorem memWrite_outLen : (memWrite s addr n v).outLen = s.outLen := by rw [memWrite_frame]
@[simp] theorem memWrite_seq : (memWrite s addr n v).seq = s.seq := by rw [memWrite_frame]
@[simp] theorem memWrite_op : (memWrite s addr n v).op = s.op := by rw [memWrite_frame]
@[simp] theorem memWrite_n : (memWrite s addr n v).n = s.n := by rw [memWrite_frame]
@[simp] theorem memWrite_modulus : (memWrite s addr n v).modulus = s.modulus := by rw [memWrite_frame]
@[simp] theorem memWrite_stepWord : (memWrite s addr n v).stepWord = s.stepWord := by rw [memWrite_frame]
@[simp] theorem memWrite_acc : (memWrite s addr n v).acc = s.acc := by rw [memWrite_frame]
@[simp] theorem memWrite_idx : (memWrite s addr n v).idx = s.idx := by rw [memWrite_frame]
@[simp] theorem memWrite_wp : (memWrite s addr n v).wp = s.wp := by rw [memWrite_frame]
@[simp] theorem memWrite_smp : (memWrite s addr n v).smp = s.smp := by rw [memWrite_frame]
@[simp] theorem memWrite_inbox : (memWrite s addr n v).inbox = s.inbox := by rw [memWrite_frame]
@[simp] theorem memWrite_replies : (memWrite s addr n v).replies = s.replies := by rw [memWrite_frame]
@[simp] theorem memWrite_granularity : (memWrite s addr n v).granularity = s.granularity := by rw [memWrite_frame]
@[simp] theorem memWrite_epoch : (memWrite s addr n v).epoch = s.epoch := by rw [memWrite_frame]
@[simp] theorem memWrite_draws : (memWrite s addr n v).draws = s.draws := by rw [memWrite_frame]
@[simp] theorem memWrite_smpLenBefore : (memWrite s addr n v).smpLenBefore = s.smpLenBefore := by rw [memWrite_frame]
end

section
variable (s : State) (n v : Nat)

@[simp] theorem writeAtWp_status : (writeAtWp s n v).status = s.status := by simp [writeAtWp]
@[simp] theorem writeAtWp_sampleRate : (writeAtWp s n v).sampleRate = s.sampleRate := by simp [writeAtWp]
@[simp] theorem writeAtWp_bitDepth : (writeAtWp s n v).bitDepth = s.bitDepth := by simp [writeAtWp]
@[simp] theorem writeAtWp_freq : (writeAtWp s n v).freq = s.freq := by simp [writeAtWp]
@[simp] theorem writeAtWp_duration : (writeAtWp s n v).duration = s.duration := by simp [writeAtWp]
@[simp] theorem writeAtWp_channels : (writeAtWp s n v).channels = s.channels := by simp [writeAtWp]
@[simp] theorem writeAtWp_smpLen : (writeAtWp s n v).smpLen = s.smpLen := by simp [writeAtWp]
@[simp] theorem writeAtWp_outLen : (writeAtWp s n v).outLen = s.outLen := by simp [writeAtWp]
@[simp] theorem writeAtWp_seq : (writeAtWp s n v).seq = s.seq := by simp [writeAtWp]
@[simp] theorem writeAtWp_op : (writeAtWp s n v).op = s.op := by simp [writeAtWp]
@[simp] theorem writeAtWp_n : (writeAtWp s n v).n = s.n := by simp [writeAtWp]
@[simp] theorem writeAtWp_modulus : (writeAtWp s n v).modulus = s.modulus := by simp [writeAtWp]
@[simp] theorem writeAtWp_stepWord : (writeAtWp s n v).stepWord = s.stepWord := by simp [writeAtWp]
@[simp] theorem writeAtWp_acc : (writeAtWp s n v).acc = s.acc := by simp [writeAtWp]
@[simp] theorem writeAtWp_idx : (writeAtWp s n v).idx = s.idx := by simp [writeAtWp]
@[simp] theorem writeAtWp_wp : (writeAtWp s n v).wp = s.wp + BitVec.ofNat 32 n := rfl
@[simp] theorem writeAtWp_smp : (writeAtWp s n v).smp = s.smp := by simp [writeAtWp]
@[simp] theorem writeAtWp_out : (writeAtWp s n v).out = (memWrite s s.wp.toNat n v).out := rfl
@[simp] theorem writeAtWp_inbox : (writeAtWp s n v).inbox = s.inbox := by simp [writeAtWp]
@[simp] theorem writeAtWp_replies : (writeAtWp s n v).replies = s.replies := by simp [writeAtWp]
@[simp] theorem writeAtWp_granularity : (writeAtWp s n v).granularity = s.granularity := by simp [writeAtWp]
@[simp] theorem writeAtWp_epoch : (writeAtWp s n v).epoch = s.epoch := by simp [writeAtWp]
@[simp] theorem writeAtWp_draws : (writeAtWp s n v).draws = s.draws := by simp [writeAtWp]
@[simp] theorem writeAtWp_smpLenBefore : (writeAtWp s n v).smpLenBefore = s.smpLenBefore := by simp [writeAtWp]
end

section
variable (s : State)

@[simp] theorem encodeSample_status : (encodeSample s).status = s.status := by simp [encodeSample]
@[simp] theorem encodeSample_sampleRate : (encodeSample s).sampleRate = s.sampleRate := by simp [encodeSample]
@[simp] theorem encodeSample_bitDepth : (encodeSample s).bitDepth = s.bitDepth := by simp [encodeSample]
@[simp] theorem encodeSample_freq : (encodeSample s).freq = s.freq := by simp [encodeSample]
@[simp] theorem encodeSample_duration : (encodeSample s).duration = s.duration := by simp [encodeSample]
@[simp] theorem encodeSample_channels : (encodeSample s).channels = s.channels := by simp [encodeSample]
@[simp] theorem encodeSample_smpLen : (encodeSample s).smpLen = s.smpLen := by simp [encodeSample]
@[simp] theorem encodeSample_outLen : (encodeSample s).outLen = s.outLen := by simp [encodeSample]
@[simp] theorem encodeSample_seq : (encodeSample s).seq = s.seq := by simp [encodeSample]
@[simp] theorem encodeSample_op : (encodeSample s).op = s.op := by simp [encodeSample]
@[simp] theorem encodeSample_n : (encodeSample s).n = s.n := by simp [encodeSample]
@[simp] theorem encodeSample_modulus : (encodeSample s).modulus = s.modulus := by simp [encodeSample]
@[simp] theorem encodeSample_stepWord : (encodeSample s).stepWord = s.stepWord := by simp [encodeSample]
@[simp] theorem encodeSample_acc : (encodeSample s).acc = s.acc := by simp [encodeSample]
@[simp] theorem encodeSample_idx : (encodeSample s).idx = s.idx + 1 := rfl
@[simp] theorem encodeSample_wp : (encodeSample s).wp = s.wp + 2#32 := rfl
@[simp] theorem encodeSample_smp : (encodeSample s).smp = s.smp := by simp [encodeSample]
@[simp] theorem encodeSample_out : (encodeSample s).out =
    (memWrite s s.wp.toNat 2 (smpRead s s.idx.toNat).toNat).out := rfl
@[simp] theorem encodeSample_inbox : (encodeSample s).inbox = s.inbox := by simp [encodeSample]
@[simp] theorem encodeSample_replies : (encodeSample s).replies = s.replies := by simp [encodeSample]
@[simp] theorem encodeSample_granularity : (encodeSample s).granularity = s.granularity := by simp [encodeSample]
@[simp] theorem encodeSample_epoch : (encodeSample s).epoch = s.epoch := by simp [encodeSample]
@[simp] theorem encodeSample_draws : (encodeSample s).draws = s.draws := by simp [encodeSample]
@[simp] theorem encodeSample_smpLenBefore : (encodeSample s).smpLenBefore = s.smpLenBefore := by simp [encodeSample]
end

/-- What `MemWrite` leaves at each address: byte j of v at `addr + j`, every other byte as before. -/
theorem read_memWrite (s : State) (addr n v c : Nat) :
    Memory.read (memWrite s addr n v).out c =
      if addr ≤ c ∧ c < addr + n then some (BitVec.ofNat 8 (v / 256 ^ (c - addr))) else Memory.read s.out c := by
  induction n generalizing s addr v with
  | zero => simp only [memWrite]; rw [if_neg (by omega)]
  | succ n ih =>
    rw [memWrite, ih]
    rcases Nat.lt_trichotomy c addr with h | h | h
    · rw [if_neg (by omega), if_neg (by omega), outWrite_out, Memory.read_write_ne _ _ (by omega)]
    · subst h; rw [if_neg (by omega), if_pos (by omega)]; simp
    · by_cases h2 : c < addr + (n + 1)
      · rw [if_pos (by omega), if_pos (by omega), show c - addr = (c - (addr + 1)) + 1 by omega, pow_succ',
          Nat.div_div_eq_div_mul]
      · rw [if_neg (by omega), if_neg (by omega), outWrite_out, Memory.read_write_ne _ _ (by omega)]

theorem outRead_memWrite (s : State) (addr n v c : Nat) :
    outRead (memWrite s addr n v) c =
      if addr ≤ c ∧ c < addr + n then BitVec.ofNat 8 (v / 256 ^ (c - addr)) else outRead s c := by
  simp only [outRead, read_memWrite, memWrite_epoch]
  split_ifs <;> rfl

theorem memWrite_wf (s : State) (addr n v : Nat) (h : Memory.wf s.out = true) :
    Memory.wf (memWrite s addr n v).out = true := by
  induction n generalizing s addr v with
  | zero => exact h
  | succ n ih => rw [memWrite]; exact ih _ _ _ (by simpa using Memory.wf_write _ _ h)

theorem memWrite_below (s : State) (addr n v : Nat) {bound : Nat} (hb : addr + n ≤ bound)
    (h : Memory.below bound s.out = true) : Memory.below bound (memWrite s addr n v).out = true := by
  induction n generalizing s addr v with
  | zero => exact h
  | succ n ih =>
    rw [memWrite]
    exact ih _ _ _ (by omega) (by simpa using Memory.below_write _ (by omega) h)

/-- `MemRead` depends on the bytes it reads alone. -/
theorem memRead_congr (s t : State) (addr n : Nat)
    (h : ∀ c, addr ≤ c → c < addr + n → outRead s c = outRead t c) : memRead s addr n = memRead t addr n := by
  induction n generalizing addr with
  | zero => rfl
  | succ n ih =>
    rw [memRead, memRead, h addr le_rfl (by omega), ih (addr + 1) fun c h1 h2 => h c (by omega) (by omega)]

/-- `MemRead` of n bytes that are the low bytes of v is v. -/
theorem memRead_of_bytes {s : State} {addr n v : Nat} (hv : v < 256 ^ n)
    (h : ∀ j < n, Memory.read s.out (addr + j) = some (BitVec.ofNat 8 (v / 256 ^ j))) : memRead s addr n = v := by
  induction n generalizing addr v with
  | zero => simp [memRead] at *; omega
  | succ n ih =>
    have h0 := h 0 (by omega)
    rw [Nat.add_zero] at h0
    rw [memRead, outRead, h0, ih (v := v / 256)]
    · simp; omega
    · rw [pow_succ] at hv; omega
    · intro j hj
      rw [show addr + 1 + j = addr + (j + 1) by omega, h (j + 1) (by omega), pow_succ', Nat.div_div_eq_div_mul]

end Sys2Proof.Machine
end

