-- ==== Sys2Proof/Laws/Generator.lean ====
section
/-! SUPPORT. The laws of validation and of the generator: when validation passes, what the start latches, and what the
loop leaves after any number of turns. -/

namespace Sys2Proof.Machine

/-- Validation passes exactly when the command is ready (`60_exceptions.md` rules R187, R192). -/
theorem validate_none_iff (i : Instr) (s : State) : validate Config.params i s = none ↔ Ready i s := by
  cases i <;>
    simp [validate, Check.order, Check.madeBy, Check.fails, Ready, GenReady, EncReady, SynReady] <;>
    simp only [operandCount] <;> omega

/-- Validation written out: the checks in the order of `60_exceptions.md` rule R192. -/
theorem validate_eq (i : Instr) (s : State) : validate Config.params i s =
    if operandS s ≤ 0 then some .sampleRate
    else if i ≠ .enc ∧ operandF s ≤ 0 then some .frequency
    else if operandCount i s < 0 then some .duration
    else if operandB s ≤ 0 ∨ operandB s % 8 ≠ 0 then some .bitDepth
    else if i ≠ .gen ∧ operandC s < 1 then some .channels
    else if operandB s ≠ 16 then some .only16Bits
    else if i ≠ .gen ∧ operandC s ≠ 1 then some .onlyOneChannel
    else if (Config.params.nMax : Int) < operandCount i s then some .capacity
    else none := by
  have hc : ∀ (p : Check → Bool) a l, List.find? p (a :: l) = if p a = true then some a else List.find? p l := by
    intro p a l; cases h : p a <;> simp [h]
  simp only [validate, Check.order, hc, List.find?_nil, Check.madeBy, Check.fails, Bool.and_eq_true, Bool.or_eq_true,
    decide_eq_true_eq, bne_iff_ne, true_and]

/-- A word whose signed reading is not negative is that number. -/
theorem toNat_of_toInt_nonneg (w : Word) (h : 0 ≤ w.toInt) : (w.toNat : Int) = w.toInt ∧ w.toNat < 2 ^ 31 := by
  rw [BitVec.toInt_eq_toNat_cond] at h ⊢
  have := w.isLt
  split_ifs at h ⊢ <;> omega

theorem nMax_lt : Config.params.nMax < 2 ^ 31 := by have := Config.params.nMax_le; omega

theorem operandS_lt (s : State) : (operandS s).toNat < 2 ^ 31 := by
  have := BitVec.toInt_lt (x := s.sampleRate); simp only [operandS]; omega

theorem operandF_lt (s : State) : (operandF s).toNat < 2 ^ 31 := by
  have := BitVec.toInt_lt (x := s.freq); simp only [operandF]; omega

theorem modulusOf_lt (s : State) : modulusOf s < 2 ^ 47 := by
  have := operandS_lt s; simp only [modulusOf]; omega

theorem modulusOf_pos {s : State} (h : 0 < operandS s) : 0 < modulusOf s := by
  simp only [modulusOf]; omega

/-- The phases of a configuration lie in SINE's domain (`40_generator.md` rules R112, R116). -/
theorem phaseOf_domain {s : State} (h : 0 < operandS s) (i : Nat) : Sine.Domain (phaseOf s i) (modulusOf s) :=
  ⟨by simp only [modulusOf]; omega, modulusOf_lt s, ⟨(operandS s).toNat, by simp only [modulusOf]; ring⟩,
    Nat.mod_lt _ (modulusOf_pos h)⟩

/-- What the start of generation latches (`40_generator.md` rule R112), as numbers. -/
theorem startGenerator_modulus_toNat (i : Instr) (s : State) :
    (startGenerator i s).modulus.toNat = modulusOf s := by
  have := modulusOf_lt s
  simp only [startGenerator_modulus, BitVec.toNat_ofNat]
  exact Nat.mod_eq_of_lt this

theorem startGenerator_stepWord_toNat (i : Instr) (s : State) :
    (startGenerator i s).stepWord.toNat = (operandF s).toNat % modulusOf s := by
  simp only [startGenerator_stepWord, BitVec.toNat_ofNat]
  exact Nat.mod_eq_of_lt (lt_of_le_of_lt (Nat.mod_le _ _) (by have := operandF_lt s; omega))

theorem startGenerator_n_toNat {i : Instr} {s : State} (h : operandD s ≤ Config.params.nMax) :
    (startGenerator i s).n.toNat = (operandD s).toNat := by
  have := nMax_lt
  simp only [startGenerator_n, BitVec.toNat_ofNat]
  exact Nat.mod_eq_of_lt (by omega)

/-- The generator stands before sample i of the tone with step F mod M (`40_generator.md` rules R112 to R114). -/
structure AtSample (F M i : Nat) (s : State) : Prop where
  modulus_eq : s.modulus.toNat = M
  modulus_pos : 0 < M
  stepWord_eq : s.stepWord.toNat = F % M
  acc_eq : s.acc.toNat = F * i % M
  idx_eq : s.idx.toNat = i

theorem atSample_start (i : Instr) {s : State} (h : 0 < operandS s) :
    AtSample (operandF s).toNat (modulusOf s) 0 (startGenerator i s) where
  modulus_eq := startGenerator_modulus_toNat i s
  modulus_pos := modulusOf_pos h
  stepWord_eq := startGenerator_stepWord_toNat i s
  acc_eq := by simp
  idx_eq := by simp

/-- The accumulator step is exact (`40_generator.md` rule R113). -/
theorem nextAcc_toNat (acc stepWord modulus : BitVec 47) (h : 0 < modulus.toNat) :
    (nextAcc acc stepWord modulus).toNat = (acc.toNat + stepWord.toNat) % modulus.toNat := by
  simp only [nextAcc, BitVec.toNat_ofNat]
  exact Nat.mod_eq_of_lt (lt_trans (Nat.mod_lt _ h) modulus.isLt)

theorem atSample_generateSample {P : Params} {F M i : Nat} {s : State} (h : AtSample F M i s) (hi : i + 1 < 2 ^ 31) :
    AtSample F M (i + 1) (generateSample P s) where
  modulus_eq := h.modulus_eq
  modulus_pos := h.modulus_pos
  stepWord_eq := h.stepWord_eq
  acc_eq := by
    have hm := h.modulus_eq
    rw [generateSample_acc, nextAcc_toNat _ _ _ (by rw [hm]; exact h.modulus_pos), h.acc_eq, h.stepWord_eq, hm,
      ← Nat.add_mod, Nat.mul_succ]
  idx_eq := by
    have := h.idx_eq
    rw [generateSample_idx, BitVec.toNat_add, this]
    exact Nat.mod_eq_of_lt (by simpa using hi)

/-- The loop changes SMP, ACC and IDX and nothing else. -/
theorem generateLoop_frame (P : Params) (k : Nat) (s : State) :
    generateLoop P k s = { s with
      smp := (generateLoop P k s).smp
      acc := (generateLoop P k s).acc
      idx := (generateLoop P k s).idx } := by
  induction k generalizing s with
  | zero => rfl
  | succ k ih => rw [generateLoop, ih]; rfl

section
variable (P : Params) (k : Nat) (s : State)

@[simp] theorem generateLoop_status : (generateLoop P k s).status = s.status := by rw [generateLoop_frame]
@[simp] theorem generateLoop_sampleRate : (generateLoop P k s).sampleRate = s.sampleRate := by rw [generateLoop_frame]
@[simp] theorem generateLoop_bitDepth : (generateLoop P k s).bitDepth = s.bitDepth := by rw [generateLoop_frame]
@[simp] theorem generateLoop_freq : (generateLoop P k s).freq = s.freq := by rw [generateLoop_frame]
@[simp] theorem generateLoop_duration : (generateLoop P k s).duration = s.duration := by rw [generateLoop_frame]
@[simp] theorem generateLoop_channels : (generateLoop P k s).channels = s.channels := by rw [generateLoop_frame]
@[simp] theorem generateLoop_smpLen : (generateLoop P k s).smpLen = s.smpLen := by rw [generateLoop_frame]
@[simp] theorem generateLoop_outLen : (generateLoop P k s).outLen = s.outLen := by rw [generateLoop_frame]
@[simp] theorem generateLoop_seq : (generateLoop P k s).seq = s.seq := by rw [generateLoop_frame]
@[simp] theorem generateLoop_op : (generateLoop P k s).op = s.op := by rw [generateLoop_frame]
@[simp] theorem generateLoop_n : (generateLoop P k s).n = s.n := by rw [generateLoop_frame]
@[simp] theorem generateLoop_modulus : (generateLoop P k s).modulus = s.modulus := by rw [generateLoop_frame]
@[simp] theorem generateLoop_stepWord : (generateLoop P k s).stepWord = s.stepWord := by rw [generateLoop_frame]
@[simp] theorem generateLoop_wp : (generateLoop P k s).wp = s.wp := by rw [generateLoop_frame]
@[simp] theorem generateLoop_out : (generateLoop P k s).out = s.out := by rw [generateLoop_frame]
@[simp] theorem generateLoop_inbox : (generateLoop P k s).inbox = s.inbox := by rw [generateLoop_frame]
@[simp] theorem generateLoop_replies : (generateLoop P k s).replies = s.replies := by rw [generateLoop_frame]
@[simp] theorem generateLoop_granularity : (generateLoop P k s).granularity = s.granularity := by rw [generateLoop_frame]
@[simp] theorem generateLoop_epoch : (generateLoop P k s).epoch = s.epoch := by rw [generateLoop_frame]
@[simp] theorem generateLoop_draws : (generateLoop P k s).draws = s.draws := by rw [generateLoop_frame]
@[simp] theorem generateLoop_smpLenBefore : (generateLoop P k s).smpLenBefore = s.smpLenBefore := by rw [generateLoop_frame]
end

theorem generateLoop_succ (P : Params) (k : Nat) (s : State) :
    generateLoop P (k + 1) s = generateSample P (generateLoop P k s) := by
  induction k generalizing s with
  | zero => rfl
  | succ k ih => rw [generateLoop, ih]; rfl

/-- The accumulator and the index after k turns (`40_generator.md` rules R113, R124). -/
theorem generateLoop_atSample {P : Params} {F M i : Nat} {s : State} (h : AtSample F M i s) (k : Nat)
    (hk : i + k < 2 ^ 31) : AtSample F M (i + k) (generateLoop P k s) := by
  induction k generalizing s i with
  | zero => exact h
  | succ k ih =>
    have := ih (atSample_generateSample (P := P) h (by omega)) (by omega)
    rw [generateLoop]
    rwa [show i + (k + 1) = i + 1 + k by omega]

/-- The cells after k turns: the k samples from i on, every other cell as before (`40_generator.md` rule R124). -/
theorem read_generateLoop {P : Params} {F M i : Nat} {s : State} (h : AtSample F M i s) (k : Nat)
    (hk : i + k < 2 ^ 31) (c : Nat) :
    Memory.read (generateLoop P k s).smp c =
      if i ≤ c ∧ c < i + k then some (BitVec.ofInt 16 (sampleAt P (F * c % M) M)) else Memory.read s.smp c := by
  induction k generalizing s i with
  | zero => simp only [generateLoop]; rw [if_neg (by omega)]
  | succ k ih =>
    rw [generateLoop, ih (atSample_generateSample (P := P) h (by omega)) (by omega), generateSample_smp,
      h.acc_eq, h.modulus_eq, h.idx_eq]
    rcases Nat.lt_trichotomy c i with hc | hc | hc
    · rw [if_neg (by omega), if_neg (by omega), Memory.read_write_ne _ _ (by omega)]
    · subst hc; rw [if_neg (by omega), if_pos (by omega), Memory.read_write_same]
    · rw [Memory.read_write_ne _ _ (by omega)]
      by_cases h2 : c < i + (k + 1)
      · rw [if_pos (by omega), if_pos (by omega)]
      · rw [if_neg (by omega), if_neg (by omega)]

theorem generateLoop_wf (P : Params) (k : Nat) (s : State) (h : Memory.wf s.smp = true) :
    Memory.wf (generateLoop P k s).smp = true := by
  induction k generalizing s with
  | zero => exact h
  | succ k ih => exact ih _ (Memory.wf_write _ _ h)

/-- The samples depend on SMP, IDX, ACC, STEP and MOD alone. -/
theorem generateLoop_congr (P : Params) {s t : State} (k : Nat) (h : s.smp = t.smp) (hi : s.idx = t.idx)
    (ha : s.acc = t.acc) (hs : s.stepWord = t.stepWord) (hm : s.modulus = t.modulus) :
    (generateLoop P k s).smp = (generateLoop P k t).smp := by
  induction k generalizing s t with
  | zero => exact h
  | succ k ih =>
    exact ih (by simp [h, hi, ha, hm]) (by simp [hi]) (by simp [ha, hs, hm]) (by simp [hs]) (by simp [hm])

end Sys2Proof.Machine
end

