-- ==== Sys2Proof/Laws/Encoder.lean ====
section
/-! SUPPORT. The laws of the encoder: what the start latches, the header and the data as bytes of OUT, the frame. -/

namespace Sys2Proof.Machine

theorem startEncoder_n_toNat {s : State} (h : operandL s ≤ Config.params.nMax) :
    (startEncoder s).n.toNat = (operandL s).toNat := by
  have := nMax_lt
  simp only [startEncoder_n, BitVec.toNat_ofNat]
  exact Nat.mod_eq_of_lt (by omega)

/-- One header field changes OUT and WP and nothing else. -/
theorem writeField_eq (s : State) (f : HeaderField) :
    writeField s f = { s with
      out := (memWrite s s.wp.toNat f.size f.value).out
      wp := s.wp + BitVec.ofNat 32 f.size } := by
  rw [writeField, writeAtWp, memWrite_frame]

/-- Fields that stand one after the other from WP on, the last ending at `stop`. -/
def fieldsFrom (start stop : Nat) : List HeaderField → Prop
  | [] => start = stop
  | f :: fs => f.offset = start ∧ fieldsFrom (start + f.size) stop fs

theorem headerFields_from (s : State) : fieldsFrom 0 44 (headerFields s) := by simp [headerFields, fieldsFrom]

theorem fieldsFrom_le {start stop : Nat} {fs : List HeaderField} (h : fieldsFrom start stop fs) : start ≤ stop := by
  induction fs generalizing start with
  | nil => exact Nat.le_of_eq h
  | cons f fs ih => have := ih h.2; omega

/-- Writing consecutive fields from WP on changes OUT and WP and nothing else. -/
theorem writeFields_frame (fs : List HeaderField) (s : State) :
    fs.foldl writeField s = { s with out := (fs.foldl writeField s).out, wp := (fs.foldl writeField s).wp } := by
  induction fs generalizing s with
  | nil => rfl
  | cons f fs ih => rw [List.foldl_cons, ih]; simp only [writeField_eq]

theorem writeFields_wp {start stop : Nat} {fs : List HeaderField} {s : State} (h : fieldsFrom start stop fs)
    (hw : s.wp.toNat = start) (hs : stop < 2 ^ 32) : (fs.foldl writeField s).wp.toNat = stop := by
  induction fs generalizing s start with
  | nil => exact hw.trans h
  | cons f fs ih =>
    refine ih h.2 ?_
    have := fieldsFrom_le h.2
    rw [writeField_eq, BitVec.toNat_add, hw, BitVec.toNat_ofNat]
    omega

/-- The bytes of consecutive fields: each field's own bytes, every byte outside them as before. -/
theorem read_writeFields {start stop : Nat} {fs : List HeaderField} {s : State} (h : fieldsFrom start stop fs)
    (hw : s.wp.toNat = start) (hs : stop < 2 ^ 32) :
    (∀ f ∈ fs, ∀ j < f.size, Memory.read (fs.foldl writeField s).out (f.offset + j) =
      some (BitVec.ofNat 8 (f.value / 256 ^ j))) ∧
    (∀ c, c < start ∨ stop ≤ c → Memory.read (fs.foldl writeField s).out c = Memory.read s.out c) := by
  induction fs generalizing s start with
  | nil => exact ⟨by simp, fun c _ => rfl⟩
  | cons f fs ih =>
    have hle := fieldsFrom_le h.2
    have hw' : (writeField s f).wp.toNat = start + f.size := by
      rw [writeField_eq, BitVec.toNat_add, hw, BitVec.toNat_ofNat]; omega
    obtain ⟨h1, h2⟩ := ih h.2 hw'
    have hout : ∀ c, Memory.read (writeField s f).out c =
        if start ≤ c ∧ c < start + f.size then some (BitVec.ofNat 8 (f.value / 256 ^ (c - start)))
        else Memory.read s.out c := fun c => by rw [writeField_eq, read_memWrite, hw]
    constructor
    · intro g hg j hj
      rcases List.mem_cons.1 hg with rfl | hg
      · rw [List.foldl_cons, h2 _ (by have := h.1; omega), hout, h.1, if_pos (by omega), Nat.add_sub_cancel_left]
      · exact h1 g hg j hj
    · intro c hc
      rw [List.foldl_cons, h2 c (by omega), hout, if_neg (by omega)]

theorem writeFields_wf (fs : List HeaderField) (s : State) (h : Memory.wf s.out = true) :
    Memory.wf (fs.foldl writeField s).out = true := by
  induction fs generalizing s with
  | nil => exact h
  | cons f fs ih => exact ih _ (by rw [writeField_eq]; exact memWrite_wf _ _ _ _ h)

section
variable (s : State)

@[simp] theorem writeHeader_status : (writeHeader s).status = s.status := by rw [writeHeader, writeFields_frame]
@[simp] theorem writeHeader_sampleRate : (writeHeader s).sampleRate = s.sampleRate := by rw [writeHeader, writeFields_frame]
@[simp] theorem writeHeader_bitDepth : (writeHeader s).bitDepth = s.bitDepth := by rw [writeHeader, writeFields_frame]
@[simp] theorem writeHeader_freq : (writeHeader s).freq = s.freq := by rw [writeHeader, writeFields_frame]
@[simp] theorem writeHeader_duration : (writeHeader s).duration = s.duration := by rw [writeHeader, writeFields_frame]
@[simp] theorem writeHeader_channels : (writeHeader s).channels = s.channels := by rw [writeHeader, writeFields_frame]
@[simp] theorem writeHeader_smpLen : (writeHeader s).smpLen = s.smpLen := by rw [writeHeader, writeFields_frame]
@[simp] theorem writeHeader_outLen : (writeHeader s).outLen = s.outLen := by rw [writeHeader, writeFields_frame]
@[simp] theorem writeHeader_seq : (writeHeader s).seq = s.seq := by rw [writeHeader, writeFields_frame]
@[simp] theorem writeHeader_op : (writeHeader s).op = s.op := by rw [writeHeader, writeFields_frame]
@[simp] theorem writeHeader_n : (writeHeader s).n = s.n := by rw [writeHeader, writeFields_frame]
@[simp] theorem writeHeader_modulus : (writeHeader s).modulus = s.modulus := by rw [writeHeader, writeFields_frame]
@[simp] theorem writeHeader_stepWord : (writeHeader s).stepWord = s.stepWord := by rw [writeHeader, writeFields_frame]
@[simp] theorem writeHeader_acc : (writeHeader s).acc = s.acc := by rw [writeHeader, writeFields_frame]
@[simp] theorem writeHeader_idx : (writeHeader s).idx = s.idx := by rw [writeHeader, writeFields_frame]
@[simp] theorem writeHeader_smp : (writeHeader s).smp = s.smp := by rw [writeHeader, writeFields_frame]
@[simp] theorem writeHeader_inbox : (writeHeader s).inbox = s.inbox := by rw [writeHeader, writeFields_frame]
@[simp] theorem writeHeader_replies : (writeHeader s).replies = s.replies := by rw [writeHeader, writeFields_frame]
@[simp] theorem writeHeader_granularity : (writeHeader s).granularity = s.granularity := by rw [writeHeader, writeFields_frame]
@[simp] theorem writeHeader_epoch : (writeHeader s).epoch = s.epoch := by rw [writeHeader, writeFields_frame]
@[simp] theorem writeHeader_draws : (writeHeader s).draws = s.draws := by rw [writeHeader, writeFields_frame]
@[simp] theorem writeHeader_smpLenBefore : (writeHeader s).smpLenBefore = s.smpLenBefore := by rw [writeHeader, writeFields_frame]
end

/-- WP stands at 44 after the thirteenth field (`41_encoder.md` rule R144). -/
theorem writeHeader_wp_toNat {s : State} (hw : s.wp = 0) : (writeHeader s).wp.toNat = 44 :=
  writeFields_wp (headerFields_from s) (by simp [hw]) (by norm_num)

/-- The bytes of the header (`41_encoder.md` rules R145 to R157). -/
theorem read_writeHeader {s : State} (hw : s.wp = 0) :
    (∀ f ∈ headerFields s, ∀ j < f.size, Memory.read (writeHeader s).out (f.offset + j) =
      some (BitVec.ofNat 8 (f.value / 256 ^ j))) ∧
    (∀ c, 44 ≤ c → Memory.read (writeHeader s).out c = Memory.read s.out c) := by
  obtain ⟨h1, h2⟩ := read_writeFields (headerFields_from s) (s := s) (by simp [hw]) (by norm_num)
  exact ⟨h1, fun c hc => h2 c (Or.inr hc)⟩

/-- The data loop changes OUT, WP and IDX and nothing else. -/
theorem encodeLoop_frame (k : Nat) (s : State) :
    encodeLoop k s = { s with
      out := (encodeLoop k s).out
      wp := (encodeLoop k s).wp
      idx := (encodeLoop k s).idx } := by
  induction k generalizing s with
  | zero => rfl
  | succ k ih =>
    rw [encodeLoop, ih]
    simp only [encodeSample, writeAtWp]
    rw [memWrite_frame]

section
variable (k : Nat) (s : State)

@[simp] theorem encodeLoop_status : (encodeLoop k s).status = s.status := by rw [encodeLoop_frame]
@[simp] theorem encodeLoop_sampleRate : (encodeLoop k s).sampleRate = s.sampleRate := by rw [encodeLoop_frame]
@[simp] theorem encodeLoop_bitDepth : (encodeLoop k s).bitDepth = s.bitDepth := by rw [encodeLoop_frame]
@[simp] theorem encodeLoop_freq : (encodeLoop k s).freq = s.freq := by rw [encodeLoop_frame]
@[simp] theorem encodeLoop_duration : (encodeLoop k s).duration = s.duration := by rw [encodeLoop_frame]
@[simp] theorem encodeLoop_channels : (encodeLoop k s).channels = s.channels := by rw [encodeLoop_frame]
@[simp] theorem encodeLoop_smpLen : (encodeLoop k s).smpLen = s.smpLen := by rw [encodeLoop_frame]
@[simp] theorem encodeLoop_outLen : (encodeLoop k s).outLen = s.outLen := by rw [encodeLoop_frame]
@[simp] theorem encodeLoop_seq : (encodeLoop k s).seq = s.seq := by rw [encodeLoop_frame]
@[simp] theorem encodeLoop_op : (encodeLoop k s).op = s.op := by rw [encodeLoop_frame]
@[simp] theorem encodeLoop_n : (encodeLoop k s).n = s.n := by rw [encodeLoop_frame]
@[simp] theorem encodeLoop_modulus : (encodeLoop k s).modulus = s.modulus := by rw [encodeLoop_frame]
@[simp] theorem encodeLoop_stepWord : (encodeLoop k s).stepWord = s.stepWord := by rw [encodeLoop_frame]
@[simp] theorem encodeLoop_acc : (encodeLoop k s).acc = s.acc := by rw [encodeLoop_frame]
@[simp] theorem encodeLoop_smp : (encodeLoop k s).smp = s.smp := by rw [encodeLoop_frame]
@[simp] theorem encodeLoop_inbox : (encodeLoop k s).inbox = s.inbox := by rw [encodeLoop_frame]
@[simp] theorem encodeLoop_replies : (encodeLoop k s).replies = s.replies := by rw [encodeLoop_frame]
@[simp] theorem encodeLoop_granularity : (encodeLoop k s).granularity = s.granularity := by rw [encodeLoop_frame]
@[simp] theorem encodeLoop_epoch : (encodeLoop k s).epoch = s.epoch := by rw [encodeLoop_frame]
@[simp] theorem encodeLoop_draws : (encodeLoop k s).draws = s.draws := by rw [encodeLoop_frame]
@[simp] theorem encodeLoop_smpLenBefore : (encodeLoop k s).smpLenBefore = s.smpLenBefore := by rw [encodeLoop_frame]
end

theorem encodeLoop_succ (k : Nat) (s : State) : encodeLoop (k + 1) s = encodeSample (encodeLoop k s) := by
  induction k generalizing s with
  | zero => rfl
  | succ k ih => rw [encodeLoop, ih]; rfl

@[simp] theorem smpRead_encodeSample (s : State) (k : Nat) : smpRead (encodeSample s) k = smpRead s k := by
  simp [smpRead]

/-- The encoder stands before sample i: `IDX = i`, `WP = 44 + 2 * i` (`41_encoder.md` rule R158). -/
structure AtData (i : Nat) (s : State) : Prop where
  idx_eq : s.idx.toNat = i
  wp_eq : s.wp.toNat = 44 + 2 * i

theorem atData_encodeSample {i : Nat} {s : State} (h : AtData i s) (hi : i + 1 ≤ 2 ^ 31 - 23) :
    AtData (i + 1) (encodeSample s) where
  idx_eq := by
    rw [encodeSample_idx, BitVec.toNat_add, h.idx_eq]
    exact Nat.mod_eq_of_lt (by simp; omega)
  wp_eq := by
    rw [encodeSample_wp, BitVec.toNat_add, h.wp_eq]
    exact (Nat.mod_eq_of_lt (by simp; omega)).trans (by simp; omega)

/-- IDX and WP after k turns of the data loop. -/
theorem encodeLoop_atData {i : Nat} {s : State} (h : AtData i s) (k : Nat) (hk : i + k ≤ 2 ^ 31 - 23) :
    AtData (i + k) (encodeLoop k s) := by
  induction k generalizing s i with
  | zero => exact h
  | succ k ih =>
    rw [encodeLoop, show i + (k + 1) = i + 1 + k by omega]
    exact ih (atData_encodeSample h (by omega)) (by omega)

/-- The bytes after k turns of the data loop: sample c at `44 + 2 * c`, low byte first, every other byte as before
(`41_encoder.md` rule R158). -/
theorem read_encodeLoop {i : Nat} {s : State} (h : AtData i s) (k : Nat) (hk : i + k ≤ 2 ^ 31 - 23) (c : Nat) :
    Memory.read (encodeLoop k s).out c =
      if 44 + 2 * i ≤ c ∧ c < 44 + 2 * (i + k) then
        some (BitVec.ofNat 8 ((smpRead s ((c - 44) / 2)).toNat / 256 ^ ((c - 44) % 2)))
      else Memory.read s.out c := by
  induction k generalizing s i with
  | zero => simp only [encodeLoop]; rw [if_neg (by omega)]
  | succ k ih =>
    rw [encodeLoop, ih (atData_encodeSample h (by omega)) (by omega), encodeSample_out, read_memWrite, h.wp_eq, h.idx_eq,
      smpRead_encodeSample]
    by_cases h1 : c < 44 + 2 * i
    · rw [if_neg (by omega), if_neg (by omega), if_neg (by omega)]
    · by_cases h2 : c < 44 + 2 * i + 2
      · rw [if_neg (by omega), if_pos (by omega), if_pos (by omega), show (c - 44) / 2 = i by omega,
          show (c - 44) % 2 = c - (44 + 2 * i) by omega]
      · by_cases h3 : c < 44 + 2 * (i + (k + 1))
        · rw [if_pos (by omega), if_pos (by omega)]
        · rw [if_neg (by omega), if_neg (by omega), if_neg (by omega)]

theorem encodeLoop_wf (k : Nat) (s : State) (h : Memory.wf s.out = true) : Memory.wf (encodeLoop k s).out = true := by
  induction k generalizing s with
  | zero => exact h
  | succ k ih => exact ih _ (by rw [encodeSample_out]; exact memWrite_wf _ _ _ _ h)

/-- The derived quantities do not change while the encoder runs. -/
theorem dataSize_encodeLoop (k : Nat) (s : State) : dataSize (encodeLoop k (enterData (writeHeader s))) = dataSize s := by
  simp [dataSize, blockAlign, operandB, operandC]

section
variable (s : State)

@[simp] theorem runEncoder_status : (runEncoder s).status = ⟨false, .ok, .none⟩ := by simp [runEncoder]
@[simp] theorem runEncoder_sampleRate : (runEncoder s).sampleRate = s.sampleRate := by simp [runEncoder]
@[simp] theorem runEncoder_bitDepth : (runEncoder s).bitDepth = s.bitDepth := by simp [runEncoder]
@[simp] theorem runEncoder_freq : (runEncoder s).freq = s.freq := by simp [runEncoder]
@[simp] theorem runEncoder_duration : (runEncoder s).duration = s.duration := by simp [runEncoder]
@[simp] theorem runEncoder_channels : (runEncoder s).channels = s.channels := by simp [runEncoder]
@[simp] theorem runEncoder_smpLen : (runEncoder s).smpLen = s.smpLen := by simp [runEncoder]
@[simp] theorem runEncoder_outLen : (runEncoder s).outLen = BitVec.ofNat 32 (44 + dataSize s) := by simp [runEncoder, dataSize_encodeLoop, headerSize]
@[simp] theorem runEncoder_seq : (runEncoder s).seq = .idle := by simp [runEncoder]
@[simp] theorem runEncoder_op : (runEncoder s).op = s.op := by simp [runEncoder]
@[simp] theorem runEncoder_n : (runEncoder s).n = s.n := by simp [runEncoder]
@[simp] theorem runEncoder_modulus : (runEncoder s).modulus = s.modulus := by simp [runEncoder]
@[simp] theorem runEncoder_stepWord : (runEncoder s).stepWord = s.stepWord := by simp [runEncoder]
@[simp] theorem runEncoder_acc : (runEncoder s).acc = s.acc := by simp [runEncoder]
@[simp] theorem runEncoder_smp : (runEncoder s).smp = s.smp := by simp [runEncoder]
@[simp] theorem runEncoder_inbox : (runEncoder s).inbox = s.inbox := by simp [runEncoder]
@[simp] theorem runEncoder_replies : (runEncoder s).replies = s.replies := by simp [runEncoder]
@[simp] theorem runEncoder_granularity : (runEncoder s).granularity = s.granularity := by simp [runEncoder]
@[simp] theorem runEncoder_epoch : (runEncoder s).epoch = s.epoch := by simp [runEncoder]
@[simp] theorem runEncoder_draws : (runEncoder s).draws = s.draws := by simp [runEncoder]
@[simp] theorem runEncoder_smpLenBefore : (runEncoder s).smpLenBefore = s.smpLenBefore := by simp [runEncoder]
end

/-- Where the encoder's body leaves IDX and WP. -/
theorem runEncoder_atData {s : State} (hw : s.wp = 0) (hn : s.n.toNat ≤ Config.params.nMax) :
    AtData s.n.toNat (runEncoder s) := by
  have hk := Config.params.nMax_le
  have h0 : AtData 0 (enterData (writeHeader s)) := ⟨by simp, by simpa using writeHeader_wp_toNat hw⟩
  have := encodeLoop_atData h0 s.n.toNat (by omega)
  rw [Nat.zero_add] at this
  exact ⟨by simpa [runEncoder] using this.idx_eq, by simpa [runEncoder] using this.wp_eq⟩

/-- The bytes the encoder's body leaves in OUT (`41_encoder.md` rule R160): the header's fields, the samples low byte
first, every byte after them as before. -/
theorem read_runEncoder {s : State} (hw : s.wp = 0) (hn : s.n.toNat ≤ Config.params.nMax) :
    (∀ f ∈ headerFields s, ∀ j < f.size, Memory.read (runEncoder s).out (f.offset + j) =
      some (BitVec.ofNat 8 (f.value / 256 ^ j))) ∧
    (∀ k < s.n.toNat, ∀ j < 2, Memory.read (runEncoder s).out (44 + 2 * k + j) =
      some (BitVec.ofNat 8 ((smpRead s k).toNat / 256 ^ j))) ∧
    (∀ c, 44 + 2 * s.n.toNat ≤ c → Memory.read (runEncoder s).out c = Memory.read s.out c) := by
  have hk := Config.params.nMax_le
  have h0 : AtData 0 (enterData (writeHeader s)) := ⟨by simp, by simpa using writeHeader_wp_toNat hw⟩
  obtain ⟨h1, h2⟩ := read_writeHeader hw
  have hr : ∀ c, Memory.read (runEncoder s).out c =
      if 44 ≤ c ∧ c < 44 + 2 * s.n.toNat then
        some (BitVec.ofNat 8 ((smpRead s ((c - 44) / 2)).toNat / 256 ^ ((c - 44) % 2)))
      else Memory.read (writeHeader s).out c := fun c => by
    have := read_encodeLoop h0 s.n.toNat (by omega) c
    rw [Nat.zero_add] at this
    simpa [runEncoder, smpRead] using this
  refine ⟨fun f hf j hj => ?_, fun k hk j hj => ?_, fun c hc => ?_⟩
  · have hlt : f.offset + f.size ≤ 44 := by
      simp only [headerFields, List.mem_cons, List.not_mem_nil, or_false] at hf
      rcases hf with rfl | rfl | rfl | rfl | rfl | rfl | rfl | rfl | rfl | rfl | rfl | rfl | rfl <;> simp
    rw [hr, if_neg (by omega), h1 f hf j hj]
  · rw [hr, if_pos (by omega), show (44 + 2 * k + j - 44) / 2 = k by omega, show (44 + 2 * k + j - 44) % 2 = j by omega]
  · rw [hr, if_neg (by omega), h2 c (by omega)]

theorem runEncoder_wf (s : State) (h : Memory.wf s.out = true) : Memory.wf (runEncoder s).out = true := by
  rw [runEncoder, finishEncoder_out]
  exact encodeLoop_wf _ _ (by rw [enterData_out]; exact writeFields_wf _ _ h)

/-- The bytes `MemWrite` leaves depend on the bytes before alone. -/
theorem memWrite_out_congr {s t : State} (h : s.out = t.out) (addr n v : Nat) :
    (memWrite s addr n v).out = (memWrite t addr n v).out := by
  induction n generalizing s t addr v with
  | zero => exact h
  | succ n ih => exact ih (by simp [h]) _ _

theorem writeFields_congr {s t : State} (fs : List HeaderField) (h : s.out = t.out) (hw : s.wp = t.wp) :
    (fs.foldl writeField s).out = (fs.foldl writeField t).out ∧ (fs.foldl writeField s).wp = (fs.foldl writeField t).wp := by
  induction fs generalizing s t with
  | nil => exact ⟨h, hw⟩
  | cons f fs ih =>
    refine ih ?_ ?_
    · simp only [writeField_eq, hw, memWrite_out_congr h]
    · simp only [writeField_eq, hw]

theorem encodeLoop_congr {s t : State} (k : Nat) (h : s.out = t.out) (hw : s.wp = t.wp) (hi : s.idx = t.idx)
    (hs : s.smp = t.smp) (he : s.epoch = t.epoch) : (encodeLoop k s).out = (encodeLoop k t).out := by
  induction k generalizing s t with
  | zero => exact h
  | succ k ih =>
    exact ih (by simp only [encodeSample_out, smpRead, hw, hi, hs, he, memWrite_out_congr h]) (by simp [hw]) (by simp [hi])
      (by simp [hs]) (by simp [he])

/-- The file depends on the configuration the encoder reads, N, WP, SMP and what OUT held: on nothing else. -/
theorem runEncoder_out_congr {s t : State} (h1 : s.sampleRate = t.sampleRate) (h2 : s.bitDepth = t.bitDepth)
    (h3 : s.channels = t.channels) (h4 : s.n = t.n) (h5 : s.wp = t.wp) (h6 : s.smp = t.smp) (h7 : s.out = t.out)
    (h8 : s.epoch = t.epoch) : (runEncoder s).out = (runEncoder t).out := by
  have hh : headerFields s = headerFields t := by
    simp [headerFields, riffChunkSize, dataSize, byteRate, blockAlign, operandS, operandB, operandC, h1, h2, h3, h4]
  obtain ⟨ho, hw⟩ := writeFields_congr (headerFields s) h7 h5
  simp only [runEncoder, finishEncoder_out, enterData_n, writeHeader_n, h4]
  refine encodeLoop_congr _ ?_ ?_ (by simp) (by simp [h6]) (by simp [h8])
  · simpa [writeHeader, ← hh] using ho
  · simpa [writeHeader, ← hh] using hw

end Sys2Proof.Machine
end

