-- ==== Sys2Proof/Laws/Step.lean ====
section
/-! SUPPORT. What a step can do, said once: one inversion lemma for the sequencer, for a write to CMD, for a host
transaction and for a step. -/

namespace Sys2Proof.Machine

/-- Everything a micro-step can do (`10_state.md` rule R31). -/
theorem microStep_next {P : Params} {s t : State} (h : microStep P s = .next t) :
    (s.seq = .idle ∧ t = s) ∨
    (s.seq = .genLoop ∧ s.idx.toNat < s.n.toNat ∧ t = generateSample P s) ∨
    (s.seq = .genLoop ∧ s.idx = s.n ∧ s.op = .gen ∧ t = finishGenerator s) ∨
    (s.seq = .genLoop ∧ s.idx = s.n ∧ s.op = .syn ∧ t = turnToEncoder s) ∨
    (s.seq = .encHeader ∧ s.wp.toNat = 44 ∧ t = enterData s) ∨
    (s.seq = .encHeader ∧ s.wp.toNat ≠ 44 ∧ ∃ f ∈ headerFields s, f.offset = s.wp.toNat ∧ t = writeField s f) ∨
    (s.seq = .encData ∧ s.idx.toNat < s.n.toNat ∧ t = encodeSample s) ∨
    (s.seq = .encData ∧ s.idx = s.n ∧ t = finishEncoder s) := by
  unfold microStep at h
  split at h
  case h_1 hs => simp_all
  case h_2 hs =>
    split_ifs at h with h1 h2
    · simp_all
    · unfold leaveGenLoop at h
      split at h <;> simp_all
  case h_3 hs =>
    split_ifs at h with h1
    · simp_all [headerSize]
    · split at h
      case h_1 f hf =>
        have hm := List.mem_of_find?_eq_some hf
        have ho := List.find?_some hf
        simp only [beq_iff_eq] at ho
        have ht : t = writeField s f := by simpa using h.symm
        exact .inr (.inr (.inr (.inr (.inr (.inl ⟨hs, h1, f, hm, ho, ht⟩)))))
      case h_2 => simp at h
  case h_4 hs =>
    split_ifs at h with h1 h2
    · simp_all
    · simp_all

/-- Everything a host write to CMD can do (`30_encoding.md` rule R102). -/
theorem writeCommand_next {P : Params} {w : Word} {s t : State} (h : writeCommand P w s = .next t) :
    (∃ e, decode w = .error e ∧ t = raise none .illegalCommand .opcode s) ∨
    (∃ i, decode w = .ok i ∧ s.granularity = .command ∧ exec i s = .next t) ∨
    (∃ i, decode w = .ok i ∧ s.granularity = .microStep ∧ t = startCommand P i s) := by
  unfold writeCommand at h
  split at h
  case h_1 e he => exact .inl ⟨e, he, by simpa using h.symm⟩
  case h_2 i hi =>
    split at h
    case h_1 hg => exact .inr (.inl ⟨i, hi, hg, h⟩)
    case h_2 hg => exact .inr (.inr ⟨i, hi, hg, by simpa using h.symm⟩)

/-- Everything a host transaction can do (`30_encoding.md` rules R91 to R93, `70_reset_and_hazards.md` rule R215). -/
theorem hostTransaction_next {P : Params} {x : Transaction} {s t : State} (h : hostTransaction P x s = .next t) :
    (∃ off w, x = .regWrite off w ∧ s.status.busy = true ∧ t = s) ∨
    (∃ off w r, x = .regWrite off w ∧ Reg.ofOffset off = some r ∧ r ≠ .cmd ∧ s.status.busy = false ∧ t = writeReg s r w) ∨
    (∃ off w, x = .regWrite off w ∧ Reg.ofOffset off = some .cmd ∧ s.status.busy = false ∧ writeCommand P w s = .next t) ∨
    (∃ off r, x = .regRead off ∧ Reg.ofOffset off = some r ∧ t = hostReadReg r s) ∨
    (∃ k w, x = .smpWrite k w ∧ k < P.nMax ∧ s.status.busy = false ∧ t = smpWrite s k w) ∨
    (∃ k, x = .smpRead k ∧ k < P.nMax ∧ s.status.busy = false ∧ t = reply (.sample (smpRead s k)) s) ∨
    (∃ a, x = .outRead a ∧ a < P.outCap ∧ s.status.busy = false ∧ t = reply (.byte (outRead s a)) s) := by
  unfold hostTransaction at h
  split_ifs at h with hwf
  cases x with
  | regWrite off w =>
    simp only at h
    split at h
    case h_1 r hr =>
      unfold hostWriteReg at h
      cases hb : s.status.busy
      · cases r <;> simp_all
      · simp_all
    case h_2 => simp at h
  | regRead off =>
    simp only at h
    split at h <;> simp_all
  | smpWrite k w =>
    simp only [Transaction.wf, decide_eq_true_eq] at hwf
    cases hb : s.status.busy <;> simp_all [bufferAccess]
  | smpRead k =>
    simp only [Transaction.wf, decide_eq_true_eq] at hwf
    cases hb : s.status.busy <;> simp_all [bufferAccess]
  | outRead a =>
    simp only [Transaction.wf, decide_eq_true_eq] at hwf
    cases hb : s.status.busy <;> simp_all [bufferAccess]

/-- A step on a host transaction is that transaction. -/
theorem step_of_nextIs {s : State} {x : Transaction} {rest : List Event} (h : NextIs s x rest) :
    step s = hostTransaction Config.params x { s with inbox := rest } := by
  obtain ⟨e, hi, he⟩ := h
  cases e <;> simp_all [eventTransaction, step, advance, handle]

/-- A command that fails a check is raised (`60_exceptions.md` rule R193). -/
theorem exec_of_validate_some {i : Instr} {s : State} {c : Check} (h : validate Config.params i s = some c) :
    exec i s = .next (raise (some i) c.result c.cause s) := by
  cases i <;> simp [exec, execGen, execEnc, execSyn, generate, encodeFile, synthesise, h]

/-- Everything a step can do: a micro-step when nothing waits, else the oldest event. -/
theorem step_next {s t : State} (h : step s = .next t) :
    (s.inbox = [] ∧ microStep Config.params s = .next t) ∨
    (∃ rest, s.inbox = .tick :: rest ∧ microStep Config.params { s with inbox := rest } = .next t) ∨
    (∃ rest, s.inbox = .reset :: rest ∧ t = applyReset { s with inbox := rest }) ∨
    (∃ e rest x, s.inbox = e :: rest ∧ eventTransaction e = some x ∧
      hostTransaction Config.params x { s with inbox := rest } = .next t) := by
  unfold step advance at h
  split at h
  case h_1 hi => exact .inl ⟨hi, h⟩
  case h_2 e rest hi =>
    cases e with
    | host x => exact .inr (.inr (.inr ⟨_, rest, x, hi, rfl, h⟩))
    | access a =>
      simp only [handle] at h
      split at h
      case h_1 x hx => exact .inr (.inr (.inr ⟨_, rest, x, hi, hx, h⟩))
      case h_2 => simp at h
    | reset => exact .inr (.inr (.inl ⟨rest, hi, by simpa [handle] using h.symm⟩))
    | tick => exact .inr (.inl ⟨rest, hi, h⟩)

end Sys2Proof.Machine
end

