-- ==== Sys2Proof/Laws/Commands.lean ====
section
/-! SUPPORT. Each command when its configuration passes validation, and when it does not: the two ways a command can
end. -/

namespace Sys2Proof.Machine

/-- GEN on a configuration that passes its checks. -/
theorem execGen_of_ready {s : State} (h : GenReady s) : exec .gen s =
    .next (finishGenerator (generateLoop Config.params (operandD s).toNat (startGenerator .gen s))) := by
  have hv := (validate_none_iff .gen s).2 h
  simp only [exec, execGen, generate, hv, startGenerator_n_toNat h.2.2.2.2]

/-- ENC on a configuration that passes its checks. -/
theorem execEnc_of_ready {s : State} (h : EncReady s) : exec .enc s = .next (runEncoder (startEncoder s)) := by
  have hv := (validate_none_iff .enc s).2 h
  simp only [exec, execEnc, encodeFile, hv]

/-- SYN on a configuration that passes its checks. -/
theorem execSyn_of_ready {s : State} (h : SynReady s) : exec .syn s =
    .next (runEncoder (turnToEncoder
      (generateLoop Config.params (operandD s).toNat (startGenerator .syn s)))) := by
  have hv := (validate_none_iff .syn s).2 h
  simp only [exec, execSyn, synthesise, hv, startGenerator_n_toNat h.2.2.2.2.2]

/-- A command on a configuration that fails a check. -/
theorem exec_of_not_ready {i : Instr} {s : State} (h : ¬ Ready i s) :
    ∃ c, validate Config.params i s = some c ∧ exec i s = .next (raise (some i) c.result c.cause s) := by
  cases hv : validate Config.params i s with
  | some c => exact ⟨c, rfl, exec_of_validate_some hv⟩
  | none => exact absurd ((validate_none_iff i s).1 hv) h

/-- The cells the generator leaves: the closed form of `40_generator.md` rule R126. -/
theorem read_generator {s : State} (i : Instr) (hS : 0 < operandS s) (hN : operandD s ≤ Config.params.nMax) (c : Nat) :
    Memory.read (generateLoop Config.params (operandD s).toNat (startGenerator i s)).smp c =
      if c < (operandD s).toNat then some (BitVec.ofInt 16 (sampleOf s c)) else Memory.read s.smp c := by
  have hm := nMax_lt
  rw [read_generateLoop (atSample_start i hS) _ (by omega)]
  simp [sampleOf, sampleAt, phaseOf]

/-- The count the generator stores in SMP_LEN is the word of DURATION. -/
theorem sampleCount_eq_duration {s : State} (i : Instr) (h0 : 0 ≤ operandD s) (hN : operandD s ≤ Config.params.nMax) :
    (startGenerator i s).n.setWidth 32 = s.duration := by
  apply BitVec.eq_of_toNat_eq
  have h := toNat_of_toInt_nonneg s.duration h0
  rw [BitVec.toNat_setWidth, startGenerator_n_toNat hN]
  simp only [operandD] at *
  omega

/-- After validation blockAlign is 2 (`41_encoder.md` rule R142). -/
theorem blockAlign_eq_two {s : State} (hB : operandB s = 16) (hC : operandC s = 1) : blockAlign s = 2 := by
  simp [blockAlign, hB, hC]

/-- OUT_LEN holds the file length exactly (`41_encoder.md` rules R143, R159). -/
theorem fileLength_toNat {s : State} (hB : operandB s = 16) (hC : operandC s = 1)
    (hn : s.n.toNat ≤ Config.params.nMax) : (BitVec.ofNat 32 (44 + dataSize s)).toNat = 44 + 2 * s.n.toNat := by
  have := Config.params.nMax_le
  rw [BitVec.toNat_ofNat, dataSize, blockAlign_eq_two hB hC]
  omega

/-- The derived quantities after validation (`41_encoder.md` rule R142). -/
theorem derivedQuantities {s : State} (hB : operandB s = 16) (hC : operandC s = 1) :
    dataSize s = 2 * s.n.toNat ∧ byteRate s = 2 * (operandS s).toNat ∧ riffChunkSize s = 36 + 2 * s.n.toNat := by
  have hd : dataSize s = 2 * s.n.toNat := by rw [dataSize, blockAlign_eq_two hB hC]; omega
  exact ⟨hd, by rw [byteRate, blockAlign_eq_two hB hC]; omega, by rw [riffChunkSize, hd]⟩

/-- The file the encoder's body leaves, its fields read back as integers. -/
theorem runEncoder_fields {s : State} (hw : s.wp = 0) (hB : operandB s = 16) (hC : operandC s = 1)
    (hN : s.n.toNat ≤ Config.params.nMax) :
    let t := runEncoder s
    (memRead t 0 4 = 0x46464952 ∧ memRead t 4 4 = 36 + 2 * s.n.toNat ∧ memRead t 8 4 = 0x45564157 ∧
      memRead t 12 4 = 0x20746D66 ∧ memRead t 16 4 = 16 ∧ memRead t 20 2 = 1 ∧ memRead t 22 2 = 1) ∧
    (memRead t 24 4 = (operandS s).toNat ∧ memRead t 28 4 = 2 * (operandS s).toNat ∧ memRead t 32 2 = 2 ∧
      memRead t 34 2 = 16 ∧ memRead t 36 4 = 0x61746164 ∧ memRead t 40 4 = 2 * s.n.toNat) ∧
    (∀ i < s.n.toNat, memRead t (44 + 2 * i) 2 = (smpRead s i).toNat) := by
  intro t
  have hm := Config.params.nMax_le
  have hSl := operandS_lt s
  obtain ⟨hd, hbr, hrc⟩ := derivedQuantities hB hC
  obtain ⟨h1, h2, -⟩ := read_runEncoder hw hN
  simp only [headerFields, hB, hC, blockAlign_eq_two hB hC, hd, hbr, hrc, List.forall_mem_cons] at h1
  obtain ⟨f0, f1, f2, f3, f4, f5, f6, f7, f8, f9, f10, f11, f12, -⟩ := h1
  exact ⟨⟨memRead_of_bytes (by norm_num) f0, memRead_of_bytes (by norm_num; omega) f1,
      memRead_of_bytes (by norm_num) f2, memRead_of_bytes (by norm_num) f3, memRead_of_bytes (by norm_num) f4,
      memRead_of_bytes (by norm_num) f5, memRead_of_bytes (by norm_num) f6⟩,
    ⟨memRead_of_bytes (by norm_num; omega) f7, memRead_of_bytes (by norm_num; omega) f8,
      memRead_of_bytes (by norm_num) f9, memRead_of_bytes (by norm_num) f10, memRead_of_bytes (by norm_num) f11,
      memRead_of_bytes (by norm_num; omega) f12⟩,
    fun i hi => memRead_of_bytes (by have := (smpRead s i).isLt; norm_num at *; omega) (h2 i hi)⟩

end Sys2Proof.Machine
end

