-- ==== Sys2Proof/Laws/Invariant.lean ====
section
/-! SUPPORT. What the parts of the invariant depend on, what readiness of a command gives, and that the loops store only
inside their spaces. -/

namespace Sys2Proof.Machine

/-- Readiness looks at the configuration and SMP_LEN only. -/
theorem ready_congr {i : Instr} {s t : State} (hS : t.sampleRate = s.sampleRate) (hB : t.bitDepth = s.bitDepth)
    (hF : t.freq = s.freq) (hD : t.duration = s.duration) (hC : t.channels = s.channels) (hL : t.smpLen = s.smpLen) :
    Ready i t ↔ Ready i s := by
  cases i <;>
    simp [Ready, GenReady, EncReady, SynReady, operandS, operandB, operandF, operandD, operandC, operandL, *]

/-- The sample count of a command looks at DURATION and SMP_LEN only. -/
theorem operandCount_congr {i : Instr} {s t : State} (hD : t.duration = s.duration) (hL : t.smpLen = s.smpLen) :
    operandCount i t = operandCount i s := by
  cases i <;> simp [operandCount, operandD, operandL, *]

/-- Popping the inbox does not touch what the invariant says of the command that executes. -/
theorem insideCommand_inbox (s : State) (l : List Event) : InsideCommand { s with inbox := l } ↔ InsideCommand s := by
  obtain ⟨st, S, B, F, D, C, sl, ol, seq, op, rest⟩ := s
  cases seq <;> cases op <;> rfl

/-- A read of a register does not touch what the invariant says of the command that executes. -/
theorem insideCommand_reply (s : State) (l : List Reply) (k : Nat) :
    InsideCommand { s with replies := l, draws := k } ↔ InsideCommand s := by
  obtain ⟨st, S, B, F, D, C, sl, ol, seq, op, rest⟩ := s
  cases seq <;> cases op <;> rfl

theorem ready_operandS {i : Instr} {s : State} (h : Ready i s) : 0 < operandS s := by cases i <;> exact h.1

theorem ready_operandCount {i : Instr} {s : State} (h : Ready i s) :
    0 ≤ operandCount i s ∧ operandCount i s ≤ Config.params.nMax := by
  cases i
  · exact ⟨h.2.2.1, h.2.2.2.2⟩
  · exact ⟨h.2.1, h.2.2.2.2⟩
  · exact ⟨h.2.2.1, h.2.2.2.2.2⟩

theorem ready_operandB {i : Instr} {s : State} (h : Ready i s) : operandB s = 16 := by
  cases i
  · exact h.2.2.2.1
  · exact h.2.2.1
  · exact h.2.2.2.1

theorem ready_operandC {i : Instr} {s : State} (h : Ready i s) (hi : i ≠ .gen) : operandC s = 1 := by
  cases i
  · contradiction
  · exact h.2.2.2.1
  · exact h.2.2.2.2.1

/-- The generator's loop stores inside SMP (`20_memory.md` rule R64). -/
theorem generateLoop_below (k : Nat) (s : State) (hb : s.idx.toNat + k ≤ Config.params.nMax)
    (h : Memory.below Config.params.nMax s.smp = true) :
    Memory.below Config.params.nMax (generateLoop Config.params k s).smp = true := by
  have := nMax_lt
  induction k generalizing s with
  | zero => exact h
  | succ k ih =>
    refine ih _ ?_ (Memory.below_write _ (by omega) h)
    rw [generateSample_idx, BitVec.toNat_add, Nat.mod_eq_of_lt (by simp; omega)]
    simp; omega

/-- The encoder's loop stores inside OUT. -/
theorem encodeLoop_below (k : Nat) (s : State) (hb : s.wp.toNat + 2 * k ≤ Config.params.outCap)
    (h : Memory.below Config.params.outCap s.out = true) :
    Memory.below Config.params.outCap (encodeLoop k s).out = true := by
  have := Config.params.nMax_le
  simp only [Params.outCap] at hb
  induction k generalizing s with
  | zero => exact h
  | succ k ih =>
    refine ih _ ?_ ?_
    · rw [encodeSample_wp, BitVec.toNat_add, Nat.mod_eq_of_lt (by simp; omega)]
      simp; omega
    · rw [encodeSample_out]; exact memWrite_below _ _ _ _ (by simp only [Params.outCap]; omega) h

/-- Header fields store inside OUT. -/
theorem writeFields_below {start stop : Nat} {fs : List HeaderField} {s : State} (hf : fieldsFrom start stop fs)
    (hw : s.wp.toNat = start) (hs : stop ≤ Config.params.outCap)
    (h : Memory.below Config.params.outCap s.out = true) :
    Memory.below Config.params.outCap (fs.foldl writeField s).out = true := by
  have := Config.params.nMax_le
  have h2 : stop < 2 ^ 32 := by simp only [Params.outCap] at hs; omega
  induction fs generalizing s start with
  | nil => exact h
  | cons f fs ih =>
    have hle := fieldsFrom_le hf.2
    refine ih hf.2 ?_ ?_
    · rw [writeField_eq, BitVec.toNat_add, hw, BitVec.toNat_ofNat]; omega
    · rw [writeField_eq]; exact memWrite_below _ _ _ _ (by omega) h

/-- The encoder's body stores inside OUT. -/
theorem runEncoder_below {s : State} (hw : s.wp = 0) (hn : s.n.toNat ≤ Config.params.nMax)
    (h : Memory.below Config.params.outCap s.out = true) :
    Memory.below Config.params.outCap (runEncoder s).out = true := by
  have := Config.params.nMax_le
  rw [runEncoder, finishEncoder_out]
  refine encodeLoop_below _ _ ?_ ?_
  · rw [enterData_wp, writeHeader_wp_toNat hw]; simp [Params.outCap]; omega
  · rw [enterData_out]; exact writeFields_below (headerFields_from s) (by simp [hw]) (by simp [Params.outCap]) h

end Sys2Proof.Machine
end

