-- ==== Sys2Proof/Laws/PerInstr.lean ====
section
/-! SUPPORT. Statements made command by command. -/

namespace Sys2Proof.Laws.EncodingShape

/-- The word of a command has ZERO = 0 and its opcode, 1 to 3, in OPC (`30_encoding.md` rules R94, R95). -/
def Statement (i : Instr) : Prop :=
  commandZero (encode i) = 0 ∧ (commandOpc (encode i)).toNat = i.opcode ∧ 1 ≤ i.opcode ∧ i.opcode ≤ 3

theorem gen : Statement .gen := by unfold Statement; decide

theorem enc : Statement .enc := by unfold Statement; decide

theorem syn : Statement .syn := by unfold Statement; decide

end Sys2Proof.Laws.EncodingShape
end

