-- ==== Sys2Proof/Tests/Slice0.lean ====
section
/-! SUPPORT. Small tests, with expected results from the spec's encodings and test vectors, and for every statement with
hypotheses a concrete state that meets them all. -/

namespace Sys2Proof.Tests

open Sys2Proof Sys2Proof.Machine

/-- The reset state with SAMPLE_RATE, FREQ, DURATION and SMP_LEN written. -/
def configured (rate freq duration smpLen : Word) : State :=
  { State.reset with sampleRate := rate, freq := freq, duration := duration, smpLen := smpLen }

/-- The configuration of V-SYN-3: one sample at 1 Hz; SMP_LEN 1 for ENC. -/
def one : State := configured 1 0x00010000 1 1

/-- A state with events waiting. -/
def waiting (s : State) (l : List Event) : State := { s with inbox := l }

/-! ### Well-formedness: each check refuses a term it should -/

theorem test_wf_command_zero_field : isCommandWord 0x00000101 = false := by decide
theorem test_wf_command_opcode : isCommandWord 0x00000004 = false := by decide
theorem test_wf_write_offset : Transaction.wf .reference (.regWrite 0x24 0) = false := by decide
theorem test_wf_read_offset : Transaction.wf .reference (.regRead 0x02) = false := by decide
theorem test_wf_sample_write_index : Transaction.wf .reference (.smpWrite 65536 0) = false := by decide
theorem test_wf_sample_read_index : Transaction.wf .reference (.smpRead 65536) = false := by decide
theorem test_wf_byte_address : Transaction.wf .reference (.outRead 131116) = false := by decide
theorem test_wf_accepts : [Transaction.regWrite 0x20 0, .regRead 0x04, .smpWrite 65535 0, .smpRead 65535,
    .outRead 131115].all (Transaction.wf .reference) = true := by decide

/-! ### Decoding: words from the encoding table of rule R95, and V-D-4 to V-D-10 -/

theorem test_decode_gen : decode 0b00000000000000000000000000000001 = .ok .gen := rfl
theorem test_decode_enc : decode 0b00000000000000000000000000000010 = .ok .enc := rfl
theorem test_decode_syn : decode 0b00000000000000000000000000000011 = .ok .syn := rfl
theorem test_decode_illegal : [0x00000000, 0x00000004, 0x000000FF, 0x00000101, 0x00010001, 0x80000001,
    0xFFFFFFFF].all (fun w : Nat => decodeTableWord 32 w == none) = true := by decide
theorem test_encode : [Instr.gen, .enc, .syn].map encode = [0x00000001, 0x00000002, 0x00000003] := by decide

/-! ### The sub-blocks: V-Q, V-S, V-A -/

theorem test_quant : [(16384, 0), (16385, 1), (-16385, -1), (536870911, 16383), (536870912, 16384), (-536870912, -16384),
    (1073758208, 32767), (1073758209, 32767), (-1073758208, -32767), (-1073758209, -32768),
    (-1073790978, -32768), (2147483647, 32767), (-2147483648, -32768)].all
      (fun e : Int × Int => quant e.1 == e.2) = true := by decide
theorem test_sine_eighth : Sine.reference 393216000 3145728000 = 759250125 :=
  (Sine.reference_eq_taylor ⟨by norm_num, by norm_num, by norm_num, by norm_num⟩ (by decide)).trans (by decide)
theorem test_sine_backwards : Sine.reference 65533 65536 = -308831 :=
  (Sine.reference_eq_taylor ⟨by norm_num, by norm_num, by norm_num, by norm_num⟩ (by decide)).trans (by decide)
theorem test_accumulator_wraps : nextAcc 2883584000 28835840 2890137600 = 22282240 := by decide

/-! ### GEN, ENC, SYN -/

/-- V-GEN-1, its first two samples. -/
theorem test_gen_samples :
    let t := generate .computable (configured 8000 0x03E80000 2 0)
    t.smp = [(0, 0x0000), (1, 0x5A82)] ∧ t.smpLen = 2 ∧ t.status.word = 0x010 := by decide

/-- V-GEN-7, its second row: the phase runs backwards. -/
theorem test_gen_backwards :
    (generate .computable (configured 1 0x7FFFFFFF 4 0)).smp = [(0, 0), (1, 0xFFFD), (2, 0xFFFA), (3, 0xFFF7)] := by decide

/-- V-ENC-1 with its last two samples only: the bytes from offset 22 on. -/
theorem test_enc_file :
    let t := encodeFile .computable { configured 8000 0 0 2 with smp := [(0, 0x8000), (1, 0x1234)] }
    t.out.drop 22 = [(22, 0x01), (23, 0x00), (24, 0x40), (25, 0x1F), (26, 0x00), (27, 0x00), (28, 0x80), (29, 0x3E),
      (30, 0x00), (31, 0x00), (32, 0x02), (33, 0x00), (34, 0x10), (35, 0x00), (36, 0x64), (37, 0x61), (38, 0x74),
      (39, 0x61), (40, 0x04), (41, 0x00), (42, 0x00), (43, 0x00), (44, 0x00), (45, 0x80), (46, 0x34), (47, 0x12)] ∧
    t.outLen = 48 := by decide

/-- V-ENC-3: the largest sample rate, no byte of ByteRate lost. -/
theorem test_enc_byte_rate :
    let t := encodeFile .computable (configured 0x7FFFFFFF 0 0 0)
    memRead t 24 4 = 0x7FFFFFFF ∧ memRead t 28 4 = 0xFFFFFFFE ∧ t.outLen = 44 := by decide

/-- V-SYN-2, DURATION 2: the tags, the sizes and the data. -/
theorem test_syn_file :
    let t := synthesise .computable (configured 8000 0x03E80000 2 0)
    t.out.map Prod.snd = [0x52, 0x49, 0x46, 0x46, 0x28, 0x00, 0x00, 0x00, 0x57, 0x41, 0x56, 0x45, 0x66, 0x6D, 0x74, 0x20,
      0x10, 0x00, 0x00, 0x00, 0x01, 0x00, 0x01, 0x00, 0x40, 0x1F, 0x00, 0x00, 0x80, 0x3E, 0x00, 0x00,
      0x02, 0x00, 0x10, 0x00, 0x64, 0x61, 0x74, 0x61, 0x04, 0x00, 0x00, 0x00, 0x00, 0x00, 0x82, 0x5A] ∧
    t.outLen = 48 ∧ t.smpLen = 2 := by decide

/-- V-SYN-5: the header is done after 17 micro-steps from the start. -/
theorem test_syn_trace :
    (match runMicro .computable 17 (startCommand .computable .syn (configured 8000 0x03E80000 2 0)) with
      | .next t => t.seq == .encData && t.wp == 44 && t.idx == 0 && t.smpLen == 2 | _ => false) = true := by decide

/-- V-SYN-5, DURATION 0: the command ends after `0 + 1 + 13 + 1 + 0 + 1` micro-steps. -/
theorem test_syn_trace_end :
    (match runMicro .computable 16 (startCommand .computable .syn (configured 8000 0x03E80000 0 0)) with
      | .next t => t.seq == .idle && t.outLen == 44 && t.status.word == 0x010 | _ => false) = true := by decide

/-- V-E-28 under each command: the order of the checks. -/
theorem test_check_order : [Instr.gen, .enc, .syn].map
    (fun i => (startCommand .computable i { one with bitDepth := 8, channels := 0 }).status.word) =
      [0x440, 0x520, 0x520] := by decide

/-- V-E-22, V-E-24: the capacity, and which length registers become 0. -/
theorem test_capacity :
    let s := { configured 8000 0x03E80000 65537 65537 with outLen := 60 }
    let f := fun i => let t := startCommand .computable i s; (t.status.word, t.smpLen, t.outLen)
    f .gen = (0x630, 0, 60) ∧ f .enc = (0x630, 65537, 0) ∧ f .syn = (0x630, 0, 0) := by decide

/-! ### Steps -/

/-- V-T-1: what every register reads as after reset. -/
theorem test_reset_registers : [Reg.cmd, .status, .sampleRate, .bitDepth, .freq, .duration, .channels, .smpLen,
    .outLen].map (readReg State.reset) = [0, 0, 0, 16, 0, 0, 1, 0, 0] := by decide

/-- The first command after reset, before any configuration (rule R38). -/
theorem test_step_first_command : [1, 2, 3].all (fun w => match step (State.reset.withFetchWord 32 w) with
    | .next t => t.status.word == 0x120 && t.inbox == [] | _ => false) = true := by decide

/-- V-D-7 as a step. -/
theorem test_step_illegal : (match step (State.reset.withFetchWord 32 0x101) with
    | .next t => t.status.word == 0x750 | _ => false) = true := by decide

/-- A misaligned register read is refused (rule R69). -/
theorem test_step_refuses :
    step (waiting State.reset [.host (.regRead 0x02)]) = .refused .undefinedTransaction := rfl

/-! ### Witnesses: states that meet the hypotheses of the statements -/

theorem one_gen_ready : GenReady one :=
  ⟨by decide, by decide, by decide, by decide, by
    have h : operandD one = 1 := by decide
    have := Config.params.nMax_pos
    omega⟩

theorem one_enc_ready : EncReady one :=
  ⟨by decide, by decide, by decide, by decide, by
    have h : operandL one = 1 := by decide
    have := Config.params.nMax_pos
    omega⟩

theorem one_syn_ready : SynReady one :=
  ⟨by decide, by decide, by decide, by decide, by decide, one_gen_ready.2.2.2.2⟩

/-- SYN started on `one`: BUSY, in GEN_LOOP, no sample stored yet. -/
def busyOne : State := startGenerator .syn one

theorem busyOne_inv : BlockInv busyOne where
  smp_wf := rfl
  smp_below := rfl
  out_wf := rfl
  out_below := rfl
  outLen_le := Nat.zero_le _
  status_legal := by decide
  busy_iff := by decide
  inside := ⟨by decide, one_syn_ready, by decide, by decide, by decide, by decide, by decide, rfl⟩

/-- ENC started on `one`: BUSY, in ENC_HEADER at WP = 0. -/
def busyEnc : State := startEncoder one

theorem busyEnc_inv : BlockInv busyEnc where
  smp_wf := rfl
  smp_below := rfl
  out_wf := rfl
  out_below := rfl
  outLen_le := Nat.zero_le _
  status_legal := by decide
  busy_iff := by decide
  inside := ⟨by decide, one_enc_ready, by decide, by decide, by decide⟩

theorem inv_waiting {s : State} (h : BlockInv s) (l : List Event) : BlockInv (waiting s l) :=
  ⟨h.smp_wf, h.smp_below, h.out_wf, h.out_below, h.outLen_le, h.status_legal, h.busy_iff,
    (insideCommand_inbox s l).2 h.inside⟩

theorem nextIs_host (s : State) (x : Transaction) (l : List Event) : NextIs (waiting s (.host x :: l)) x l :=
  ⟨.host x, rfl, rfl⟩

/-- ResetAbandonsEverything: a reset in the middle of a command. -/
theorem test_witness_reset : (waiting busyOne [.reset]).inbox = .reset :: [] ∧ busyOne.status.busy = true := ⟨rfl, rfl⟩

/-- DecodeEncodeRoundTrip. -/
theorem test_witness_round_trip : Instr.gen.wf = true ∧ Instr.enc.wf = true ∧ Instr.syn.wf = true := by decide

/-- CommandWriteRunsDecodedInstruction, in both views. -/
theorem test_witness_command_write :
    let s := waiting one [.host (.regWrite 0x00 3)]
    NextIs s (.regWrite 0x00 3) [] ∧ s.status.busy = false ∧ decode 3 = .ok .syn ∧ s.granularity = .command ∧
      ({ s with granularity := .microStep } : State).granularity = .microStep :=
  ⟨nextIs_host _ _ _, rfl, rfl, rfl, rfl⟩

/-- IllegalWordWritesStatusOnly: the words next to the three commands, and one with ZERO set. -/
theorem test_witness_illegal_word : ∀ w ∈ [0x00000000#32, 0x00000004#32, 0x00000101#32],
    w ≠ 0x00000001 ∧ w ≠ 0x00000002 ∧ w ≠ 0x00000003 ∧
      NextIs (waiting one [.host (.regWrite 0x00 w)]) (.regWrite 0x00 w) [] ∧ one.status.busy = false := by
  intro w hw
  simp only [List.mem_cons, List.not_mem_nil, or_false] at hw
  rcases hw with rfl | rfl | rfl <;> exact ⟨by decide, by decide, by decide, nextIs_host _ _ _, rfl⟩

/-- GenValidation, SynValidation: each clause at a boundary, all other operands those of `one`. -/
theorem test_witness_validation :
    operandS { one with sampleRate := 0 } ≤ 0 ∧ operandF { one with freq := 0 } ≤ 0 ∧
    operandD { one with duration := 0xFFFFFFFF } < 0 ∧ operandB { one with bitDepth := 0 } ≤ 0 ∧
    operandB { one with bitDepth := 17 } % 8 ≠ 0 ∧
    (operandB { one with bitDepth := 8 } = 8) ∧ (operandB { one with bitDepth := 24 } = 24) ∧
    operandC { one with channels := 0 } < 1 ∧ operandC { one with channels := 2 } = 2 ∧
    (Config.params.nMax : Int) < operandD { one with duration := 0x7FFFFFFF } ∧
    0 < operandS one ∧ 0 < operandF one ∧ 0 ≤ operandD one ∧ operandB one = 16 ∧ operandC one = 1 := by
  have h : operandD { one with duration := 0x7FFFFFFF } = 2147483647 := by decide
  have := Config.params.nMax_le
  refine ⟨by decide, by decide, by decide, by decide, by decide, by decide, by decide, by decide, by decide, ?_,
    by decide, by decide, by decide, by decide, by decide⟩
  omega

/-- EncValidation: the clauses about SMP_LEN; the others are those of `test_witness_validation`. -/
theorem test_witness_enc_validation :
    operandL { one with smpLen := 0xFFFFFFFF } < 0 ∧
    (Config.params.nMax : Int) < operandL { one with smpLen := 0x7FFFFFFF } ∧ 0 ≤ operandL one := by
  have h : operandL { one with smpLen := 0x7FFFFFFF } = 2147483647 := by decide
  have := Config.params.nMax_le
  refine ⟨by decide, ?_, by decide⟩
  omega

/-- GenValidation, EncValidation, the last clauses; GenFrame, EncFrame, SynFrame: every command answers a next state. -/
theorem test_witness_next (i : Instr) : ∃ t, exec i one = .next t := by cases i <;> exact ⟨_, rfl⟩

/-- SampleRateNotPositive, at both boundaries. -/
theorem test_witness_sample_rate :
    operandS { one with sampleRate := 0 } ≤ 0 ∧ operandS { one with sampleRate := 0x80000000 } ≤ 0 := by decide

/-- FirstFailingCheckIsReported: two checks fail and the first is found. -/
theorem test_witness_first_failing :
    validate Config.params .syn { one with bitDepth := 12, channels := 0 } = some .bitDepth ∧
    Check.channels.fails Config.params .syn { one with bitDepth := 12, channels := 0 } = true := ⟨rfl, rfl⟩

/-- The statements whose hypothesis is a command's readiness; a sample or byte index in range; and their failing side. -/
theorem test_witness_ready : Ready .gen one ∧ Ready .enc one ∧ Ready .syn one ∧
    0 < (operandD one).toNat ∧ 0 < (operandL one).toNat ∧ 0 < operandD one ∧ 0 < operandS one ∧ operandB one = 16 ∧
    operandC one = 1 ∧ ¬ GenReady { one with freq := 0 } ∧ ¬ EncReady { one with channels := 2 } ∧
    ¬ SynReady { one with channels := 2 } ∧ 0 < microStepsOf .gen 1 ∧ 0 < microStepsOf .enc 1 ∧
    0 < microStepsOf .syn 1 :=
  ⟨one_gen_ready, one_enc_ready, one_syn_ready, by decide, by decide, by decide, by decide, by decide, by decide,
    fun h => absurd h.2.1 (by decide), fun h => absurd h.2.2.2.1 (by decide), fun h => absurd h.2.2.2.2.1 (by decide),
    by decide, by decide, by decide⟩

/-- GenThenEncEqualsSyn, its second clause: GEN fails, and S, B, C are fit for ENC. -/
theorem test_witness_failing_gen :
    let s := { one with freq := 0 }
    ¬ GenReady s ∧ 0 < operandS s ∧ operandB s = 16 ∧ operandC s = 1 :=
  ⟨fun h => absurd h.2.1 (by decide), by decide, by decide, by decide⟩

/-- EncodedFileRoundTrip: no samples at all, and its second part, two states that agree on what ENC reads. -/
theorem test_witness_encode : EncReady { one with smpLen := 0 } ∧ operandL { one with smpLen := 0 } = 0 ∧
    ({ one with freq := 7 } : State).smpLen = one.smpLen ∧ smpRead { one with freq := 7 } 0 = smpRead one 0 :=
  ⟨⟨by decide, by decide, by decide, by decide, by
    have h : operandL { one with smpLen := 0 } = 0 := by decide
    omega⟩, by decide, rfl, rfl⟩

/-- GenerationIsDeterministic: two states that agree on S, B, F, D and differ elsewhere. -/
theorem test_witness_deterministic :
    let s' := { one with channels := 7, smp := [(0, 5)] }
    GenReady one ∧ s'.sampleRate = one.sampleRate ∧ s'.freq = one.freq ∧ s'.duration = one.duration ∧
      s'.bitDepth = one.bitDepth ∧ s' ≠ one :=
  ⟨one_gen_ready, rfl, rfl, rfl, rfl, by decide⟩

/-- InvariantKeptByEveryStep, InvariantExcludesFaults: a state of the invariant in the middle of a command takes a step. -/
theorem test_witness_invariant : BlockInv busyOne ∧ (∃ t, step busyOne = .next t) ∧
    BlockInv busyEnc ∧ (∃ t, step busyEnc = .next t) :=
  ⟨busyOne_inv, ⟨_, rfl⟩, busyEnc_inv, ⟨_, rfl⟩⟩

/-- EveryCommandEndsInSuccess: a command that executes, a tick waiting. -/
theorem test_witness_command_ends :
    let s := waiting busyOne [.tick]
    BlockInv s ∧ s.seq ≠ .idle ∧ ∀ e ∈ s.inbox, e = .tick :=
  ⟨inv_waiting busyOne_inv _, by decide, by decide⟩

/-- SequencerTransitions: a micro-step in every clause. -/
theorem test_witness_transitions (P : Params) :
    ∀ s ∈ [one, busyOne, { busyOne with idx := 1, op := .gen }, { busyOne with idx := 1 }, busyEnc,
      { busyEnc with wp := 40 }, { busyEnc with wp := 44 }, { busyEnc with wp := 44, seq := .encData, idx := 0 },
      { busyEnc with wp := 46, seq := .encData, idx := 1 }], ∃ t, microStep P s = .next t := by
  intro s hs
  simp only [List.mem_cons, List.not_mem_nil, or_false] at hs
  rcases hs with rfl | rfl | rfl | rfl | rfl | rfl | rfl | rfl | rfl <;> exact ⟨_, rfl⟩

/-- IdleBlockKeepsItsState. -/
theorem test_witness_idle : one.seq = .idle ∧ one.inbox = [] := ⟨rfl, rfl⟩

/-- AccumulatorStepIsExact: a step that wraps at the widest modulus, and one that does not. -/
theorem test_witness_accumulator :
    (140737488289791#47).toNat < (140737488289792#47).toNat ∧ (1#47).toNat < (140737488289792#47).toNat ∧
    (0#47).toNat < (140737488289792#47).toNat := by decide

/-- GeneratorStartLatches, AccumulatorClosedForm: GEN and SYN, after the only sample. -/
theorem test_witness_accumulator_index : Instr.gen ≠ .enc ∧ Instr.syn ≠ .enc ∧ Ready .gen one ∧ Ready .syn one ∧
    1 ≤ (operandD one).toNat := ⟨by decide, by decide, one_gen_ready, one_syn_ready, by decide⟩

/-- SineUnitBounds: both ends of the domain. -/
theorem test_witness_sine : Sine.Domain 0 65536 ∧ Sine.Domain 140737488289791 140737488289792 :=
  ⟨⟨by norm_num, by norm_num, by norm_num, by norm_num⟩, ⟨by norm_num, by norm_num, by norm_num, by norm_num⟩⟩

/-- RoundingModesAgree: the ends of the range and a tie. -/
theorem test_witness_rounding : ∀ a ∈ [(-2147483648 : Int), 2147483647, 536870912], -2 ^ 31 ≤ a ∧ a < 2 ^ 31 := by decide

/-- QuantizerProperties: each clause with hypotheses at its boundary. -/
theorem test_witness_quantizer : (0 : Int) ≤ 1 ∧ |((2 : Int) ^ 30 + 16384)| ≤ 2 ^ 30 + 16384 ∧
    -32768 ≤ roundHalfAway ((2 ^ 30 + 16384) * 32767) ∧ roundHalfAway ((2 ^ 30 + 16384) * 32767) ≤ 32767 := by decide

/-- QuantizerSaturation: the first amplitude that saturates on each side. -/
theorem test_witness_saturation : 32768 ≤ roundHalfAway ((2 ^ 30 + 16385) * 32767) ∧
    roundHalfAway (-(2 ^ 30 + 49154) * 32767) ≤ -32769 := by decide

/-- CornerFrequencies: a configuration of each kind; the second index needs a block with room for two samples. -/
theorem test_witness_corner_frequencies : modulusOf one ∣ (operandF one).toNat ∧
    2 * (operandF { one with freq := 0x8000 }).toNat = modulusOf { one with freq := 0x8000 } ∧
    4 * (operandF { one with freq := 0x4000 }).toNat = modulusOf { one with freq := 0x4000 } ∧
    GenReady { one with freq := 0x8000 } ∧ GenReady { one with freq := 0x4000 } ∧
    (2 ≤ Config.params.nMax → GenReady { one with freq := 0x4000, duration := 2 }) :=
  ⟨by decide, by decide, by decide, ⟨by decide, by decide, by decide, by decide, one_gen_ready.2.2.2.2⟩,
    ⟨by decide, by decide, by decide, by decide, one_gen_ready.2.2.2.2⟩,
    fun h2 => ⟨by decide, by decide, by decide, by decide, by
      have h : operandD { one with freq := 0x4000, duration := 2 } = 2 := by decide
      omega⟩⟩

/-- GeneratedSamplesArePeriodic, the clause about two cells: a block with room for two samples and period 1. -/
theorem test_witness_periodic (h2 : 2 ≤ Config.params.nMax) :
    let s := { one with duration := 2 }
    GenReady s ∧ 0 + modulusOf s / Nat.gcd (operandF s).toNat (modulusOf s) < (operandD s).toNat :=
  ⟨⟨by decide, by decide, by decide, by decide, by
    have h : operandD { one with duration := 2 } = 2 := by decide
    omega⟩, by decide⟩

/-- SamplesAwayFromTiesAreFixed: the first sample. -/
theorem test_witness_away_from_ties (k : Int) : 32767 / 2 ^ 30 < |idealSample one 0 - (k + 1 / 2)| := by
  have h0 : idealSample one 0 = 0 := by simp [idealSample]
  have h1 : (1 : ℤ) ≤ |2 * k + 1| := Int.one_le_abs (by omega)
  have h2 : (1 : ℝ) ≤ |2 * (k : ℝ) + 1| := by exact_mod_cast h1
  rw [h0, show (0 : ℝ) - (k + 1 / 2) = -((2 * k + 1) / 2) by ring, abs_neg, abs_div, abs_two]
  linarith

/-- MemReadAfterMemWrite: the largest value of four bytes. -/
theorem test_witness_mem_write : 0xFFFFFFFF < 256 ^ 4 ∧ 3 < 4 := by decide

/-- RegisterWriteThenRead. -/
theorem test_witness_register_write :
    let s := waiting one [.host (.regWrite (Reg.offset .smpLen) 5), .host (.regRead (Reg.offset .smpLen))]
    Reg.smpLen ∈ [Reg.sampleRate, .bitDepth, .freq, .duration, .channels, .smpLen] ∧ s.status.busy = false ∧
    s.inbox = .host (.regWrite (Reg.offset .smpLen) 5) :: .host (.regRead (Reg.offset .smpLen)) :: [] :=
  ⟨by decide, rfl, rfl⟩

/-- ReadOnlyAndUnlistedRegisters: each clause. -/
theorem test_witness_registers (l : List Event) (w : Word) :
    NextIs (waiting one (.host (.regWrite 0x04 w) :: l)) (.regWrite 0x04 w) l ∧
    NextIs (waiting one (.host (.regWrite 0x20 w) :: l)) (.regWrite 0x20 w) l ∧
    NextIs (waiting one (.host (.regRead 0x00) :: l)) (.regRead 0x00) l ∧
    0x24 ∉ [0x00, 0x04, 0x08, 0x0C, 0x10, 0x14, 0x18, 0x1C, 0x20] ∧
    NextIs (waiting one (.host (.regWrite 0x24 w) :: l)) (.regWrite 0x24 w) l ∧
    (∃ a : Access, (waiting one (.access a :: l)).inbox = .access a :: l ∧ a.space = .reg ∧ a.bits ≠ 32) :=
  ⟨nextIs_host _ _ _, nextIs_host _ _ _, nextIs_host _ _ _, by decide, nextIs_host _ _ _,
    ⟨⟨.reg, false, 16, 0, 0⟩, rfl, rfl, by decide⟩⟩

/-- HostBufferAccesses: the first and the last cell of each space. -/
theorem test_witness_buffers (l : List Event) : one.status.busy = false ∧ 0 < Config.params.nMax ∧
    Config.params.nMax - 1 < Config.params.nMax ∧ Config.params.outCap - 1 < Config.params.outCap ∧
    NextIs (waiting one (.host (.smpWrite (Config.params.nMax - 1) 5) :: l)) (.smpWrite (Config.params.nMax - 1) 5) l ∧
    NextIs (waiting one (.host (.smpRead 0) :: l)) (.smpRead 0) l ∧
    NextIs (waiting one (.host (.outRead (Config.params.outCap - 1)) :: l)) (.outRead (Config.params.outCap - 1)) l := by
  have := Config.params.nMax_pos
  refine ⟨rfl, by omega, by omega, ?_, nextIs_host _ _ _, nextIs_host _ _ _, nextIs_host _ _ _⟩
  unfold Params.outCap; omega

/-- HostTransactionsWhileBusy: a busy state of the invariant in which any transaction comes next. -/
theorem test_witness_while_busy (x : Transaction) (l : List Event) :
    BlockInv (waiting busyOne (.host x :: l)) ∧ (waiting busyOne (.host x :: l)).status.busy = true ∧
    NextIs (waiting busyOne (.host x :: l)) x l ∧ Reg.ofOffset 0x00 = some .cmd ∧ Reg.ofOffset 0x1C = some .smpLen ∧
    Reg.ofOffset 0x20 = some .outLen :=
  ⟨inv_waiting busyOne_inv _, rfl, nextIs_host _ _ _, rfl, rfl, rfl⟩

/-- UndefinedAccessesAreRefused: one access for each clause, at its boundary. -/
theorem test_witness_undefined_accesses (a : Access) (l : List Event) :
    (waiting one (.access a :: l)).inbox = .access a :: l ∧
    (⟨.reg, false, 8, 0, 0⟩ : Access).bits ≠ 32 ∧ (⟨.reg, false, 32, 2, 0⟩ : Access).cell % 4 ≠ 0 ∧
    0x20 < (⟨.reg, true, 32, 0x24, 0⟩ : Access).cell ∧ (⟨.smp, true, 32, 0, 0⟩ : Access).bits ≠ 16 ∧
    Config.params.nMax ≤ (⟨.smp, false, 16, Config.params.nMax, 0⟩ : Access).cell ∧
    (⟨.out, false, 32, 0, 0⟩ : Access).bits ≠ 8 ∧ (⟨.out, true, 8, 0, 0⟩ : Access).isWrite = true ∧
    Config.params.outCap ≤ (⟨.out, false, 8, Config.params.outCap, 0⟩ : Access).cell :=
  ⟨rfl, by decide, by decide, by decide, by decide, Nat.le_refl _, by decide, rfl, Nat.le_refl _⟩

/-- UndefinedAccessesAreRefused, its second part: the first index, address and offset outside each space. -/
theorem test_witness_undefined_transactions (w : Word) (v : Half) (l : List Event) :
    (0x02 % 4 ≠ 0 ∧ 0x20 < 0x24) ∧ NextIs (waiting one (.host (.regWrite 0x24 w) :: l)) (.regWrite 0x24 w) l ∧
    NextIs (waiting one (.host (.smpWrite Config.params.nMax v) :: l)) (.smpWrite Config.params.nMax v) l ∧
    NextIs (waiting one (.host (.smpRead Config.params.nMax) :: l)) (.smpRead Config.params.nMax) l ∧
    NextIs (waiting one (.host (.outRead Config.params.outCap) :: l)) (.outRead Config.params.outCap) l :=
  ⟨by decide, nextIs_host _ _ _, nextIs_host _ _ _, nextIs_host _ _ _, nextIs_host _ _ _⟩

/-- ReadsChangeNothing: a read of a register, the block idle. -/
theorem test_witness_read (r : Reg) (l : List Event) :
    NextIs (waiting one (.host (.regRead r.offset) :: l)) (.regRead r.offset) l ∧ one.status.busy = false ∧
    ∃ t, step (waiting one [.host (.regRead 0x20)]) = .next t := ⟨nextIs_host _ _ _, rfl, _, rfl⟩

/-- LengthsReadWhileBusy: each part, for the register that SYN changes inside the command and for OUT_LEN. -/
theorem test_witness_lengths : Ready .gen one ∧ Ready .enc one ∧ Ready .syn one ∧
    Reg.smpLen ∈ [Reg.smpLen, .outLen] ∧ Reg.outLen ∈ [Reg.smpLen, .outLen] ∧
    (∃ u, microStep Config.params { busyOne with idx := 1 } = .next u ∧ u.seq ≠ .idle) ∧
    BlockInv busyOne ∧ busyOne.status.busy = true ∧
    (∃ t, runMicro Config.params 1 { busyOne with idx := 1, op := .gen } = .next t ∧ t.seq = .idle) :=
  ⟨one_gen_ready, one_enc_ready, one_syn_ready, by decide, by decide, ⟨_, rfl, by decide⟩, busyOne_inv, rfl,
    ⟨_, rfl, rfl⟩⟩

/-- SineReferenceUnit: a modulus that 12 divides, a phase for each symmetry, a scaling. -/
theorem test_witness_sine_reference : Sine.Domain 1 196608 ∧ 12 ∣ 196608 ∧ 0 < 1 ∧ 1 < 196608 / 2 ∧
    Sine.Domain 98304 196608 ∧ 98304 ≤ 196608 / 2 ∧ 1 ≤ 2 ∧ 2 * 196608 < 2 ^ 47 :=
  ⟨⟨by norm_num, by norm_num, by norm_num, by norm_num⟩, by norm_num, by norm_num, by norm_num,
    ⟨by norm_num, by norm_num, by norm_num, by norm_num⟩, by norm_num, by norm_num, by norm_num⟩

/-- OnlyTheHostWritesConfiguration: a write, and a reset, that change a configuration register. -/
theorem test_witness_configuration :
    (∃ t, step (waiting one [.host (.regWrite 0x10 5)]) = .next t ∧ readReg t .freq ≠ readReg one .freq) ∧
    (∃ t, step (waiting one [.reset]) = .next t ∧ readReg t .freq ≠ readReg one .freq) :=
  ⟨⟨_, rfl, by decide⟩, ⟨_, rfl, by decide⟩⟩

/-- SamplesStayUntilReplaced: SMP_LEN changed by a command, by a host write, by reset and by the generator. -/
theorem test_witness_samples_change :
    (∃ t, step (waiting { one with freq := 0 } [.host (.regWrite 0x00 1)]) = .next t ∧ t.smpLen ≠ one.smpLen) ∧
    (∃ t, step (waiting one [.host (.regWrite 0x1C 5)]) = .next t ∧ t.smpLen ≠ one.smpLen) ∧
    (∃ t, step (waiting one [.reset]) = .next t ∧ t.smpLen ≠ one.smpLen) ∧
    (∃ t, step busyOne = .next t ∧ t.smp ≠ busyOne.smp) :=
  ⟨⟨_, rfl, by decide⟩, ⟨_, rfl, by decide⟩, ⟨_, rfl, by decide⟩, ⟨_, rfl, List.cons_ne_nil _ _⟩⟩

/-- SamplesStayUntilReplaced: a cell changed by a host write. -/
theorem test_witness_sample_write :
    ∃ t, step (waiting one [.host (.smpWrite 0 5)]) = .next t ∧ t.smp ≠ one.smp :=
  ⟨smpWrite one 0 5, by
    have h0 : 0 < Config.params.nMax := Config.params.nMax_pos
    simp [step, advance, handle, hostTransaction, Transaction.wf, bufferAccess, waiting, one, configured, State.reset,
      smpWrite, h0], List.cons_ne_nil _ _⟩

/-- ReadsChangeNothing: a read of a cell of SMP and of a byte of OUT. -/
theorem test_witness_buffer_reads : (∃ t, step (waiting one [.host (.smpRead 0)]) = .next t) ∧
    (∃ t, step (waiting one [.host (.outRead 0)]) = .next t) := by
  have h0 : 0 < Config.params.nMax := Config.params.nMax_pos
  have h1 : 0 < Config.params.outCap := by unfold Params.outCap; omega
  simp [step, advance, handle, hostTransaction, Transaction.wf, bufferAccess, waiting, one, configured, State.reset, h0, h1]

/-- FileStaysUntilReplaced: OUT changed by the encoder, OUT_LEN by a failing command and by reset. -/
theorem test_witness_file_changes :
    (∃ t, step (waiting { one with channels := 2, outLen := 60 } [.host (.regWrite 0x00 2)]) = .next t ∧ t.outLen ≠ 60) ∧
    (∃ t, step (waiting { one with outLen := 60 } [.reset]) = .next t ∧ t.outLen ≠ 60) ∧
    (∃ t, step busyEnc = .next t ∧ t.out ≠ busyEnc.out) :=
  ⟨⟨_, rfl, by decide⟩, ⟨_, rfl, by decide⟩, ⟨_, rfl, by decide⟩⟩

/-- OnlyLegalStatusWordsAreRead. -/
theorem test_witness_status : BlockInv busyOne ∧ BlockInv (waiting busyEnc [.reset]) :=
  ⟨busyOne_inv, inv_waiting busyEnc_inv _⟩

/-- UnwrittenCellsReadFreeValues. -/
theorem test_witness_unwritten : Memory.read State.reset.smp 0 = none ∧ Memory.read State.reset.out 0 = none ∧
    (1 : Nat) ≠ 0 := ⟨rfl, rfl, by decide⟩

end Sys2Proof.Tests
end

/-! SUPPORT. The equations of a micro-step, the way a command goes through its micro-steps, and what that gives: whatever
the micro-steps keep, the command keeps. -/

namespace Sys2Proof.Machine

/-! ### The equations of a micro-step (`10_state.md` rule R31) -/

section
variable {P : Params} {s : State}

theorem microStep_idle (h : s.seq = .idle) : microStep P s = .next s := by
  simp only [microStep, h]

theorem microStep_generateSample (h : s.seq = .genLoop) (hi : s.idx.toNat < s.n.toNat) :
    microStep P s = .next (generateSample P s) := by
  simp only [microStep, h, if_pos hi]

theorem microStep_leaveGenLoop (h : s.seq = .genLoop) (hi : s.idx = s.n) : microStep P s = leaveGenLoop s := by
  simp [microStep, h, hi]

theorem microStep_finishGenerator (h : s.seq = .genLoop) (hi : s.idx = s.n) (ho : s.op = .gen) :
    microStep P s = .next (finishGenerator s) := by
  rw [microStep_leaveGenLoop h hi, leaveGenLoop, ho]

theorem microStep_turnToEncoder (h : s.seq = .genLoop) (hi : s.idx = s.n) (ho : s.op = .syn) :
    microStep P s = .next (turnToEncoder s) := by
  rw [microStep_leaveGenLoop h hi, leaveGenLoop, ho]

theorem microStep_enterData (h : s.seq = .encHeader) (hw : s.wp.toNat = 44) : microStep P s = .next (enterData s) := by
  simp only [microStep, h, headerSize, if_pos hw]

theorem microStep_encodeSample (h : s.seq = .encData) (hi : s.idx.toNat < s.n.toNat) :
    microStep P s = .next (encodeSample s) := by
  simp only [microStep, h, if_pos hi]

theorem microStep_finishEncoder (h : s.seq = .encData) (hi : s.idx = s.n) :
    microStep P s = .next (finishEncoder s) := by
  simp [microStep, h, hi]

end

/-! ### The header fields (`20_memory.md` rule R72) -/

theorem headerFields_offsets (s : State) :
    (headerFields s).map HeaderField.offset = [0, 4, 8, 12, 16, 20, 22, 24, 28, 32, 34, 36, 40] := rfl

theorem headerFields_ends (s : State) :
    (headerFields s).map (fun f => f.offset + f.size) = [4, 8, 12, 16, 20, 22, 24, 28, 32, 34, 36, 40, 44] := rfl

theorem headerField_offset_mem {s : State} {f : HeaderField} (h : f ∈ headerFields s) :
    f.offset ∈ [0, 4, 8, 12, 16, 20, 22, 24, 28, 32, 34, 36, 40] :=
  headerFields_offsets s ▸ List.mem_map_of_mem h

theorem headerField_end_mem {s : State} {f : HeaderField} (h : f ∈ headerFields s) :
    f.offset + f.size ∈ [4, 8, 12, 16, 20, 22, 24, 28, 32, 34, 36, 40, 44] :=
  headerFields_ends s ▸ List.mem_map_of_mem (f := fun f => f.offset + f.size) h

theorem headerField_end_le {s : State} {f : HeaderField} (h : f ∈ headerFields s) : f.offset + f.size ≤ 44 :=
  (by decide : ∀ k ∈ [4, 8, 12, 16, 20, 22, 24, 28, 32, 34, 36, 40, 44], k ≤ 44) _ (headerField_end_mem h)

/-- No two header fields stand at one offset. -/
theorem headerField_eq_of_offset_eq {s : State} {f g : HeaderField} (hf : f ∈ headerFields s) (hg : g ∈ headerFields s)
    (h : f.offset = g.offset) : f = g := by
  have hd : ((headerFields s).map HeaderField.offset).Nodup := by rw [headerFields_offsets]; decide
  exact List.inj_on_of_nodup_map hd hf hg h

/-- The field that starts at WP is the one `fieldAtWp` finds. -/
theorem fieldAtWp_eq_some {s : State} {f : HeaderField} (hf : f ∈ headerFields s) (hw : f.offset = s.wp.toNat) :
    fieldAtWp s = some f := by
  cases hg : fieldAtWp s with
  | none => exact absurd (beq_iff_eq.2 hw) (List.find?_eq_none.1 hg f hf)
  | some g =>
    have ho : g.offset = s.wp.toNat := 
      beq_iff_eq.1 (List.find?_some (p := fun f : HeaderField => f.offset == s.wp.toNat) hg)
    rw [headerField_eq_of_offset_eq (List.mem_of_find?_eq_some hg) hf (ho.trans hw.symm)]

theorem microStep_writeField {P : Params} {s : State} {f : HeaderField} (h : s.seq = .encHeader)
    (hf : f ∈ headerFields s) (hw : f.offset = s.wp.toNat) : microStep P s = .next (writeField s f) := by
  have h44 : s.wp.toNat ≠ 44 := hw ▸ fun he =>
    (by decide : (44 : Nat) ∉ [0, 4, 8, 12, 16, 20, 22, 24, 28, 32, 34, 36, 40]) (he ▸ headerField_offset_mem hf)
  simp only [microStep, h, headerSize, if_neg h44, fieldAtWp_eq_some hf hw]

/-- The fields do not depend on what writing one of them changes. -/
@[simp] theorem headerFields_writeField (s : State) (f : HeaderField) :
    headerFields (writeField s f) = headerFields s := by
  rw [writeField_eq]; rfl

@[simp] theorem writeField_seq (s : State) (f : HeaderField) : (writeField s f).seq = s.seq := writeAtWp_seq ..
@[simp] theorem writeField_status (s : State) (f : HeaderField) : (writeField s f).status = s.status :=
  writeAtWp_status ..

/-- WP after a field is where the field ends (`41_encoder.md` rule R144). -/
theorem writeField_wp_toNat {s : State} {f : HeaderField} (hf : f ∈ headerFields s) (hw : f.offset = s.wp.toNat) :
    (writeField s f).wp.toNat = f.offset + f.size := by
  have := headerField_end_le hf
  rw [writeField_eq, BitVec.toNat_add, BitVec.toNat_ofNat, ← hw]
  omega

/-! ### A command goes through its micro-steps (`70_reset_and_hazards.md` rule R214) -/

/-- k micro-steps lead from the first state to the second, and before each of them the block executes a command. -/
inductive BusyRun (P : Params) : Nat → State → State → Prop
  | done (s : State) : BusyRun P 0 s s
  | turn {k : Nat} {s t u : State} (hb : s.status = Status.executing) (hs : s.seq ≠ .idle)
      (hm : microStep P s = .next t) (hr : BusyRun P k t u) : BusyRun P (k + 1) s u

namespace BusyRun

variable {P : Params} {j k : Nat} {s t u : State}

theorem single (hb : s.status = Status.executing) (hs : s.seq ≠ .idle) (hm : microStep P s = .next t) :
    BusyRun P 1 s t := .turn hb hs hm (.done t)

theorem trans (h : BusyRun P j s t) (h' : BusyRun P k t u) : BusyRun P (j + k) s u := by
  induction h with
  | done => rwa [Nat.zero_add]
  | turn hb hs hm _ ih => rw [Nat.add_right_comm]; exact .turn hb hs hm (ih h')

theorem runMicro_eq (h : BusyRun P k s t) : runMicro P k s = .next t := by
  induction h with
  | done => rfl
  | turn _ _ hm _ ih => rw [runMicro, hm]; exact ih

/-- Before its end a run is at a state in which the block executes a command. -/
theorem busy_before_end (h : BusyRun P k s t) (hj : j < k) :
    ∃ u, runMicro P j s = .next u ∧ u.status = Status.executing ∧ u.seq ≠ .idle := by
  induction h generalizing j with
  | done => exact absurd hj (Nat.not_lt_zero j)
  | turn hb hs hm _ ih =>
    cases j with
    | zero => exact ⟨_, rfl, hb, hs⟩
    | succ j => rw [runMicro, hm]; exact ih (Nat.lt_of_succ_lt_succ hj)

/-- What every micro-step keeps, a run keeps. -/
theorem keeps {p : State → Prop} (h : BusyRun P k s t) (hs : p s)
    (hstep : ∀ u v, p u → microStep P u = .next v → p v) : p t := by
  induction h with
  | done => exact hs
  | turn _ _ hm _ ih => exact ih (hstep _ _ hs hm)

end BusyRun

/-- A sample index below a 31-bit count has a successor. -/
theorem idx_add_one_toNat {i n : BitVec 31} (h : i.toNat < n.toNat) : (i + 1).toNat = i.toNat + 1 := by
  bv_omega

section
variable {P : Params} {s : State}

/-- GEN_LOOP for k samples (`40_generator.md` rule R124). -/
theorem busyRun_generateLoop (k : Nat) (hb : s.status = Status.executing) (hs : s.seq = .genLoop)
    (hk : s.idx.toNat + k ≤ s.n.toNat) : BusyRun P k s (generateLoop P k s) := by
  induction k generalizing s with
  | zero => exact .done s
  | succ k ih =>
    have hi : s.idx.toNat < s.n.toNat := by omega
    refine .turn hb (by simp [hs]) (microStep_generateSample hs hi) (ih hb hs ?_)
    rw [generateSample_idx, idx_add_one_toNat hi, generateSample_n]
    omega

/-- ENC_DATA for k samples (`41_encoder.md` rule R158). -/
theorem busyRun_encodeLoop (k : Nat) (hb : s.status = Status.executing) (hs : s.seq = .encData)
    (hk : s.idx.toNat + k ≤ s.n.toNat) : BusyRun P k s (encodeLoop k s) := by
  induction k generalizing s with
  | zero => exact .done s
  | succ k ih =>
    have hi : s.idx.toNat < s.n.toNat := by omega
    refine .turn hb (by simp [hs]) (microStep_encodeSample hs hi) (ih (by simpa) (by simpa) ?_)
    rw [encodeSample_idx, idx_add_one_toNat hi, encodeSample_n]
    omega

/-- ENC_HEADER for consecutive fields from WP on (`41_encoder.md` rule R144). -/
theorem busyRun_writeFields {start stop : Nat} {fs : List HeaderField} (hb : s.status = Status.executing)
    (hs : s.seq = .encHeader) (hf : fieldsFrom start stop fs) (hm : ∀ f ∈ fs, f ∈ headerFields s)
    (hw : s.wp.toNat = start) : BusyRun P fs.length s (fs.foldl writeField s) := by
  induction fs generalizing s start with
  | nil => exact .done s
  | cons f fs ih =>
    obtain ⟨ho, hrest⟩ := hf
    have hfs := hm f List.mem_cons_self
    have hwp : f.offset = s.wp.toNat := ho.trans hw.symm
    refine .turn hb (by simp [hs]) (microStep_writeField hs hfs hwp) (ih (by simpa) (by simpa) hrest ?_ ?_)
    · simpa using fun g hg => hm g (List.mem_cons_of_mem f hg)
    · rw [writeField_wp_toNat hfs hwp, ho]

/-- IDX after k turns of the generator's loop. -/
theorem generateLoop_idx (P : Params) (k : Nat) (s : State) :
    (generateLoop P k s).idx = s.idx + BitVec.ofNat 31 k := by
  induction k with
  | zero => simp [generateLoop]
  | succ k ih => rw [generateLoop_succ, generateSample_idx, ih, BitVec.add_assoc, BitVec.ofNat_add]; rfl

/-- IDX after k turns of the encoder's loop. -/
theorem encodeLoop_idx (k : Nat) (s : State) : (encodeLoop k s).idx = s.idx + BitVec.ofNat 31 k := by
  induction k with
  | zero => simp [encodeLoop]
  | succ k ih => rw [encodeLoop_succ, encodeSample_idx, ih, BitVec.add_assoc, BitVec.ofNat_add]; rfl

/-- The encoder's body, from `WP = 0` to its end (`41_encoder.md` rule R140). -/
theorem busyRun_runEncoder (hb : s.status = Status.executing) (hs : s.seq = .encHeader) (hw : s.wp = 0) :
    BusyRun P (13 + 1 + s.n.toNat + 1) s (runEncoder s) := by
  have hheader : BusyRun P 13 s (writeHeader s) :=
    busyRun_writeFields hb hs (headerFields_from s) (fun _ hf => hf) (by simp [hw])
  have henter : BusyRun P 1 (writeHeader s) (enterData (writeHeader s)) :=
    .single (by simpa) (by simp [hs]) (microStep_enterData (by simpa) (writeHeader_wp_toNat hw))
  have hdata := busyRun_encodeLoop (P := P) (s := enterData (writeHeader s)) s.n.toNat (by simpa) rfl (by simp)
  have hfinish := microStep_finishEncoder (P := P) (s := encodeLoop s.n.toNat (enterData (writeHeader s))) (by simp)
    (by simp [encodeLoop_idx])
  simpa [runEncoder] using ((hheader.trans henter).trans hdata).trans (.single (by simpa) (by simp) hfinish)

/-- The generator's loop, from its start until `IDX = N`. -/
theorem busyRun_generator (i : Instr) (hN : operandD s ≤ Config.params.nMax) :
    BusyRun P (operandD s).toNat (startGenerator i s)
      (generateLoop P (operandD s).toNat (startGenerator i s)) :=
  busyRun_generateLoop _ rfl rfl (by rw [startGenerator_n_toNat hN]; simp)

theorem generator_idx_eq_n (P : Params) (i : Instr) (s : State) :
    (generateLoop P (operandD s).toNat (startGenerator i s)).idx =
      (generateLoop P (operandD s).toNat (startGenerator i s)).n := by
  simp [generateLoop_idx]

end

section
variable {i : Instr} {s t : State}

/-- The start of a command that passes validation. -/
theorem startCommand_of_ready (h : Ready i s) :
    startCommand Config.params i s = if i = .enc then startEncoder s else startGenerator i s := by
  simp only [startCommand, (validate_none_iff i s).2 h]
  cases i <;> rfl

/-- The start of a command that fails validation is its end in failure, and so is the command as one step. -/
theorem startCommand_of_not_ready (h : ¬ Ready i s) : ∃ c : Check,
    startCommand Config.params i s = raise (some i) c.result c.cause s ∧
      exec i s = .next (raise (some i) c.result c.cause s) := by
  obtain ⟨c, hv, he⟩ := exec_of_not_ready h
  exact ⟨c, by simp only [startCommand, hv], he⟩

/-- A command that fails validation ends where it starts, and never leaves SEQ. -/
theorem exec_eq_startCommand_of_not_ready (h : ¬ Ready i s) :
    exec i s = .next (startCommand Config.params i s) ∧ (startCommand Config.params i s).seq = s.seq := by
  obtain ⟨c, hs, he⟩ := startCommand_of_not_ready h
  exact ⟨by rw [he, hs], by rw [hs, raise_seq]⟩

/-- A command that passes validation is the run of its micro-steps, busy all the way. -/
theorem exec_busyRun_of_ready (h : Ready i s) : ∃ t, exec i s = .next t ∧
    BusyRun Config.params (microStepsOf i (operandCount i s).toNat) (startCommand Config.params i s) t := by
  rw [startCommand_of_ready h]
  cases i with
  | gen =>
    refine ⟨_, execGen_of_ready h, (busyRun_generator .gen h.2.2.2.2).trans (.single (by simp) (by simp) ?_)⟩
    exact microStep_finishGenerator (by simp) (generator_idx_eq_n ..) (by simp)
  | enc =>
    have := busyRun_runEncoder (P := Config.params) (s := startEncoder s) rfl rfl rfl
    rw [startEncoder_n_toNat h.2.2.2.2] at this
    exact ⟨_, execEnc_of_ready h, this⟩
  | syn =>
    have hN := h.2.2.2.2.2
    have hturn := microStep_turnToEncoder (P := Config.params) (by simp)
      (generator_idx_eq_n Config.params .syn s) (by simp)
    have hgen := (busyRun_generator .syn hN).trans (.single (by simp) (by simp) hturn)
    have henc := busyRun_runEncoder (P := Config.params)
      (s := turnToEncoder (generateLoop Config.params (operandD s).toNat (startGenerator .syn s))) (by simp) rfl rfl
    rw [turnToEncoder_n, generateLoop_n, startGenerator_n_toNat hN] at henc
    have hsteps : microStepsOf .syn (operandD s).toNat =
        (operandD s).toNat + 1 + (13 + 1 + (operandD s).toNat + 1) := by simp only [microStepsOf]; omega
    exact ⟨_, execSyn_of_ready h, hsteps ▸ hgen.trans henc⟩

/-- Whatever the start of a command has and every micro-step keeps, the end of the command has. -/
theorem exec_induction {p : State → Prop} (hstart : p (startCommand Config.params i s))
    (hstep : ∀ u v, p u → microStep Config.params u = .next v → p v) (h : exec i s = .next t) : p t := by
  by_cases hr : Ready i s
  · obtain ⟨t', he, hrun⟩ := exec_busyRun_of_ready hr
    obtain rfl : t' = t := by simpa [he] using h
    exact hrun.keeps hstart hstep
  · rw [(exec_eq_startCommand_of_not_ready hr).1] at h
    obtain rfl : startCommand Config.params i s = t := by simpa using h
    exact hstart

end

/-- Settles O21: along `BusyRun`, the run of a ready command's micro-steps. -/
theorem microStepsRefineCommand : Obligations.MicroStepsRefineCommand := by
  unfold Obligations.MicroStepsRefineCommand
  intro i s
  refine ⟨fun h => ?_, exec_eq_startCommand_of_not_ready⟩
  obtain ⟨t, he, hrun⟩ := exec_busyRun_of_ready h
  exact ⟨by rw [he, hrun.runMicro_eq], fun k hk => hrun.busy_before_end hk⟩

end Sys2Proof.Machine

/-! SUPPORT. The invariant, part by part: what holds inside a command in each state of the sequencer, that every micro-step
and every start of a command keeps it, and hence every step. -/

namespace Sys2Proof.Machine

/-! ### What holds inside a command, for each state of the sequencer -/

/-- What the invariant says in GEN_LOOP (`40_generator.md` rules R112, R114). -/
structure InGenLoop (s : State) : Prop where
  op_ne : s.op ≠ .enc
  ready : Ready s.op s
  n_eq : s.n.toNat = (operandD s).toNat
  idx_le : s.idx.toNat ≤ s.n.toNat
  modulus_eq : s.modulus.toNat = modulusOf s
  stepWord_eq : s.stepWord.toNat = (operandF s).toNat % modulusOf s
  acc_eq : s.acc.toNat = phaseOf s s.idx.toNat
  smpLenBefore_eq : s.smpLenBefore = s.smpLen

/-- What the invariant says in both states of the encoder (`40_generator.md` rule R125, `41_encoder.md` rule R140). -/
structure InEncoder (s : State) : Prop where
  op_ne : s.op ≠ .gen
  ready : Ready s.op s
  n_eq : s.n.toNat = (operandCount s.op s).toNat
  smpLen_eq : s.op = .syn → s.smpLen = s.n.setWidth 32

section
variable {s t : State}

theorem insideCommand_idle (h : s.seq = .idle) : InsideCommand s := by simp only [InsideCommand, h]

theorem insideCommand_genLoop_iff (h : s.seq = .genLoop) : InsideCommand s ↔ InGenLoop s := by
  simp only [InsideCommand, h]
  exact ⟨fun ⟨h1, h2, h3, h4, h5, h6, h7, h8⟩ => ⟨h1, h2, h3, h4, h5, h6, h7, h8⟩,
    fun ⟨h1, h2, h3, h4, h5, h6, h7, h8⟩ => ⟨h1, h2, h3, h4, h5, h6, h7, h8⟩⟩

theorem insideCommand_encHeader_iff (h : s.seq = .encHeader) : InsideCommand s ↔
    InEncoder s ∧ s.wp.toNat ∈ [0, 4, 8, 12, 16, 20, 22, 24, 28, 32, 34, 36, 40, 44] := by
  simp only [InsideCommand, h]
  exact ⟨fun ⟨h1, h2, h3, h4, h5⟩ => ⟨⟨h1, h2, h3, h5⟩, h4⟩, fun ⟨⟨h1, h2, h3, h5⟩, h4⟩ => ⟨h1, h2, h3, h4, h5⟩⟩

theorem insideCommand_encData_iff (h : s.seq = .encData) : InsideCommand s ↔
    InEncoder s ∧ AtData s.idx.toNat s ∧ s.idx.toNat ≤ s.n.toNat := by
  simp only [InsideCommand, h]
  exact ⟨fun ⟨h1, h2, h3, h4, h5, h6⟩ => ⟨⟨h1, h2, h3, h6⟩, ⟨rfl, h5⟩, h4⟩,
    fun ⟨⟨h1, h2, h3, h6⟩, h5, h4⟩ => ⟨h1, h2, h3, h4, h5.wp_eq, h6⟩⟩

/-- In GEN_LOOP the generator stands before sample IDX. -/
theorem InGenLoop.atSample (h : InGenLoop s) : AtSample (operandF s).toNat (modulusOf s) s.idx.toNat s where
  modulus_eq := h.modulus_eq
  modulus_pos := modulusOf_pos (ready_operandS h.ready)
  stepWord_eq := h.stepWord_eq
  acc_eq := h.acc_eq
  idx_eq := rfl

theorem InGenLoop.operandD_le (h : InGenLoop s) : operandD s ≤ Config.params.nMax := by
  obtain ⟨-, hle⟩ := ready_operandCount h.ready
  have hop := h.op_ne
  cases ho : s.op <;> simp_all [operandCount]

theorem InGenLoop.n_le (h : InGenLoop s) : s.n.toNat ≤ Config.params.nMax := by
  have := h.operandD_le
  rw [h.n_eq]; omega

theorem InEncoder.n_le (h : InEncoder s) : s.n.toNat ≤ Config.params.nMax := by
  obtain ⟨-, hle⟩ := ready_operandCount h.ready
  rw [h.n_eq]; omega

/-- What the encoder's part of the invariant depends on. -/
theorem InEncoder.congr (h : InEncoder s) (hS : t.sampleRate = s.sampleRate) (hB : t.bitDepth = s.bitDepth)
    (hF : t.freq = s.freq) (hD : t.duration = s.duration) (hC : t.channels = s.channels) (hL : t.smpLen = s.smpLen)
    (ho : t.op = s.op) (hn : t.n = s.n) : InEncoder t where
  op_ne := ho ▸ h.op_ne
  ready := by rw [ho]; exact (ready_congr hS hB hF hD hC hL).2 h.ready
  n_eq := by rw [ho, hn, operandCount_congr hD hL]; exact h.n_eq
  smpLen_eq := by rw [ho, hn, hL]; exact h.smpLen_eq

/-! ### Each micro-step inside a command -/

theorem ready_generateSample {P : Params} {i : Instr} : Ready i (generateSample P s) ↔ Ready i s :=
  ready_congr rfl rfl rfl rfl rfl rfl

theorem ready_startGenerator {i j : Instr} : Ready i (startGenerator j s) ↔ Ready i s :=
  ready_congr rfl rfl rfl rfl rfl rfl

theorem InGenLoop.generateSample (h : InGenLoop s) (hi : s.idx.toNat < s.n.toNat) :
    InGenLoop (generateSample Config.params s) := by
  have hidx : (Machine.generateSample Config.params s).idx.toNat = s.idx.toNat + 1 := idx_add_one_toNat hi
  have hat := atSample_generateSample (P := Config.params) h.atSample (by omega)
  exact {
    op_ne := h.op_ne
    ready := by rw [generateSample_op, ready_generateSample]; exact h.ready
    n_eq := h.n_eq
    idx_le := by rw [hidx]; exact hi
    modulus_eq := hat.modulus_eq
    stepWord_eq := hat.stepWord_eq
    acc_eq := by rw [hidx]; exact hat.acc_eq
    smpLenBefore_eq := h.smpLenBefore_eq }

theorem InGenLoop.turnToEncoder (h : InGenLoop s) (ho : s.op = .syn) : InEncoder (turnToEncoder s) where
  op_ne := by simp [ho]
  ready := by have := h.ready; rw [turnToEncoder_op]; rw [ho] at this ⊢; exact this
  n_eq := by rw [turnToEncoder_op, ho]; exact h.n_eq
  smpLen_eq _ := rfl

theorem inGenLoop_startGenerator {i : Instr} (hi : i ≠ .enc) (h : Ready i s) : InGenLoop (startGenerator i s) := by
  have hN : operandD s ≤ Config.params.nMax := by
    obtain ⟨-, hle⟩ := ready_operandCount h
    cases i <;> simp_all [operandCount]
  have hat := atSample_start i (ready_operandS h)
  exact {
    op_ne := hi
    ready := by rw [startGenerator_op, ready_startGenerator]; exact h
    n_eq := startGenerator_n_toNat hN
    idx_le := by simp
    modulus_eq := hat.modulus_eq
    stepWord_eq := hat.stepWord_eq
    acc_eq := hat.acc_eq
    smpLenBefore_eq := rfl }

theorem inEncoder_startEncoder (h : EncReady s) : InEncoder (startEncoder s) where
  op_ne := by simp
  ready := h
  n_eq := startEncoder_n_toNat h.2.2.2.2
  smpLen_eq := by simp

theorem InEncoder.writeField (h : InEncoder s) (f : HeaderField) : InEncoder (writeField s f) :=
  h.congr (by simp [Machine.writeField]) (by simp [Machine.writeField]) (by simp [Machine.writeField])
    (by simp [Machine.writeField]) (by simp [Machine.writeField]) (by simp [Machine.writeField])
    (by simp [Machine.writeField]) (by simp [Machine.writeField])

theorem InEncoder.enterData (h : InEncoder s) : InEncoder (enterData s) := h.congr rfl rfl rfl rfl rfl rfl rfl rfl

theorem InEncoder.encodeSample (h : InEncoder s) : InEncoder (encodeSample s) :=
  h.congr (by simp) (by simp) (by simp) (by simp) (by simp) (by simp) (by simp) (by simp)

/-! ### The invariant in two parts: the memories with their lengths, and the sequencer -/

/-- Both memories are canonical and inside their spaces, and OUT_LEN is at most OUT_CAP. -/
structure MemoryInv (s : State) : Prop where
  smp_wf : Memory.wf s.smp = true
  smp_below : Memory.below Config.params.nMax s.smp = true
  out_wf : Memory.wf s.out = true
  out_below : Memory.below Config.params.outCap s.out = true
  outLen_le : s.outLen.toNat ≤ Config.params.outCap

namespace MemoryInv

theorem congr (h : MemoryInv s) (hs : t.smp = s.smp) (ho : t.out = s.out) (hl : t.outLen = s.outLen) : MemoryInv t where
  smp_wf := hs ▸ h.smp_wf
  smp_below := hs ▸ h.smp_below
  out_wf := ho ▸ h.out_wf
  out_below := ho ▸ h.out_below
  outLen_le := hl ▸ h.outLen_le

theorem smpWrite (h : MemoryInv s) {k : Nat} (hk : k < Config.params.nMax) (w : Half) : MemoryInv (smpWrite s k w) :=
  { h with
    smp_wf := Memory.wf_write _ _ h.smp_wf
    smp_below := Memory.below_write _ hk h.smp_below }

/-- Bytes written at WP stay inside OUT. -/
theorem writeAtWp (h : MemoryInv s) {n : Nat} (hn : s.wp.toNat + n ≤ Config.params.outCap) (v : Nat) :
    MemoryInv (writeAtWp s n v) where
  smp_wf := by simpa using h.smp_wf
  smp_below := by simpa using h.smp_below
  out_wf := memWrite_wf _ _ _ _ h.out_wf
  out_below := memWrite_below _ _ _ _ hn h.out_below
  outLen_le := by simpa using h.outLen_le

theorem raise (h : MemoryInv s) (i : Option Instr) (r : Result) (c : Cause) : MemoryInv (raise i r c s) :=
  { h with
    outLen_le := by
      rw [raise_outLen]
      split_ifs
      · exact Nat.zero_le _
      · exact h.outLen_le }

end MemoryInv

theorem BlockInv.memory (h : BlockInv s) : MemoryInv s := { h with }

theorem BlockInv.of_idle (hm : MemoryInv s) (hs : s.seq = .idle) (hl : s.status ∈ Status.legal)
    (hb : s.status.busy = false) : BlockInv s :=
  { hm with
    status_legal := hl
    busy_iff := by simp [hs, hb]
    inside := insideCommand_idle hs }

theorem BlockInv.of_executing (hm : MemoryInv s) (hs : s.seq ≠ .idle) (hx : s.status = Status.executing)
    (hi : InsideCommand s) : BlockInv s :=
  { hm with
    status_legal := by rw [hx]; decide
    busy_iff := by simp [hs, hx, Status.executing]
    inside := hi }

theorem BlockInv.idle_of_not_busy (h : BlockInv s) (hb : s.status.busy = false) : s.seq = .idle := by
  by_contra hs
  exact absurd (h.busy_iff.2 hs) (by simp [hb])

theorem BlockInv.executing_of_not_idle (h : BlockInv s) (hs : s.seq ≠ .idle) : s.status = Status.executing :=
  (by decide : ∀ x ∈ Status.legal, x.busy = true → x = Status.executing) _ h.status_legal (h.busy_iff.2 hs)

/-- An idle block that keeps its memories, its lengths, SEQ and STATUS keeps the invariant, whatever else it changes. -/
theorem BlockInv.congr_idle (h : BlockInv s) (hb : s.status.busy = false) (hsmp : t.smp = s.smp) (hout : t.out = s.out)
    (hlen : t.outLen = s.outLen) (hseq : t.seq = s.seq) (hst : t.status = s.status) : BlockInv t :=
  .of_idle (h.memory.congr hsmp hout hlen) (hseq.trans (h.idle_of_not_busy hb)) (hst ▸ h.status_legal) (hst ▸ hb)

/-- The invariant does not look at the events that wait. -/
theorem BlockInv.inbox (h : BlockInv s) (l : List Event) : BlockInv { s with inbox := l } :=
  { h with inside := (insideCommand_inbox s l).2 h.inside }

/-- The invariant does not look at what the host has read. -/
theorem BlockInv.replies (h : BlockInv s) (l : List Reply) (k : Nat) :
    BlockInv { s with replies := l, draws := k } :=
  { h with inside := (insideCommand_reply s l k).2 h.inside }

/-! ### Every micro-step keeps the invariant (`10_state.md` rules R30 to R32) -/

theorem BlockInv.generateSample (h : BlockInv s) (hs : s.seq = .genLoop) (hi : s.idx.toNat < s.n.toNat) :
    BlockInv (generateSample Config.params s) := by
  have hg := (insideCommand_genLoop_iff hs).1 h.inside
  have hm := h.memory.smpWrite (lt_of_lt_of_le hi hg.n_le)
  refine .of_executing ((hm _).congr rfl rfl rfl) (by simp [hs]) (h.executing_of_not_idle (by simp [hs])) ?_
  exact (insideCommand_genLoop_iff (by simpa)).2 (hg.generateSample hi)

/-- STATUS as a command that succeeds leaves it is legal (`60_exceptions.md` rules R181, R194). -/
theorem ok_status_legal : ⟨false, .ok, .none⟩ ∈ Status.legal := by decide

theorem BlockInv.finishGenerator (h : BlockInv s) : BlockInv (finishGenerator s) :=
  .of_idle (h.memory.congr rfl rfl rfl) rfl ok_status_legal rfl

theorem BlockInv.turnToEncoder (h : BlockInv s) (hs : s.seq = .genLoop) (ho : s.op = .syn) :
    BlockInv (turnToEncoder s) := by
  have hg := (insideCommand_genLoop_iff hs).1 h.inside
  refine .of_executing (h.memory.congr rfl rfl rfl) (by simp) (h.executing_of_not_idle (by simp [hs])) ?_
  exact (insideCommand_encHeader_iff rfl).2 ⟨hg.turnToEncoder ho, by simp⟩

theorem BlockInv.writeField (h : BlockInv s) (hs : s.seq = .encHeader) {f : HeaderField} (hf : f ∈ headerFields s)
    (hw : f.offset = s.wp.toNat) : BlockInv (writeField s f) := by
  obtain ⟨he, -⟩ := (insideCommand_encHeader_iff hs).1 h.inside
  have hend := headerField_end_le hf
  have hm := h.memory.writeAtWp (n := f.size) (by simp only [Params.outCap]; omega) f.value
  have hx := h.executing_of_not_idle (by simp [hs])
  refine .of_executing hm (by simp [hs]) (by simpa) ((insideCommand_encHeader_iff (by simpa)).2 ⟨he.writeField f, ?_⟩)
  rw [writeField_wp_toNat hf hw]
  exact List.mem_cons_of_mem 0 (headerField_end_mem hf)

theorem BlockInv.enterData (h : BlockInv s) (hs : s.seq = .encHeader) (hw : s.wp.toNat = 44) :
    BlockInv (enterData s) := by
  obtain ⟨he, -⟩ := (insideCommand_encHeader_iff hs).1 h.inside
  refine .of_executing (h.memory.congr rfl rfl rfl) (by simp) (h.executing_of_not_idle (by simp [hs])) ?_
  exact (insideCommand_encData_iff rfl).2 ⟨he.enterData, ⟨rfl, by simpa using hw⟩, by simp⟩

theorem BlockInv.encodeSample (h : BlockInv s) (hs : s.seq = .encData) (hi : s.idx.toNat < s.n.toNat) :
    BlockInv (encodeSample s) := by
  obtain ⟨he, hat, -⟩ := (insideCommand_encData_iff hs).1 h.inside
  have hn := he.n_le
  have hmax := Config.params.nMax_le
  have hidx : (Machine.encodeSample s).idx.toNat = s.idx.toNat + 1 := idx_add_one_toNat hi
  have hm := h.memory.writeAtWp (n := 2) (by rw [hat.wp_eq]; simp only [Params.outCap]; omega)
    (smpRead s s.idx.toNat).toNat
  have hx := h.executing_of_not_idle (by simp [hs])
  refine .of_executing (hm.congr rfl rfl rfl) (by simp [hs]) (by simpa) ((insideCommand_encData_iff (by simpa)).2 ?_)
  rw [hidx, encodeSample_n]
  exact ⟨he.encodeSample, atData_encodeSample hat (by omega), hi⟩

theorem BlockInv.finishEncoder (h : BlockInv s) (hs : s.seq = .encData) : BlockInv (finishEncoder s) := by
  obtain ⟨he, -, -⟩ := (insideCommand_encData_iff hs).1 h.inside
  have hlen := fileLength_toNat (ready_operandB he.ready) (ready_operandC he.ready he.op_ne) he.n_le
  have hn := he.n_le
  refine .of_idle { h.memory with outLen_le := ?_ } rfl ok_status_legal rfl
  rw [finishEncoder_outLen, headerSize, hlen, Params.outCap]
  omega

theorem blockInv_microStep (h : BlockInv s) (hm : microStep Config.params s = .next t) : BlockInv t := by
  rcases microStep_next hm with ⟨-, rfl⟩ | ⟨hs, hi, rfl⟩ | ⟨-, -, -, rfl⟩ | ⟨hs, -, ho, rfl⟩ | ⟨hs, hw, rfl⟩ |
    ⟨hs, -, f, hf, hw, rfl⟩ | ⟨hs, hi, rfl⟩ | ⟨hs, -, rfl⟩
  · exact h
  · exact h.generateSample hs hi
  · exact h.finishGenerator
  · exact h.turnToEncoder hs ho
  · exact h.enterData hs hw
  · exact h.writeField hs hf hw
  · exact h.encodeSample hs hi
  · exact h.finishEncoder hs

/-! ### Every command keeps the invariant -/

/-- The end of a command in failure keeps the invariant of an idle block. -/
theorem BlockInv.raise (h : BlockInv s) (hb : s.status.busy = false) (i : Option Instr) {r : Result} {c : Cause}
    (hl : ⟨false, r, c⟩ ∈ Status.legal) : BlockInv (raise i r c s) :=
  .of_idle (h.memory.raise i r c) (h.idle_of_not_busy hb) hl rfl

/-- STATUS as a failed check leaves it is legal (`60_exceptions.md` rules R181 to R189). -/
theorem check_status_legal (c : Check) : ⟨false, c.result, c.cause⟩ ∈ Status.legal := by cases c <;> decide

theorem BlockInv.startGenerator (h : BlockInv s) {i : Instr} (hi : i ≠ .enc) (hr : Ready i s) :
    BlockInv (startGenerator i s) :=
  .of_executing (h.memory.congr rfl rfl rfl) (by simp) rfl
    ((insideCommand_genLoop_iff rfl).2 (inGenLoop_startGenerator hi hr))

theorem BlockInv.startEncoder (h : BlockInv s) (hr : EncReady s) : BlockInv (startEncoder s) :=
  .of_executing (h.memory.congr rfl rfl rfl) (by simp) rfl
    ((insideCommand_encHeader_iff rfl).2 ⟨inEncoder_startEncoder hr, by simp⟩)

theorem BlockInv.startCommand (h : BlockInv s) (hb : s.status.busy = false) (i : Instr) :
    BlockInv (startCommand Config.params i s) := by
  by_cases hr : Ready i s
  · rw [startCommand_of_ready hr]
    split_ifs with hi
    · subst hi; exact h.startEncoder hr
    · exact h.startGenerator hi hr
  · obtain ⟨c, hs, -⟩ := startCommand_of_not_ready hr
    exact hs ▸ h.raise hb _ (check_status_legal c)

theorem BlockInv.exec (h : BlockInv s) (hb : s.status.busy = false) {i : Instr} (he : exec i s = .next t) : BlockInv t :=
  exec_induction (h.startCommand hb i) (fun _ _ => blockInv_microStep) he

/-! ### Every step keeps the invariant -/

theorem BlockInv.writeCommand (h : BlockInv s) (hb : s.status.busy = false) {w : Word}
    (hw : writeCommand Config.params w s = .next t) : BlockInv t := by
  rcases writeCommand_next hw with ⟨_, -, rfl⟩ | ⟨i, -, -, he⟩ | ⟨i, -, -, rfl⟩
  · exact h.raise hb none (by decide)
  · exact h.exec hb he
  · exact h.startCommand hb i

/-! A host write to a register other than CMD: the fields no such write changes (`10_state.md` rules R28, R29). -/

@[simp] theorem writeReg_smp (s : State) (r : Reg) (w : Word) : (writeReg s r w).smp = s.smp := by cases r <;> rfl
@[simp] theorem writeReg_out (s : State) (r : Reg) (w : Word) : (writeReg s r w).out = s.out := by cases r <;> rfl
@[simp] theorem writeReg_outLen (s : State) (r : Reg) (w : Word) : (writeReg s r w).outLen = s.outLen := by
  cases r <;> rfl
@[simp] theorem writeReg_seq (s : State) (r : Reg) (w : Word) : (writeReg s r w).seq = s.seq := by cases r <;> rfl
@[simp] theorem writeReg_status (s : State) (r : Reg) (w : Word) : (writeReg s r w).status = s.status := by
  cases r <;> rfl
@[simp] theorem writeReg_inbox (s : State) (r : Reg) (w : Word) : (writeReg s r w).inbox = s.inbox := by
  cases r <;> rfl
@[simp] theorem writeReg_replies (s : State) (r : Reg) (w : Word) : (writeReg s r w).replies = s.replies := by
  cases r <;> rfl

theorem BlockInv.writeReg (h : BlockInv s) (hb : s.status.busy = false) (r : Reg) (w : Word) :
    BlockInv (writeReg s r w) :=
  h.congr_idle hb (writeReg_smp s r w) (writeReg_out s r w) (writeReg_outLen s r w) (writeReg_seq s r w)
    (writeReg_status s r w)

/-- A register read changes the model's own `replies` and `draws` only. -/
theorem hostReadReg_frame (r : Reg) (s : State) : ∃ l k, hostReadReg r s = { s with replies := l, draws := k } := by
  unfold hostReadReg
  split
  · exact ⟨_, _, rfl⟩
  · exact ⟨_, s.draws, rfl⟩

theorem BlockInv.hostTransaction (h : BlockInv s) {x : Transaction}
    (hx : hostTransaction Config.params x s = .next t) : BlockInv t := by
  rcases hostTransaction_next hx with ⟨_, _, -, -, rfl⟩ | ⟨_, w, r, -, -, -, hb, rfl⟩ | ⟨_, w, -, -, hb, hw⟩ |
    ⟨_, r, -, -, rfl⟩ | ⟨k, w, -, hk, hb, rfl⟩ | ⟨k, -, -, hb, rfl⟩ | ⟨a, -, -, hb, rfl⟩
  · exact h
  · exact h.writeReg hb r w
  · exact h.writeCommand hb hw
  · obtain ⟨l, k, hr⟩ := hostReadReg_frame r s
    exact hr ▸ h.replies l k
  · exact .of_idle (h.memory.smpWrite hk w) (h.idle_of_not_busy hb) h.status_legal hb
  · exact h.congr_idle hb rfl rfl rfl rfl rfl
  · exact h.congr_idle hb rfl rfl rfl rfl rfl

theorem memoryInv_reset : MemoryInv State.reset where
  smp_wf := rfl
  smp_below := rfl
  out_wf := rfl
  out_below := rfl
  outLen_le := Nat.zero_le _

theorem blockInv_reset : BlockInv State.reset := .of_idle memoryInv_reset rfl (by decide) rfl

theorem blockInv_applyReset (s : State) : BlockInv (applyReset s) :=
  blockInv_reset.congr_idle rfl rfl rfl rfl rfl rfl

/-- Settles O22: memories without a cell, an idle sequencer and STATUS 0 meet every part of the invariant. -/
theorem invariantHoldsAtReset : Obligations.InvariantHoldsAtReset := blockInv_reset

/-- Settles O23: by the kinds of step; a command as one step is the run of its micro-steps. -/
theorem invariantKeptByEveryStep : Obligations.InvariantKeptByEveryStep := by
  unfold Obligations.InvariantKeptByEveryStep
  intro s t h hstep
  rcases step_next hstep with ⟨-, hm⟩ | ⟨rest, -, hm⟩ | ⟨rest, -, rfl⟩ | ⟨_, rest, x, -, -, hx⟩
  · exact blockInv_microStep h hm
  · exact blockInv_microStep (h.inbox rest) hm
  · exact blockInv_applyReset _
  · exact (h.inbox rest).hostTransaction hx

/-! ### From the invariant no step faults -/

/-- Inside a command the sequencer has a transition (`10_state.md` rule R31). -/
theorem microStep_progress {P : Params} (h : InsideCommand s) : ∃ t, microStep P s = .next t := by
  cases hs : s.seq with
  | idle => exact ⟨_, microStep_idle hs⟩
  | genLoop =>
    have hg := (insideCommand_genLoop_iff hs).1 h
    rcases hg.idx_le.lt_or_eq with hi | hi
    · exact ⟨_, microStep_generateSample hs hi⟩
    · have hi := BitVec.eq_of_toNat_eq hi
      cases ho : s.op with
      | gen => exact ⟨_, microStep_finishGenerator hs hi ho⟩
      | syn => exact ⟨_, microStep_turnToEncoder hs hi ho⟩
      | enc => exact absurd ho hg.op_ne
  | encHeader =>
    obtain ⟨-, hw⟩ := (insideCommand_encHeader_iff hs).1 h
    by_cases h44 : s.wp.toNat = 44
    · exact ⟨_, microStep_enterData hs h44⟩
    · have hmem : s.wp.toNat ∈ (headerFields s).map HeaderField.offset := by
        rw [headerFields_offsets]
        simpa [h44] using hw
      obtain ⟨f, hf, ho⟩ := List.mem_map.1 hmem
      exact ⟨_, microStep_writeField hs hf ho⟩
  | encData =>
    obtain ⟨-, -, hle⟩ := (insideCommand_encData_iff hs).1 h
    rcases hle.lt_or_eq with hi | hi
    · exact ⟨_, microStep_encodeSample hs hi⟩
    · exact ⟨_, microStep_finishEncoder hs (BitVec.eq_of_toNat_eq hi)⟩

/-- Neither a command as one step nor the host's side of the block faults. -/
theorem exec_ne_fault (i : Instr) (s : State) (f : Fault) : exec i s ≠ .fault f := by
  cases i <;> simp [exec, execGen, execEnc, execSyn]

theorem writeCommand_ne_fault (P : Params) (w : Word) (s : State) (f : Fault) : writeCommand P w s ≠ .fault f := by
  unfold writeCommand
  split
  · simp
  · split <;> simp [exec_ne_fault]

theorem hostWriteReg_ne_fault (P : Params) (r : Reg) (w : Word) (s : State) (f : Fault) :
    hostWriteReg P r w s ≠ .fault f := by
  unfold hostWriteReg
  split_ifs
  · simp
  · split <;> simp [writeCommand_ne_fault]

theorem bufferAccess_ne_fault (t s : State) (f : Fault) : bufferAccess t s ≠ .fault f := by
  unfold bufferAccess
  split_ifs <;> simp

theorem hostTransaction_ne_fault (P : Params) (x : Transaction) (s : State) (f : Fault) :
    hostTransaction P x s ≠ .fault f := by
  unfold hostTransaction
  split_ifs
  · cases x with
    | regWrite off w => dsimp only; split <;> simp [hostWriteReg_ne_fault]
    | regRead off => dsimp only; split <;> simp
    | smpWrite k w => exact bufferAccess_ne_fault _ _ f
    | smpRead k => exact bufferAccess_ne_fault _ _ f
    | outRead a => exact bufferAccess_ne_fault _ _ f
  · simp

/-- A step that faults is a micro-step that does (log entry 8). -/
theorem step_fault {f : Fault} (h : step s = .fault f) :
    ∃ l, microStep Config.params { s with inbox := l } = .fault f := by
  unfold step advance at h
  split at h
  case h_1 hi => exact ⟨[], by rw [← hi]; exact h⟩
  case h_2 e rest hi =>
    cases e with
    | host x => exact absurd h (hostTransaction_ne_fault _ _ _ f)
    | access a =>
      simp only [handle] at h
      split at h
      · exact absurd h (hostTransaction_ne_fault _ _ _ f)
      · simp at h
    | reset => simp [handle] at h
    | tick => exact ⟨rest, h⟩

/-- Settles O24: only a micro-step can fault, and inside a command there is a transition. -/
theorem invariantExcludesFaults : Obligations.InvariantExcludesFaults := by
  unfold Obligations.InvariantExcludesFaults
  intro s f h hf
  obtain ⟨l, hl⟩ := step_fault hf
  obtain ⟨t, ht⟩ := microStep_progress (P := Config.params) (h.inbox l).inside
  simp [ht] at hl

end

end Sys2Proof.Machine

/-! SUPPORT. Transitions of the sequencer, what the host's register accesses do, and that nothing but them and reset writes
a configuration register. -/

namespace Sys2Proof.Machine

/-- Settles O26: the branches of `microStep_next`, with what each leaves in SEQ, WP and IDX. -/
theorem sequencerTransitions : Obligations.SequencerTransitions := by
  unfold Obligations.SequencerTransitions
  intro P s t h
  rcases microStep_next h with ⟨hs, rfl⟩ | ⟨hs, hi, rfl⟩ | ⟨hs, hi, ho, rfl⟩ | ⟨hs, hi, ho, rfl⟩ | ⟨hs, hw, rfl⟩ |
    ⟨hs, -, f, hf, hw, rfl⟩ | ⟨hs, hi, rfl⟩ | ⟨hs, hi, rfl⟩
  · exact .inl ⟨hs, rfl⟩
  · simp [hs, hi]
  · simp [hs, hi, ho]
  · simp [hs, hi, ho]
  · simp [hs, hw]
  · have hfield : ∃ g ∈ headerFields s, s.wp.toNat = g.offset ∧ (writeField s f).wp.toNat = g.offset + g.size :=
      ⟨f, hf, hw.symm, writeField_wp_toNat hf hw⟩
    simp only [writeField_seq, hs, true_and]
    exact .inr (.inr (.inr (.inr (.inl hfield))))
  · simp [hs, hi]
  · simp [hs, hi]

/-! ### The registers at their offsets (`10_state.md` rules R20, R28, R29) -/

@[simp] theorem ofOffset_offset (r : Reg) : Reg.ofOffset r.offset = some r := by cases r <;> rfl

/-- Only the offset of a register is that register's. -/
theorem offset_eq_of_ofOffset {off : Nat} {r : Reg} (h : Reg.ofOffset off = some r) : off = r.offset := by
  unfold Reg.ofOffset at h
  split at h <;> cases h <;> rfl

theorem ofOffset_eq_none {off : Nat} (h : off ∉ [0x00, 0x04, 0x08, 0x0C, 0x10, 0x14, 0x18, 0x1C, 0x20]) :
    Reg.ofOffset off = none := by
  unfold Reg.ofOffset
  split <;> simp_all

/-- The registers that store what the host writes (`10_state.md` rule R29). -/
def storingRegs : List Reg := [.sampleRate, .bitDepth, .freq, .duration, .channels, .smpLen]

section
variable {P : Params} {s : State} {r : Reg}

/-- What a host write to a register leaves in each register. -/
theorem readReg_writeReg (s : State) (r q : Reg) (w : Word) :
    readReg (writeReg s r w) q = if q = r ∧ r ∈ storingRegs then w else readReg s q := by
  cases r <;> cases q <;> rfl

theorem readReg_writeReg_same (hr : r ∈ storingRegs) (s : State) (w : Word) : readReg (writeReg s r w) r = w := by
  rw [readReg_writeReg, if_pos ⟨rfl, hr⟩]

theorem readReg_writeReg_ne {q : Reg} (h : q ≠ r) (s : State) (w : Word) :
    readReg (writeReg s r w) q = readReg s q := by
  rw [readReg_writeReg, if_neg fun hq => h hq.1]

@[simp] theorem readReg_inbox (s : State) (l : List Event) (r : Reg) :
    readReg { s with inbox := l } r = readReg s r := by cases r <;> rfl

theorem hostTransaction_regWrite (r : Reg) (w : Word) :
    hostTransaction P (.regWrite r.offset w) s = hostWriteReg P r w s := by
  simp [hostTransaction, Transaction.wf]

theorem hostTransaction_regRead (r : Reg) : hostTransaction P (.regRead r.offset) s = .next (hostReadReg r s) := by
  simp [hostTransaction, Transaction.wf]

/-- An access to an offset the table of `10_state.md` rule R20 does not list is refused. -/
theorem hostTransaction_unlisted {off : Nat} (h : Reg.ofOffset off = none) (w : Word) :
    hostTransaction P (.regWrite off w) s = .refused .undefinedTransaction ∧
      hostTransaction P (.regRead off) s = .refused .undefinedTransaction := by
  simp [hostTransaction, Transaction.wf, h]

/-- A host write to a register other than CMD while BUSY = 0 (`30_encoding.md` rule R91). -/
theorem hostWriteReg_of_not_busy (hb : s.status.busy = false) (hr : r ≠ .cmd) (w : Word) :
    hostWriteReg P r w s = .next (writeReg s r w) := by
  cases r with
  | cmd => contradiction
  | _ => simp [hostWriteReg, hb]

/-- A host write to a read-only register, also while BUSY = 1 (`10_state.md` rule R28). -/
theorem hostWriteReg_readOnly (hr : r ∈ [Reg.status, .outLen]) (w : Word) : hostWriteReg P r w s = .next s := by
  unfold hostWriteReg
  split_ifs
  · rfl
  · simp only [List.mem_cons, List.not_mem_nil, or_false] at hr
    rcases hr with rfl | rfl <;> rfl

/-- A read of a register that is no length register, or of any register while BUSY = 0 (`30_encoding.md` rule R91). -/
theorem hostReadReg_eq_reply (h : s.status.busy = false ∨ r ∉ [Reg.smpLen, .outLen]) :
    hostReadReg r s = reply (.word (readReg s r)) s := by
  rw [hostReadReg, if_neg]
  rcases h with h | h <;> simp_all

/-- A step on a host write to a register other than CMD while BUSY = 0. -/
theorem step_regWrite {rest : List Event} {w : Word} (h : NextIs s (.regWrite r.offset w) rest)
    (hb : s.status.busy = false) (hr : r ≠ .cmd) : step s = .next (writeReg { s with inbox := rest } r w) := by
  rw [step_of_nextIs h, hostTransaction_regWrite]
  exact hostWriteReg_of_not_busy (s := { s with inbox := rest }) hb hr w

/-- A step on a host write to a read-only register. -/
theorem step_regWrite_readOnly {rest : List Event} {w : Word} (h : NextIs s (.regWrite r.offset w) rest)
    (hr : r ∈ [Reg.status, .outLen]) : step s = .next { s with inbox := rest } := by
  rw [step_of_nextIs h, hostTransaction_regWrite, hostWriteReg_readOnly hr]

/-- A step on a host read of a register that is no length register, or of any register while BUSY = 0. -/
theorem step_regRead {rest : List Event} (h : NextIs s (.regRead r.offset) rest)
    (hr : s.status.busy = false ∨ r ∉ [Reg.smpLen, .outLen]) :
    step s = .next { s with inbox := rest, replies := .word (readReg s r) :: s.replies } := by
  rw [step_of_nextIs h, hostTransaction_regRead, hostReadReg_eq_reply (s := { s with inbox := rest }) hr, readReg_inbox]
  rfl

end

/-- Settles O45: the two steps are a register write and a register read of an idle block. -/
theorem registerWriteThenRead : Obligations.RegisterWriteThenRead := by
  unfold Obligations.RegisterWriteThenRead
  intro s rest r w hr hb hin
  have hcmd : r ≠ .cmd := by rintro rfl; simp at hr
  have hwrite := step_regWrite ⟨_, hin, rfl⟩ hb hcmd
  set t := writeReg { s with inbox := .host (.regRead r.offset) :: rest } r w with ht
  have hval : readReg t r = w := readReg_writeReg_same hr _ w
  have hreplies : t.replies = s.replies := by simp [ht]
  have hread := step_regRead (s := t) ⟨_, writeReg_inbox _ r w, rfl⟩ (.inl (by simpa [ht] using hb))
  rw [hval, hreplies] at hread
  exact ⟨t, _, hwrite, hread, rfl, hval, fun q hq => by rw [ht, readReg_writeReg_ne hq, readReg_inbox], by simp [ht],
    by simp [ht], by simp [ht], rfl⟩

/-- A REG access of another width than 32 bits is no transaction (`20_memory.md` rule R69). -/
theorem transaction_reg_of_bits_ne {a : Access} (hs : a.space = .reg) (hb : a.bits ≠ 32) : a.transaction = none := by
  unfold Access.transaction
  split <;> simp_all

/-- Settles O46: register by register, and an offset or a width REG does not have. -/
theorem readOnlyAndUnlistedRegisters : Obligations.ReadOnlyAndUnlistedRegisters := by
  unfold Obligations.ReadOnlyAndUnlistedRegisters
  intro s rest
  refine ⟨fun w h => ?_, fun w h => ?_, fun h => ?_, fun off w hoff h => ?_, fun a hin hs hb => ?_⟩
  · exact step_regWrite_readOnly (r := .status) h (by decide)
  · exact step_regWrite_readOnly (r := .outLen) h (by decide)
  · exact step_regRead (r := .cmd) h (.inr (by decide))
  · obtain ⟨hwrite, hread⟩ := hostTransaction_unlisted (P := Config.params) (s := { s with inbox := rest })
      (ofOffset_eq_none hoff) w
    exact h.elim (fun h => (step_of_nextIs h).trans hwrite) fun h => (step_of_nextIs h).trans hread
  · simp only [step, advance, hin, handle, transaction_reg_of_bits_ne hs hb]

/-! ### The configuration (`10_state.md` rule R21) -/

/-- The configuration registers of both states hold the same words. -/
def SameConfig (s t : State) : Prop :=
  ∀ r ∈ [Reg.sampleRate, .bitDepth, .freq, .duration, .channels], readReg t r = readReg s r

theorem sameConfig_iff {s t : State} : SameConfig s t ↔ t.sampleRate = s.sampleRate ∧ t.bitDepth = s.bitDepth ∧
    t.freq = s.freq ∧ t.duration = s.duration ∧ t.channels = s.channels := by
  simp [SameConfig, readReg]

theorem SameConfig.refl (s : State) : SameConfig s s := fun _ _ => rfl

theorem SameConfig.trans {s t u : State} (h : SameConfig s t) (h' : SameConfig t u) : SameConfig s u :=
  fun r hr => (h' r hr).trans (h r hr)

theorem sameConfig_raise (i : Option Instr) (r : Result) (c : Cause) (s : State) : SameConfig s (raise i r c s) := by
  simp [sameConfig_iff]

theorem sameConfig_startCommand (P : Params) (i : Instr) (s : State) : SameConfig s (startCommand P i s) := by
  unfold startCommand
  split
  · exact sameConfig_raise _ _ _ s
  · split <;> simp [sameConfig_iff]

theorem sameConfig_microStep {P : Params} {s t : State} (h : microStep P s = .next t) : SameConfig s t := by
  rw [sameConfig_iff]
  rcases microStep_next h with ⟨-, rfl⟩ | ⟨-, -, rfl⟩ | ⟨-, -, -, rfl⟩ | ⟨-, -, -, rfl⟩ | ⟨-, -, rfl⟩ |
    ⟨-, -, f, -, -, rfl⟩ | ⟨-, -, rfl⟩ | ⟨-, -, rfl⟩ <;> simp [writeField]

/-- A command never writes a configuration register. -/
theorem sameConfig_exec {i : Instr} {s t : State} (h : exec i s = .next t) : SameConfig s t :=
  exec_induction (p := SameConfig s) (sameConfig_startCommand _ i s) (fun _ _ hu hm => hu.trans (sameConfig_microStep hm)) h

theorem sameConfig_writeCommand {P : Params} {w : Word} {s t : State} (h : writeCommand P w s = .next t) :
    SameConfig s t := by
  rcases writeCommand_next h with ⟨_, -, rfl⟩ | ⟨i, -, -, he⟩ | ⟨i, -, -, rfl⟩
  · exact sameConfig_raise _ _ _ s
  · exact sameConfig_exec he
  · exact sameConfig_startCommand _ i s

/-- A host transaction changes a configuration register only as a write of the word to it while BUSY = 0. -/
theorem hostTransaction_config {P : Params} {x : Transaction} {s t : State} {r : Reg}
    (hr : r ∈ [Reg.sampleRate, .bitDepth, .freq, .duration, .channels]) (h : hostTransaction P x s = .next t)
    (hne : readReg t r ≠ readReg s r) : ∃ w, x = .regWrite r.offset w ∧ s.status.busy = false ∧ readReg t r = w := by
  rcases hostTransaction_next h with ⟨_, _, -, -, rfl⟩ | ⟨off, w, q, rfl, hoff, -, hb, rfl⟩ | ⟨_, w, -, -, -, hw⟩ |
    ⟨_, q, -, -, rfl⟩ | ⟨k, w, -, -, -, rfl⟩ | ⟨k, -, -, -, rfl⟩ | ⟨a, -, -, -, rfl⟩
  · exact absurd rfl hne
  · have hq : r = q := by
      by_contra hq
      exact hne (readReg_writeReg_ne hq s w)
    subst hq
    exact ⟨w, by rw [offset_eq_of_ofOffset hoff], hb, readReg_writeReg_same (List.mem_append_left [.smpLen] hr) s w⟩
  · exact absurd (sameConfig_writeCommand hw r hr) hne
  · obtain ⟨l, k, hf⟩ := hostReadReg_frame q s
    exact absurd (sameConfig_iff.2 (by simp [hf]) r hr) hne
  · exact absurd (sameConfig_iff.2 (by simp) r hr) hne
  · exact absurd (sameConfig_iff.2 (by simp) r hr) hne
  · exact absurd (sameConfig_iff.2 (by simp) r hr) hne

/-- Settles O51: neither a micro-step nor a command writes a configuration register. -/
theorem onlyTheHostWritesConfiguration : Obligations.OnlyTheHostWritesConfiguration := by
  unfold Obligations.OnlyTheHostWritesConfiguration
  intro s t r hr h hne
  rcases step_next h with ⟨-, hm⟩ | ⟨rest, -, hm⟩ | ⟨rest, hin, -⟩ | ⟨e, rest, x, hin, he, hx⟩
  · exact absurd (sameConfig_microStep hm r hr) hne
  · exact absurd ((sameConfig_microStep hm r hr).trans (readReg_inbox s rest r)) hne
  · exact .inr ⟨rest, hin⟩
  · obtain ⟨w, rfl, hb, hw⟩ := hostTransaction_config hr hx (by rwa [readReg_inbox])
    exact .inl ⟨w, rest, ⟨e, hin, he⟩, hb, hw⟩

end Sys2Proof.Machine

/-! SUPPORT. What commands do not read: STATUS and the internal registers; the reset state; the layout of STATUS. -/

namespace Sys2Proof.Machine

/-! ### The end of a command -/

/-- A failed check reports a result other than NONE (`60_exceptions.md` rules R182 to R189). -/
theorem check_result_ne_none (c : Check) : c.result ≠ .none := by cases c <;> decide

/-- Every command completes, with BUSY = 0 and a RESULT (`60_exceptions.md` rules R193, R194). -/
theorem exec_completes (i : Instr) (s : State) :
    ∃ t, exec i s = .next t ∧ t.status.busy = false ∧ t.status.result ≠ .none := by
  by_cases h : Ready i s
  · cases i with
    | gen => exact ⟨_, execGen_of_ready h, by simp, by simp⟩
    | enc => exact ⟨_, execEnc_of_ready h, by simp, by simp⟩
    | syn => exact ⟨_, execSyn_of_ready h, by simp, by simp⟩
  · obtain ⟨c, -, he⟩ := exec_of_not_ready h
    exact ⟨_, he, rfl, check_result_ne_none c⟩

/-- No command reads STATUS: each overwrites it at its start or in its failure. -/
theorem exec_status (i : Instr) (s : State) (x : Status) : exec i { s with status := x } = exec i s := by
  cases i <;> rfl

/-- Settles O54: a command overwrites STATUS without reading it. -/
theorem resultAndCauseAreNeverRead : Obligations.ResultAndCauseAreNeverRead := by
  unfold Obligations.ResultAndCauseAreNeverRead
  intro i s x
  obtain ⟨t, he, hb, hr⟩ := exec_completes i s
  exact ⟨t, he, (exec_status i s x).trans he, hb, hr⟩

/-! ### The internal registers are dead (`10_state.md` rule R36) -/

/-- The state with other words in the internal registers. -/
def withInternal (s : State) (q : Seq) (o : Instr) (n : BitVec 31) (m p a : BitVec 47) (x : BitVec 31) (w : BitVec 32) :
    State :=
  { s with seq := q, op := o, n := n, modulus := m, stepWord := p, acc := a, idx := x, wp := w }

/-- The generator's loop neither reads nor writes WP. -/
theorem generateLoop_wp_irrelevant (P : Params) (k : Nat) (s : State) (w : BitVec 32) :
    generateLoop P k { s with wp := w } = { generateLoop P k s with wp := w } := by
  induction k generalizing s with
  | zero => rfl
  | succ k ih => exact ih (generateSample P s)

/-- Both states show the host the same registers and memories. -/
def SameVisible (s t : State) : Prop := (∀ r, readReg t r = readReg s r) ∧ t.smp = s.smp ∧ t.out = s.out

theorem sameVisible_of_fields {s t : State} (hst : t.status = s.status) (hc : SameConfig s t) (hl : t.smpLen = s.smpLen)
    (ho : t.outLen = s.outLen) (hsmp : t.smp = s.smp) (hout : t.out = s.out) : SameVisible s t := by
  refine ⟨fun r => ?_, hsmp, hout⟩
  cases r with
  | cmd => rfl
  | status => exact congrArg Status.word hst
  | smpLen => exact hl
  | outLen => exact ho
  | _ => exact hc _ (by decide)

section
variable (s : State) (q : Seq) (o : Instr) (n : BitVec 31) (m p a : BitVec 47) (x : BitVec 31) (w : BitVec 32)

theorem ready_withInternal (i : Instr) : Ready i (withInternal s q o n m p a x w) ↔ Ready i s :=
  ready_congr rfl rfl rfl rfl rfl rfl

/-- Of the internal registers only WP survives the start of generation and its loop. -/
theorem generator_withInternal (P : Params) (k : Nat) (i : Instr) :
    generateLoop P k (startGenerator i (withInternal s q o n m p a x w)) =
      { generateLoop P k (startGenerator i s) with wp := w } :=
  generateLoop_wp_irrelevant P k (startGenerator i s) w

theorem sameVisible_runEncoder : SameVisible (runEncoder (startEncoder s))
    (runEncoder (startEncoder (withInternal s q o n m p a x w))) := by
  refine sameVisible_of_fields (by simp) (sameConfig_iff.2 (by simp [withInternal])) (by simp [withInternal]) ?_
    (by simp [withInternal]) (runEncoder_out_congr rfl rfl rfl rfl rfl rfl rfl rfl)
  rw [runEncoder_outLen, runEncoder_outLen]
  rfl

theorem exec_withInternal (i : Instr) : ∃ t t', exec i s = .next t ∧
    exec i (withInternal s q o n m p a x w) = .next t' ∧ SameVisible t t' := by
  by_cases h : Ready i s
  · have h' := (ready_withInternal s q o n m p a x w i).2 h
    cases i with
    | gen =>
      refine ⟨_, _, execGen_of_ready h, execGen_of_ready h', ?_⟩
      rw [generator_withInternal]
      exact sameVisible_of_fields rfl (SameConfig.refl _) rfl rfl rfl rfl
    | enc => exact ⟨_, _, execEnc_of_ready h, execEnc_of_ready h', sameVisible_runEncoder ..⟩
    | syn =>
      refine ⟨_, _, execSyn_of_ready h, execSyn_of_ready h', ?_⟩
      rw [generator_withInternal]
      exact sameVisible_of_fields rfl (SameConfig.refl _) rfl rfl rfl rfl
  · obtain ⟨c, hv, he⟩ := exec_of_not_ready h
    have he' : exec i (withInternal s q o n m p a x w) = .next (raise (some i) c.result c.cause _) :=
      exec_of_validate_some hv
    exact ⟨_, _, he, he', sameVisible_of_fields rfl (SameConfig.refl _) rfl rfl rfl rfl⟩

end

/-- Settles O55: the start of a command overwrites every internal register it uses, and SYN clears WP between its
phases. -/
theorem internalRegistersAreDead : Obligations.InternalRegistersAreDead := by
  unfold Obligations.InternalRegistersAreDead
  intro i s q o n m p a x w
  exact exec_withInternal s q o n m p a x w i

/-! ### Reset (`10_state.md` rule R38) -/

/-- After reset SAMPLE_RATE is 0, which is the first check of every command. -/
theorem exec_reset (i : Instr) : exec i State.reset =
    .next { State.reset with status := ⟨false, .invalidConfiguration, .sampleRate⟩ } := by
  have hv : validate Config.params i State.reset = some .sampleRate := by
    rw [validate_eq, if_pos (by decide)]
  rw [exec_of_validate_some hv]
  cases i <;> rfl

/-- Settles O1: the fields of the reset state, and the check every command fails there. -/
theorem resetStateValues : Obligations.ResetStateValues := by
  unfold Obligations.ResetStateValues
  exact ⟨rfl, rfl, rfl, rfl, rfl, rfl, rfl, rfl, rfl, rfl, fun _ => rfl, fun _ => rfl, exec_reset⟩

/-! ### The layout of STATUS (`10_state.md` rule R24) -/

theorem result_code_le (r : Result) : r.code ≤ 5 := by cases r <;> decide

theorem cause_code_le (c : Cause) : c.code ≤ 7 := by cases c <;> decide

theorem statusWord_toNat (t : Status) :
    t.word.toNat = t.busy.toNat + 16 * t.result.code + 256 * t.cause.code := by
  have := Bool.toNat_le t.busy
  have := result_code_le t.result
  have := cause_code_le t.cause
  rw [Status.word, BitVec.toNat_ofNat]
  omega

/-- A field of STATUS as a number. -/
theorem statusWord_extract_toNat (t : Status) (lo len : Nat) : (t.word.extractLsb' lo len).toNat =
    (t.busy.toNat + 16 * t.result.code + 256 * t.cause.code) / 2 ^ lo % 2 ^ len := by
  rw [BitVec.extractLsb'_toNat, statusWord_toNat, Nat.shiftRight_eq_div_pow]

/-- A bit of STATUS. -/
theorem statusWord_getLsbD (t : Status) (k : Nat) : t.word.getLsbD k =
    decide ((t.busy.toNat + 16 * t.result.code + 256 * t.cause.code) / 2 ^ k % 2 = 1) := by
  rw [← BitVec.testBit_toNat, statusWord_toNat, Nat.testBit_eq_decide_div_mod_eq]

/-- Settles O56: the fields of the number `BUSY + 16 * RESULT + 256 * CAUSE` do not overlap. -/
theorem statusWordLayout : Obligations.StatusWordLayout := by
  unfold Obligations.StatusWordLayout
  intro t
  have hb := Bool.toNat_le t.busy
  have hr := result_code_le t.result
  have hc := cause_code_le t.cause
  refine ⟨statusWord_toNat t, ?_, ?_, ?_, ?_, ?_, ?_, hr, hc⟩
  · rw [statusWord_getLsbD]
    cases t.busy <;> simp <;> omega
  · exact BitVec.eq_of_toNat_eq (by rw [statusWord_extract_toNat]; change _ = 0; omega)
  · rw [statusWord_extract_toNat]; omega
  · rw [statusWord_getLsbD, decide_eq_false_iff_not]; omega
  · rw [statusWord_extract_toNat]; omega
  · exact BitVec.eq_of_toNat_eq (by rw [statusWord_extract_toNat]; change _ = 0; omega)

end Sys2Proof.Machine

/-! SUPPORT. The address spaces: what replaces the sample sequence and the file, which accesses are refused, that reads have
no side effect, and what `MemWrite` writes. -/

namespace Sys2Proof.Machine

/-! ### What a step can change that the host can read -/

/-- Every step is a micro-step, a reset, a command word, a register write or a sample write, or it changes nothing but the
model's own `inbox`, `replies` and `draws`. -/
theorem step_changes {s t : State} (h : step s = .next t) :
    (∃ l m k, t = { s with inbox := l, replies := m, draws := k }) ∨
    (∃ l, (s.inbox = [] ∨ ∃ rest, s.inbox = .tick :: rest) ∧ microStep Config.params { s with inbox := l } = .next t) ∨
    (∃ rest, s.inbox = .reset :: rest ∧ t = applyReset { s with inbox := rest }) ∨
    (∃ w rest, NextIs s (.regWrite Reg.cmd.offset w) rest ∧ s.status.busy = false ∧
      writeCommand Config.params w { s with inbox := rest } = .next t) ∨
    (∃ r w rest, NextIs s (.regWrite r.offset w) rest ∧ s.status.busy = false ∧
      t = writeReg { s with inbox := rest } r w) ∨
    (∃ k w rest, NextIs s (.smpWrite k w) rest ∧ s.status.busy = false ∧ t = smpWrite { s with inbox := rest } k w) := by
  rcases step_next h with ⟨hin, hm⟩ | ⟨rest, hin, hm⟩ | ⟨rest, hin, ht⟩ | ⟨e, rest, x, hin, he, hx⟩
  · exact .inr (.inl ⟨[], .inl hin, by rw [← hin]; exact hm⟩)
  · exact .inr (.inl ⟨rest, .inr ⟨rest, hin⟩, hm⟩)
  · exact .inr (.inr (.inl ⟨rest, hin, ht⟩))
  · have hnext : NextIs s x rest := ⟨e, hin, he⟩
    rcases hostTransaction_next hx with ⟨_, _, -, -, rfl⟩ | ⟨off, w, r, rfl, hoff, -, hb, rfl⟩ |
      ⟨off, w, rfl, hoff, hb, hw⟩ | ⟨_, r, -, -, rfl⟩ | ⟨k, w, rfl, -, hb, rfl⟩ | ⟨k, -, -, -, rfl⟩ | ⟨a, -, -, -, rfl⟩
    · exact .inl ⟨rest, _, _, rfl⟩
    · exact .inr (.inr (.inr (.inr (.inl ⟨r, w, rest, offset_eq_of_ofOffset hoff ▸ hnext, hb, rfl⟩))))
    · exact .inr (.inr (.inr (.inl ⟨w, rest, offset_eq_of_ofOffset hoff ▸ hnext, hb, hw⟩)))
    · obtain ⟨m, k, hr⟩ := hostReadReg_frame r { s with inbox := rest }
      exact .inl ⟨rest, m, k, hr⟩
    · exact .inr (.inr (.inr (.inr (.inr ⟨k, w, rest, hnext, hb, rfl⟩))))
    · exact .inl ⟨rest, _, _, rfl⟩
    · exact .inl ⟨rest, _, _, rfl⟩

/-! ### What replaces the sample sequence and the file (`20_memory.md` rule R79, `70_reset_and_hazards.md` rule R216) -/

/-- The sample sequence as the host reads it. -/
def samples (s : State) : Memory Half × Word := (s.smp, s.smpLen)

/-- The file as the host reads it. -/
def file (s : State) : List Host.Cell × Word := (s.out, s.outLen)

theorem samples_ne_iff {s t : State} : samples t ≠ samples s ↔ t.smp ≠ s.smp ∨ t.smpLen ≠ s.smpLen := by
  rw [samples, samples, ne_eq, Prod.mk.injEq, not_and_or]

theorem file_ne_iff {s t : State} : file t ≠ file s ↔ t.out ≠ s.out ∨ t.outLen ≠ s.outLen := by
  rw [file, file, ne_eq, Prod.mk.injEq, not_and_or]

/-- A command replaces this part of the state only if it is one that produces it: in failure, at its start, and as a
whole. -/
structure ReplacedBy {β : Type} (part : State → β) (produces : Instr → Bool) : Prop where
  raise : ∀ {i : Option Instr} (r : Result) (c : Cause) (s : State), i.any produces = false → part (raise i r c s) = part s
  start : ∀ {i : Instr} {s : State}, produces i = false → Ready i s → part (startCommand Config.params i s) = part s
  exec : ∀ {i : Instr} {s t : State}, produces i = false → Ready i s → exec i s = .next t → part t = part s

/-- A host write to CMD replaces a part only as a command that produces it, in both views. -/
theorem ReplacedBy.command {β : Type} {part : State → β} {produces : Instr → Bool} (h : ReplacedBy part produces)
    {w : Word} {s t : State} (hw : writeCommand Config.params w s = .next t) (hne : part t ≠ part s) :
    ∃ i, decode w = .ok i ∧ produces i = true := by
  rcases writeCommand_next hw with ⟨_, -, rfl⟩ | ⟨i, hi, -, he⟩ | ⟨i, hi, -, rfl⟩
  · exact absurd (h.raise _ _ s rfl) hne
  · refine ⟨i, hi, Bool.of_not_eq_false fun hp => hne ?_⟩
    by_cases hr : Ready i s
    · exact h.exec hp hr he
    · obtain ⟨c, -, hc⟩ := exec_of_not_ready hr
      obtain rfl : _ = t := Host.Outcome.next.inj (hc.symm.trans he)
      exact h.raise _ _ s hp
  · refine ⟨i, hi, Bool.of_not_eq_false fun hp => hne ?_⟩
    by_cases hr : Ready i s
    · exact h.start hp hr
    · obtain ⟨c, hc, -⟩ := startCommand_of_not_ready hr
      exact hc ▸ h.raise _ _ s hp

/-- Only GEN and SYN produce the sample sequence. -/
theorem producesSamples_iff {i : Instr} : producesSamples i = true ↔ i = .gen ∨ i = .syn := by cases i <;> decide

/-- Only ENC and SYN produce the file. -/
theorem producesFile_iff {i : Instr} : producesFile i = true ↔ i = .enc ∨ i = .syn := by cases i <;> decide

theorem replacedBy_samples : ReplacedBy samples producesSamples where
  raise r c s hi := by simp [samples, hi]
  start {i s} hi hr := by
    cases i with
    | enc => rw [startCommand_of_ready hr]; rfl
    | gen => cases hi
    | syn => cases hi
  exec {i s t} hi hr he := by
    cases i with
    | enc =>
      obtain rfl : _ = t := Host.Outcome.next.inj ((execEnc_of_ready hr).symm.trans he)
      simp [samples]
    | gen => cases hi
    | syn => cases hi

theorem replacedBy_file : ReplacedBy file producesFile where
  raise r c s hi := by simp [file, hi]
  start {i s} hi hr := by
    cases i with
    | gen => rw [startCommand_of_ready hr]; rfl
    | enc => cases hi
    | syn => cases hi
  exec {i s t} hi hr he := by
    cases i with
    | gen =>
      obtain rfl : _ = t := Host.Outcome.next.inj ((execGen_of_ready hr).symm.trans he)
      simp [file]
    | enc => cases hi
    | syn => cases hi

/-- Outside GEN_LOOP no micro-step changes the sample sequence. -/
theorem samples_microStep {P : Params} {s t : State} (h : microStep P s = .next t) (hs : s.seq ≠ .genLoop) :
    samples t = samples s := by
  rcases microStep_next h with ⟨-, rfl⟩ | ⟨hg, -⟩ | ⟨hg, -⟩ | ⟨hg, -⟩ | ⟨-, -, rfl⟩ | ⟨-, -, f, -, -, rfl⟩ |
    ⟨-, -, rfl⟩ | ⟨-, -, rfl⟩
  · rfl
  · exact absurd hg hs
  · exact absurd hg hs
  · exact absurd hg hs
  · rfl
  · simp [samples, writeField]
  · simp [samples]
  · rfl

/-- Outside ENC_HEADER and ENC_DATA no micro-step changes the file. -/
theorem file_microStep {P : Params} {s t : State} (h : microStep P s = .next t) (hh : s.seq ≠ .encHeader)
    (hd : s.seq ≠ .encData) : file t = file s := by
  rcases microStep_next h with ⟨-, rfl⟩ | ⟨-, -, rfl⟩ | ⟨-, -, -, rfl⟩ | ⟨-, -, -, rfl⟩ | ⟨hs, -⟩ | ⟨hs, -⟩ |
    ⟨hs, -⟩ | ⟨hs, -⟩
  · rfl
  · rfl
  · rfl
  · rfl
  · exact absurd hs hh
  · exact absurd hs hh
  · exact absurd hs hd
  · exact absurd hs hd

/-- A host write to a register other than SMP_LEN leaves the sample sequence. -/
theorem samples_writeReg {r : Reg} (hr : r ≠ .smpLen) (s : State) (w : Word) : samples (writeReg s r w) = samples s := by
  cases r with
  | smpLen => contradiction
  | _ => rfl

theorem file_writeReg (s : State) (r : Reg) (w : Word) : file (writeReg s r w) = file s := by simp [file]

/-- Settles O52: of the steps that change anything, those left are the ones that replace the sample sequence. -/
theorem samplesStayUntilReplaced : Obligations.SamplesStayUntilReplaced := by
  unfold Obligations.SamplesStayUntilReplaced
  intro s t h hne
  replace hne := samples_ne_iff.2 hne
  rcases step_changes h with ⟨l, m, k, rfl⟩ | ⟨l, hin, hm⟩ | ⟨rest, hin, -⟩ | ⟨w, rest, hx, hb, hw⟩ |
    ⟨r, w, rest, hx, hb, rfl⟩ | ⟨k, w, rest, hx, hb, -⟩
  · exact absurd rfl hne
  · exact .inr (.inr (.inr (.inr ⟨by_contra fun hs => hne (samples_microStep hm hs :), hin⟩)))
  · exact .inr (.inr (.inr (.inl ⟨rest, hin⟩)))
  · obtain ⟨i, hi, hp⟩ := replacedBy_samples.command hw hne
    refine .inl ⟨w, rest, hx, hb, ?_⟩
    rcases producesSamples_iff.1 hp with rfl | rfl
    · exact .inl hi
    · exact .inr hi
  · obtain rfl : r = .smpLen := by_contra fun hr => hne (samples_writeReg hr _ w)
    exact .inr (.inr (.inl ⟨w, rest, hx, hb⟩))
  · exact .inr (.inl ⟨k, w, rest, hx, hb⟩)

/-- Settles O53: of the steps that change anything, those left are the ones that replace the file; no write of the host is
among them. -/
theorem fileStaysUntilReplaced : Obligations.FileStaysUntilReplaced := by
  unfold Obligations.FileStaysUntilReplaced
  intro s t h hne
  replace hne := file_ne_iff.2 hne
  rcases step_changes h with ⟨l, m, k, rfl⟩ | ⟨l, hin, hm⟩ | ⟨rest, hin, -⟩ | ⟨w, rest, hx, hb, hw⟩ |
    ⟨r, w, rest, -, -, rfl⟩ | ⟨k, w, rest, -, -, rfl⟩
  · exact absurd rfl hne
  · refine .inr (.inr ⟨by_contra fun hs => hne ?_, hin⟩)
    obtain ⟨hh, hd⟩ := not_or.1 hs
    exact (file_microStep hm hh hd :)
  · exact .inr (.inl ⟨rest, hin⟩)
  · obtain ⟨i, hi, hp⟩ := replacedBy_file.command hw hne
    refine .inl ⟨w, rest, hx, hb, ?_⟩
    rcases producesFile_iff.1 hp with rfl | rfl
    · exact .inl hi
    · exact .inr hi
  · exact absurd (file_writeReg _ r w) hne
  · exact absurd rfl hne

/-! ### `MemWrite` and `MemRead` (`20_memory.md` rules R66, R67) -/

theorem memRead_memWrite {n v : Nat} (hv : v < 256 ^ n) (s : State) (addr : Nat) :
    memRead (memWrite s addr n v) addr n = v :=
  memRead_of_bytes hv fun j hj => by rw [read_memWrite, if_pos (by omega), Nat.add_sub_cancel_left]

/-- Byte j of a number, as the spec writes it and as `MemWrite` computes it. -/
theorem ofNat_byte (v j : Nat) : BitVec.ofNat 8 (v / 2 ^ (8 * j) % 256) = BitVec.ofNat 8 (v / 256 ^ j) := by
  rw [pow_mul]
  exact BitVec.eq_of_toNat_eq (Nat.mod_mod _ _)

/-- Settles O44: the bytes `MemWrite` leaves at each address, read back one by one and as a number. -/
theorem memReadAfterMemWrite : Obligations.MemReadAfterMemWrite := by
  unfold Obligations.MemReadAfterMemWrite
  intro s addr n v hv
  refine ⟨memRead_memWrite hv s addr, fun j hj => ?_, fun a ha => ?_⟩
  · rw [outRead_memWrite, if_pos (by omega), Nat.add_sub_cancel_left, ofNat_byte]
  · rw [outRead_memWrite, if_neg ha]

/-! ### Accesses that are no transaction of the block (`20_memory.md` rule R69) -/

/-- The shape of an access that is a transaction. -/
theorem transaction_eq_some {a : Access} {x : Transaction} (h : a.transaction = some x) :
    (a.space = .reg ∧ a.bits = 32 ∧ ((∃ w, x = .regWrite a.cell w) ∨ x = .regRead a.cell)) ∨
    (a.space = .smp ∧ a.bits = 16 ∧ ((∃ w, x = .smpWrite a.cell w) ∨ x = .smpRead a.cell)) ∨
    (a.space = .out ∧ a.bits = 8 ∧ a.isWrite = false ∧ x = .outRead a.cell) := by
  unfold Access.transaction at h
  split at h
  case h_1 hs hw hb =>
    split_ifs at h
    exact .inl ⟨hs, hb, .inl ⟨_, (Option.some.inj h).symm⟩⟩
  case h_2 hs hw hb => exact .inl ⟨hs, hb, .inr (Option.some.inj h).symm⟩
  case h_3 hs hw hb =>
    split_ifs at h
    exact .inr (.inl ⟨hs, hb, .inl ⟨_, (Option.some.inj h).symm⟩⟩)
  case h_4 hs hw hb => exact .inr (.inl ⟨hs, hb, .inr (Option.some.inj h).symm⟩)
  case h_5 hs hw hb => exact .inr (.inr ⟨hs, hb, hw, (Option.some.inj h).symm⟩)
  case h_6 => cases h

/-- A step on a transaction outside its space is refused. -/
theorem step_of_not_wf {s : State} {x : Transaction} {rest : List Event} (h : NextIs s x rest)
    (hx : x.wf Config.params = false) : step s = .refused .undefinedTransaction := by
  simp [step_of_nextIs h, hostTransaction, hx]

/-- A step on an access that is no transaction, or one outside its space, is refused. -/
theorem step_access_refused {s : State} {a : Access} {rest : List Event} (h : s.inbox = .access a :: rest)
    (ha : ∀ x, a.transaction = some x → x.wf Config.params = false) : step s = .refused .undefinedTransaction := by
  cases hx : a.transaction with
  | some x => exact step_of_not_wf ⟨_, h, hx⟩ (ha x hx)
  | none => simp only [step, advance, h, handle, hx]

/-- An offset that is not aligned, or above the last register, is not listed. -/
theorem ofOffset_eq_none_of_outside {off : Nat} (h : off % 4 ≠ 0 ∨ 0x20 < off) : Reg.ofOffset off = none := by
  refine ofOffset_eq_none fun hm => ?_
  have hlisted : ∀ k ∈ [0x00, 0x04, 0x08, 0x0C, 0x10, 0x14, 0x18, 0x1C, 0x20], k % 4 = 0 ∧ k ≤ 0x20 := by decide
  have := hlisted off hm
  omega

section
variable {P : Params}

theorem wf_reg_outside {off : Nat} {x : Transaction} (h : off % 4 ≠ 0 ∨ 0x20 < off)
    (hx : (∃ w, x = .regWrite off w) ∨ x = .regRead off) : x.wf P = false := by
  rcases hx with ⟨w, rfl⟩ | rfl <;> simp [Transaction.wf, ofOffset_eq_none_of_outside h]

theorem wf_smp_outside {k : Nat} {x : Transaction} (h : P.nMax ≤ k)
    (hx : (∃ w, x = .smpWrite k w) ∨ x = .smpRead k) : x.wf P = false := by
  rcases hx with ⟨w, rfl⟩ | rfl <;> simpa [Transaction.wf] using h

theorem wf_out_outside {a : Nat} (h : P.outCap ≤ a) : (Transaction.outRead a).wf P = false := by
  simpa [Transaction.wf] using h

/-- An access of rule R69's undefined shapes is no transaction, or one outside its space. -/
theorem access_undefined {a : Access} {x : Transaction}
    (ha : (a.space = .reg ∧ (a.bits ≠ 32 ∨ a.cell % 4 ≠ 0 ∨ 0x20 < a.cell)) ∨
      (a.space = .smp ∧ (a.bits ≠ 16 ∨ P.nMax ≤ a.cell)) ∨
      (a.space = .out ∧ (a.bits ≠ 8 ∨ a.isWrite = true ∨ P.outCap ≤ a.cell)))
    (hx : a.transaction = some x) : x.wf P = false := by
  rcases transaction_eq_some hx with ⟨hs, hb, hreg⟩ | ⟨hs, hb, hsmp⟩ | ⟨hs, hb, hw, rfl⟩
  · exact wf_reg_outside (by simpa [hs, hb] using ha) hreg
  · exact wf_smp_outside (by simpa [hs, hb] using ha) hsmp
  · exact wf_out_outside (by simpa [hs, hb, hw] using ha)

end

/-- Settles O49: such an access is no transaction, or one outside its space. -/
theorem undefinedAccessesAreRefused : Obligations.UndefinedAccessesAreRefused := by
  unfold Obligations.UndefinedAccessesAreRefused
  refine ⟨fun s rest a hin ha => step_access_refused hin fun x => access_undefined ha, fun s rest => ⟨?_, ?_, ?_⟩⟩
  · rintro off w hoff (h | h)
    · exact step_of_not_wf h (wf_reg_outside hoff (.inl ⟨w, rfl⟩))
    · exact step_of_not_wf h (wf_reg_outside hoff (.inr rfl))
  · rintro k w hk (h | h)
    · exact step_of_not_wf h (wf_smp_outside hk (.inl ⟨w, rfl⟩))
    · exact step_of_not_wf h (wf_smp_outside hk (.inr rfl))
  · exact fun a ha h => step_of_not_wf h (wf_out_outside ha)

/-! ### Reads (`20_memory.md` rule R71) -/

/-- A register read returns one word. -/
theorem hostReadReg_one_reply (r : Reg) (s : State) :
    ∃ w k, hostReadReg r s = { s with replies := .word w :: s.replies, draws := k } := by
  unfold hostReadReg
  split
  · exact ⟨_, _, rfl⟩
  · exact ⟨_, s.draws, rfl⟩

/-- A host read that completes returns one value, and changes nothing but `replies` and `draws`. -/
theorem hostTransaction_read {P : Params} {x : Transaction} {s t : State}
    (hx : ∃ p, x = .regRead p ∨ x = .smpRead p ∨ x = .outRead p) (h : hostTransaction P x s = .next t) :
    ∃ v k, t = { s with replies := v :: s.replies, draws := k } := by
  obtain ⟨p, rfl | rfl | rfl⟩ := hx
  · obtain ⟨r, -, rfl⟩ : ∃ r, Reg.ofOffset p = some r ∧ t = hostReadReg r s := by simpa using hostTransaction_next h
    obtain ⟨w, k, hr⟩ := hostReadReg_one_reply r s
    exact ⟨_, k, hr⟩
  · obtain ⟨-, -, rfl⟩ : p < P.nMax ∧ s.status.busy = false ∧ t = reply (.sample (smpRead s p)) s := by
      simpa using hostTransaction_next h
    exact ⟨_, s.draws, rfl⟩
  · obtain ⟨-, -, rfl⟩ : p < P.outCap ∧ s.status.busy = false ∧ t = reply (.byte (outRead s p)) s := by
      simpa using hostTransaction_next h
    exact ⟨_, s.draws, rfl⟩

/-- Settles O50: a register read of an idle block, and the frame of every read. -/
theorem readsChangeNothing : Obligations.ReadsChangeNothing := by
  unfold Obligations.ReadsChangeNothing
  refine ⟨fun s rest r h hb => step_regRead h (.inl hb), fun s t rest x h hx hstep => ?_⟩
  rw [step_of_nextIs h] at hstep
  obtain ⟨v, k, rfl⟩ := hostTransaction_read hx hstep
  exact ⟨v, rfl⟩

/-! ### The layout of the header and cells nothing has written (`20_memory.md` rules R72, R73) -/

theorem headerFields_layout (s : State) : (headerFields s).map (fun f => (f.offset, f.size)) =
    [(0, 4), (4, 4), (8, 4), (12, 4), (16, 4), (20, 2), (22, 2), (24, 4), (28, 4), (32, 2), (34, 2), (36, 4),
      (40, 4)] := rfl

/-- Settles O43: the alignment is a fact about the table of offsets and sizes. -/
theorem headerLayoutIsAligned : Obligations.HeaderLayoutIsAligned := by
  unfold Obligations.HeaderLayoutIsAligned
  intro s
  refine ⟨headerFields_layout s, fun f hf => ?_⟩
  have htable : ∀ p ∈ (headerFields s).map (fun f => (f.offset, f.size)), p.2 ∣ p.1 := by
    rw [headerFields_layout]; decide
  exact htable _ (List.mem_map_of_mem hf)

theorem smpRead_of_unwritten {s : State} {k : Nat} (h : Memory.read s.smp k = none) :
    smpRead s k = Config.powerOnSample s.epoch k := by
  rw [smpRead, h, Option.getD_none]

theorem outRead_of_unwritten {s : State} {a : Nat} (h : Memory.read s.out a = none) :
    outRead s a = Config.powerOnByte s.epoch a := by
  rw [outRead, h, Option.getD_none]

/-- Settles O58: a write of another cell does not change what a cell reads as. -/
theorem unwrittenCellsReadFreeValues : Obligations.UnwrittenCellsReadFreeValues := by
  unfold Obligations.UnwrittenCellsReadFreeValues
  refine fun s k => ⟨fun h => ⟨smpRead_of_unwritten h, fun j w hj => ?_⟩, outRead_of_unwritten⟩
  rw [smpRead_smpWrite_ne s w hj.symm, smpRead_of_unwritten h]

end Sys2Proof.Machine

/-! SUPPORT. Command words by their two fields, what a write to CMD does, and the host's accesses to the two buffers. -/

namespace Sys2Proof.Machine

/-! ### Command words (`30_encoding.md` rules R94, R95, R98) -/

/-- ZERO and OPC are all of a command word. -/
theorem commandZero_append_commandOpc (w : Word) : commandZero w ++ commandOpc w = w :=
  BitVec.extractLsb'_append_extractLsb'_eq_extractLsb' rfl |>.trans BitVec.extractLsb'_eq_self

/-- A word whose ZERO is not 0 is rejected for that, whatever its OPC. -/
theorem decode_of_commandZero_ne {w : Word} (h : commandZero w ≠ 0) : decode w = .error .zeroField := if_pos h

/-- A word is command i when ZERO is 0 and OPC is the opcode of i. -/
theorem decode_eq_ok_iff_fields (w : Word) (i : Instr) :
    decode w = .ok i ↔ commandZero w = 0 ∧ (commandOpc w).toNat = i.opcode := by
  by_cases hz : commandZero w = 0
  · rw [decode, if_neg (not_not.2 hz)]
    split <;> cases i <;> simp_all [Instr.opcode]
  · exact iff_of_false (by simp [decode_of_commandZero_ne hz]) fun h => hz h.1

/-- A word whose ZERO is 0 is rejected for its OPC when that is the opcode of no command. -/
theorem decode_eq_opcode_error_iff (w : Word) :
    decode w = .error .opcode ↔ commandZero w = 0 ∧ (commandOpc w).toNat ∉ [1, 2, 3] := by
  by_cases hz : commandZero w = 0
  · rw [decode, if_neg (not_not.2 hz)]
    split <;> simp_all
  · exact iff_of_false (by simp [decode_of_commandZero_ne hz]) fun h => hz h.1

theorem encodingShape (i : Instr) : Laws.EncodingShape.Statement i := by
  cases i with
  | gen => exact Laws.EncodingShape.gen
  | enc => exact Laws.EncodingShape.enc
  | syn => exact Laws.EncodingShape.syn

theorem decode_encode (i : Instr) : decode (encode i) = .ok i := by
  obtain ⟨hz, ho, -, -⟩ := encodingShape i
  exact (decode_eq_ok_iff_fields _ i).2 ⟨hz, ho⟩

/-- The fields determine the word, so a command has one word. -/
theorem decode_eq_ok_iff (w : Word) (i : Instr) : decode w = .ok i ↔ w = encode i := by
  refine ⟨fun h => ?_, fun h => h ▸ decode_encode i⟩
  obtain ⟨hz, ho⟩ := (decode_eq_ok_iff_fields w i).1 h
  have hopc : commandOpc w = BitVec.ofNat 8 i.opcode := by rw [← ho, BitVec.ofNat_toNat, BitVec.setWidth_eq]
  rw [encode, ← hz, ← hopc, commandZero_append_commandOpc]

@[simp] theorem encode_gen : encode .gen = 0x00000001 := rfl
@[simp] theorem encode_enc : encode .enc = 0x00000002 := rfl
@[simp] theorem encode_syn : encode .syn = 0x00000003 := rfl

/-- Settles O4: a word decodes to a command exactly if it is the word of that command. -/
theorem decodeAcceptsExactlyThreeWords : Obligations.DecodeAcceptsExactlyThreeWords := by
  unfold Obligations.DecodeAcceptsExactlyThreeWords
  intro w i
  rw [decode_eq_ok_iff]
  cases i <;> simp

theorem isCommandWord_encode (i : Instr) : isCommandWord (encode i) = true := by cases i <;> rfl

/-- Settles O5: every command is well formed, and its word has the two properties. -/
theorem decodeEncodeRoundTrip : Obligations.DecodeEncodeRoundTrip := by
  unfold Obligations.DecodeEncodeRoundTrip
  intro i _
  exact ⟨isCommandWord_encode i, decode_encode i⟩

/-- A row of the opcode table that fits a command word is that word decoded. -/
theorem decodeTableWord_of_decode {nbits w : Nat} {i : Instr} (hn : nbits ≤ 32) (hw : w < 2 ^ 32)
    (h : decode (BitVec.ofNat 32 w) = .ok i) : decodeTableWord nbits w = some i := by
  rw [decodeTableWord, if_pos ⟨hn, hw⟩, h]

/-- Settles O3: each legal word is the word of its command, each illegal one has the field that makes it so. -/
theorem specCommandWordsDecode : Obligations.SpecCommandWordsDecode := by
  unfold Obligations.SpecCommandWordsDecode
  refine ⟨decode_encode .gen, decode_encode .enc, decode_encode .syn, ?_, ?_, ?_, ?_, ?_, ?_, ?_, ?_⟩
  · exact (decode_eq_opcode_error_iff _).2 (by decide)
  · exact (decode_eq_opcode_error_iff _).2 (by decide)
  · exact (decode_eq_opcode_error_iff _).2 (by decide)
  · exact decode_of_commandZero_ne (by decide)
  · exact decode_of_commandZero_ne (by decide)
  · exact decodeTableWord_of_decode (by decide) (by decide) (decode_encode .gen)
  · exact decodeTableWord_of_decode (by decide) (by decide) (decode_encode .enc)
  · exact decodeTableWord_of_decode (by decide) (by decide) (decode_encode .syn)

/-! ### A write to CMD (`30_encoding.md` rule R102) -/

section
variable {P : Params} {s : State} {rest : List Event}

/-- A write of a command word in the view in which a command is one step. -/
theorem writeCommand_of_command {w : Word} {i : Instr} (h : decode w = .ok i) (hg : s.granularity = .command) :
    writeCommand P w s = exec i s := by
  simp only [writeCommand, h, hg]

/-- A write of a command word in the view of micro-steps (log entry 2). -/
theorem writeCommand_of_microStep {w : Word} {i : Instr} (h : decode w = .ok i) (hg : s.granularity = .microStep) :
    writeCommand P w s = .next (startCommand P i s) := by
  simp only [writeCommand, h, hg]

/-- A step on a host write to CMD while BUSY = 0. -/
theorem step_regWrite_cmd {w : Word} (h : NextIs s (.regWrite Reg.cmd.offset w) rest) (hb : s.status.busy = false) :
    step s = writeCommand Config.params w { s with inbox := rest } := by
  rw [step_of_nextIs h, hostTransaction_regWrite, hostWriteReg, if_neg (by simp [hb])]

/-! ### The two buffers while BUSY = 0 (`30_encoding.md` rules R92, R93) -/

theorem bufferAccess_of_not_busy (hb : s.status.busy = false) (t : State) : bufferAccess t s = .next t := by
  simp [bufferAccess, hb]

theorem hostTransaction_smpWrite {k : Nat} (hk : k < P.nMax) (w : Half) :
    hostTransaction P (.smpWrite k w) s = bufferAccess (smpWrite s k w) s := by
  simp [hostTransaction, Transaction.wf, hk]

theorem hostTransaction_smpRead {k : Nat} (hk : k < P.nMax) :
    hostTransaction P (.smpRead k) s = bufferAccess (reply (.sample (smpRead s k)) s) s := by
  simp [hostTransaction, Transaction.wf, hk]

theorem hostTransaction_outRead {a : Nat} (ha : a < P.outCap) :
    hostTransaction P (.outRead a) s = bufferAccess (reply (.byte (outRead s a)) s) s := by
  simp [hostTransaction, Transaction.wf, ha]

/-- A step on a host write of a cell of SMP. -/
theorem step_smpWrite {k : Nat} {w : Half} (h : NextIs s (.smpWrite k w) rest) (hb : s.status.busy = false)
    (hk : k < Config.params.nMax) : step s = .next (smpWrite { s with inbox := rest } k w) := by
  rw [step_of_nextIs h, hostTransaction_smpWrite hk, bufferAccess_of_not_busy (s := { s with inbox := rest }) hb]

/-- A step on a host read of a cell of SMP. -/
theorem step_smpRead {k : Nat} (h : NextIs s (.smpRead k) rest) (hb : s.status.busy = false)
    (hk : k < Config.params.nMax) :
    step s = .next { s with inbox := rest, replies := .sample (smpRead s k) :: s.replies } := by
  rw [step_of_nextIs h, hostTransaction_smpRead hk, bufferAccess_of_not_busy (s := { s with inbox := rest }) hb]; rfl

/-- A step on a host read of a byte of OUT. -/
theorem step_outRead {a : Nat} (h : NextIs s (.outRead a) rest) (hb : s.status.busy = false)
    (ha : a < Config.params.outCap) :
    step s = .next { s with inbox := rest, replies := .byte (outRead s a) :: s.replies } := by
  rw [step_of_nextIs h, hostTransaction_outRead ha, bufferAccess_of_not_busy (s := { s with inbox := rest }) hb]; rfl

end

/-- Settles O6: the write is `writeCommand`, which branches on the view. -/
theorem commandWriteRunsDecodedInstruction : Obligations.CommandWriteRunsDecodedInstruction := by
  unfold Obligations.CommandWriteRunsDecodedInstruction
  intro s rest w i h hb hw
  rw [step_regWrite_cmd h hb]
  exact ⟨fun hg => writeCommand_of_command hw hg, fun hg => writeCommand_of_microStep hw hg⟩

/-- Settles O47: a write of a cell and the reads of the two buffers, each a step of an idle block. -/
theorem hostBufferAccesses : Obligations.HostBufferAccesses := by
  unfold Obligations.HostBufferAccesses
  refine fun s rest hb => ⟨fun k w hk h => ?_, fun k hk h => step_smpRead h hb hk, fun a ha h => step_outRead h hb ha⟩
  exact ⟨_, step_smpWrite h hb hk, smpRead_smpWrite_same _ k w, fun j hj => smpRead_smpWrite_ne _ w hj, rfl⟩

end Sys2Proof.Machine

/-! SUPPORT. The reference sine unit and what the accuracy of any sine unit gives: the exact amplitude at simple
fractions of a turn, its symmetries, and that it is never half way between two integers. -/

namespace Sys2Proof.Machine

/-! ### The exact amplitude (`40_generator.md` rule R117) -/

theorem Sine.Domain.mod_pos {acc mod : Nat} (h : Sine.Domain acc mod) : 0 < mod := lt_of_lt_of_le (by norm_num) h.1

theorem Sine.Domain.four_dvd {acc mod : Nat} (h : Sine.Domain acc mod) : 4 ∣ mod :=
  Dvd.dvd.trans (by norm_num) h.2.2.1

/-- The domain holds every accumulator value below its modulus. -/
theorem Sine.Domain.of_lt {acc mod a : Nat} (h : Sine.Domain acc mod) (ha : a < mod) : Sine.Domain a mod :=
  ⟨h.1, h.2.1, h.2.2.1, ha⟩

/-- The exact amplitude at `k / n` of a turn. -/
theorem Sine.exact_of_turn {acc mod n k : Nat} (hm : 0 < mod) (hn : 0 < n) (h : n * acc = k * mod) :
    Sine.exact acc mod = 2 ^ 30 * Real.sin (2 * Real.pi * (k / n)) := by
  have hmR : (mod : ℝ) ≠ 0 := by exact_mod_cast hm.ne'
  have hnR : (n : ℝ) ≠ 0 := by exact_mod_cast hn.ne'
  have hR : (n : ℝ) * acc = k * mod := by exact_mod_cast h
  have hturn : (acc : ℝ) / mod = k / n := by rw [div_eq_div_iff hmR hnR]; linarith
  rw [Sine.exact, mul_div_assoc, hturn]

theorem Sine.exact_zero (mod : Nat) : Sine.exact 0 mod = 0 := by simp [Sine.exact]

section
variable {acc mod : Nat} (h : Sine.Domain acc mod)
include h

theorem Sine.exact_quarter : Sine.exact (mod / 4) mod = 2 ^ 30 := by
  have := h.four_dvd
  rw [Sine.exact_of_turn (n := 4) (k := 1) h.mod_pos (by norm_num) (by omega),
    show 2 * Real.pi * ((1 : Nat) / (4 : Nat)) = Real.pi / 2 by push_cast; ring, Real.sin_pi_div_two, mul_one]

theorem Sine.exact_half : Sine.exact (mod / 2) mod = 0 := by
  have := h.four_dvd
  rw [Sine.exact_of_turn (n := 2) (k := 1) h.mod_pos (by norm_num) (by omega),
    show 2 * Real.pi * ((1 : Nat) / (2 : Nat)) = Real.pi by push_cast; ring, Real.sin_pi, mul_zero]

theorem Sine.exact_threeQuarters : Sine.exact (3 * mod / 4) mod = -2 ^ 30 := by
  have := h.four_dvd
  rw [Sine.exact_of_turn (n := 4) (k := 3) h.mod_pos (by norm_num) (by omega),
    show 2 * Real.pi * ((3 : Nat) / (4 : Nat)) = Real.pi / 2 + Real.pi by push_cast; ring, Real.sin_add_pi,
    Real.sin_pi_div_two, mul_neg_one]

theorem Sine.exact_twelfth (hd : 12 ∣ mod) : Sine.exact (mod / 12) mod = 2 ^ 29 := by
  rw [Sine.exact_of_turn (n := 12) (k := 1) h.mod_pos (by norm_num) (by omega),
    show 2 * Real.pi * ((1 : Nat) / (12 : Nat)) = Real.pi / 6 by push_cast; ring, Real.sin_pi_div_six]
  norm_num

theorem Sine.exact_reflect : Sine.exact (mod - acc) mod = -Sine.exact acc mod := by
  have hm : (mod : ℝ) ≠ 0 := by exact_mod_cast h.mod_pos.ne'
  have hangle : 2 * Real.pi * (mod - acc) / mod = 2 * Real.pi - 2 * Real.pi * acc / mod := by field_simp
  rw [Sine.exact, Sine.exact, Nat.cast_sub h.2.2.2.le, hangle, Real.sin_two_pi_sub, mul_neg]

theorem Sine.exact_halfTurn : Sine.exact (acc + mod / 2) mod = -Sine.exact acc mod := by
  have hm : (mod : ℝ) ≠ 0 := by exact_mod_cast h.mod_pos.ne'
  have h2 : 2 ∣ mod := Dvd.dvd.trans (by norm_num) h.four_dvd
  have hangle : 2 * Real.pi * (acc + mod / 2) / mod = 2 * Real.pi * acc / mod + Real.pi := by field_simp
  rw [Sine.exact, Sine.exact, Nat.cast_add, Nat.cast_div h2 (by norm_num), Nat.cast_ofNat, hangle, Real.sin_add_pi,
    mul_neg]

theorem Sine.exact_mirror (ha : acc ≤ mod / 2) : Sine.exact (mod / 2 - acc) mod = Sine.exact acc mod := by
  have hm : (mod : ℝ) ≠ 0 := by exact_mod_cast h.mod_pos.ne'
  have h2 : 2 ∣ mod := Dvd.dvd.trans (by norm_num) h.four_dvd
  have hangle : 2 * Real.pi * (mod / 2 - acc) / mod = Real.pi - 2 * Real.pi * acc / mod := by field_simp
  rw [Sine.exact, Sine.exact, Nat.cast_sub ha, Nat.cast_div h2 (by norm_num), Nat.cast_ofNat, hangle, Real.sin_pi_sub]

end

theorem Sine.exact_scale (acc mod : Nat) {c : Nat} (hc : 1 ≤ c) :
    Sine.exact (c * acc) (c * mod) = Sine.exact acc mod := by
  have hcR : (c : ℝ) ≠ 0 := by exact_mod_cast (by omega : c ≠ 0)
  rw [Sine.exact, Sine.exact, Nat.cast_mul, Nat.cast_mul, mul_left_comm, mul_div_mul_left _ _ hcR]

/-- The exact amplitude has the period of its modulus. -/
theorem Sine.exact_mod (n : Nat) {m : Nat} (hm : 0 < m) : Sine.exact (n % m) m = Sine.exact n m := by
  have hmR : (m : ℝ) ≠ 0 := by exact_mod_cast hm.ne'
  have hn : (n : ℝ) = (n % m : Nat) + m * (n / m : Nat) := by exact_mod_cast (Nat.mod_add_div n m).symm
  have hangle : 2 * Real.pi * n / m = 2 * Real.pi * (n % m : Nat) / m + (n / m : Nat) * (2 * Real.pi) := by
    rw [hn]; field_simp
  rw [Sine.exact, Sine.exact, hangle, Real.sin_add_nat_mul_two_pi]

/-! ### The sine is rational at few fractions of a turn (`40_generator.md` rule R118) -/

/-- Niven's theorem at a fraction of a turn. -/
theorem Sine.sin_rational {acc mod : Nat} {q : ℚ} (h : Real.sin (2 * Real.pi * acc / mod) = q) :
    q ∈ [0, 1 / 2, -1 / 2, 1, -1] := by
  have hθ : ∃ r : ℚ, 2 * Real.pi * acc / mod = r * Real.pi := ⟨2 * acc / mod, by push_cast; ring⟩
  have hq := niven_sin hθ ⟨q, h⟩
  simp only [h, Set.mem_insert_iff, Set.mem_singleton_iff] at hq
  simp only [List.mem_cons, List.not_mem_nil, or_false]
  rcases hq with hq | hq | hq | hq | hq
  · exact .inr (.inr (.inr (.inr (by exact_mod_cast hq))))
  · exact .inr (.inr (.inl (by apply Rat.cast_injective (α := ℝ); rw [hq]; norm_num)))
  · exact .inl (by exact_mod_cast hq)
  · exact .inr (.inl (by apply Rat.cast_injective (α := ℝ); rw [hq]; norm_num))
  · exact .inr (.inr (.inr (.inl (by exact_mod_cast hq))))

/-- The exact amplitude is never a tie: a sine of `(2 * k + 1) / 2^31` would be one of the five rational sines,
which make `2 * k + 1` an even number. -/
theorem Sine.exact_ne_tie (acc mod : Nat) (k : Int) : Sine.exact acc mod ≠ k + 1 / 2 := by
  intro h
  have hs : Real.sin (2 * Real.pi * acc / mod) = (((2 * k + 1) / 2 ^ 31 : ℚ) : ℝ) := by
    rw [Sine.exact] at h; push_cast; linarith
  have hq := Sine.sin_rational hs
  have heven : ∃ j : Int, (2 * k + 1 : ℚ) = 2 * j := by
    simp only [List.mem_cons, List.not_mem_nil, or_false, div_eq_iff (show (2 : ℚ) ^ 31 ≠ 0 by norm_num)] at hq
    rcases hq with hq | hq | hq | hq | hq
    · exact ⟨0, by rw [hq]; norm_num⟩
    · exact ⟨2 ^ 29, by rw [hq]; norm_num⟩
    · exact ⟨-2 ^ 29, by rw [hq]; norm_num⟩
    · exact ⟨2 ^ 30, by rw [hq]; norm_num⟩
    · exact ⟨-2 ^ 30, by rw [hq]; norm_num⟩
  obtain ⟨j, hj⟩ := heven
  have : 2 * k + 1 = 2 * j := by exact_mod_cast hj
  omega

/-! ### The reference unit -/

/-- The error of `SINE_REF` is below 1/2, as there is no tie. -/
theorem Sine.reference_error_lt (acc mod : Nat) : |(Sine.reference acc mod : ℝ) - Sine.exact acc mod| < 1 / 2 := by
  refine lt_of_le_of_ne (Sine.reference_error acc mod) fun h => ?_
  rcases (abs_eq (by norm_num)).1 h with h | h
  · exact Sine.exact_ne_tie acc mod (Sine.reference acc mod - 1) (by push_cast; linarith)
  · exact Sine.exact_ne_tie acc mod (Sine.reference acc mod) (by linarith)

theorem Sine.reference_eq_of_exact {acc mod : Nat} {q : Int} (h : Sine.exact acc mod = q) :
    Sine.reference acc mod = q :=
  Sine.reference_eq_of_close (by rw [h]; norm_num)

theorem Sine.reference_congr {acc mod acc' mod' : Nat} (h : Sine.exact acc' mod' = Sine.exact acc mod) :
    Sine.reference acc' mod' = Sine.reference acc mod :=
  Sine.reference_eq_of_close (by rw [h]; exact Sine.reference_error_lt acc mod)

theorem Sine.reference_neg {acc mod acc' mod' : Nat} (h : Sine.exact acc' mod' = -Sine.exact acc mod) :
    Sine.reference acc' mod' = -Sine.reference acc mod :=
  Sine.reference_eq_of_close (by
    rw [h, Int.cast_neg, ← neg_sub', abs_neg]; exact Sine.reference_error_lt acc mod)

/-- No integer is nearer to the exact amplitude than `SINE_REF`. -/
theorem Sine.reference_nearest (acc mod : Nat) (v : Int) :
    |(Sine.reference acc mod : ℝ) - Sine.exact acc mod| ≤ |(v : ℝ) - Sine.exact acc mod| := by
  by_contra! hlt
  have hv := Sine.reference_eq_of_close (hlt.trans (Sine.reference_error_lt acc mod))
  rw [hv] at hlt
  exact lt_irrefl _ hlt

/-- Settles O60: `SINE_REF` is the one integer within 1/2 of the exact amplitude, so it has the values and the
symmetries of that amplitude. -/
theorem sineReferenceUnit : Obligations.SineReferenceUnit := by
  unfold Obligations.SineReferenceUnit
  intro acc mod h
  obtain ⟨hlow, hhigh⟩ := Sine.inRange_of_accurate Sine.reference_accurate acc mod h
  exact ⟨Sine.reference_nearest acc mod, Sine.exact_ne_tie acc mod, fun q => Sine.sin_rational, hlow, hhigh,
    Sine.reference_error acc mod,
    Sine.reference_eq_of_exact (by simp [Sine.exact_zero]),
    Sine.reference_eq_of_exact (by rw [Sine.exact_quarter h]; norm_num),
    Sine.reference_eq_of_exact (by simp [Sine.exact_half h]),
    Sine.reference_eq_of_exact (by rw [Sine.exact_threeQuarters h]; norm_num),
    fun hd => Sine.reference_eq_of_exact (by rw [Sine.exact_twelfth h hd]; norm_num),
    fun _ => Sine.reference_neg (Sine.exact_reflect h),
    fun _ => Sine.reference_neg (Sine.exact_halfTurn h),
    fun ha => Sine.reference_congr (Sine.exact_mirror h ha),
    fun c hc _ => Sine.reference_congr (Sine.exact_scale acc mod hc)⟩

/-! ### What S2 alone gives (`40_generator.md` rule R119) -/

/-- A conforming unit is within 1 of an amplitude that is an integer. -/
theorem Sine.within_one {sine : Nat → Nat → Int} (hs : Sine.Accurate sine) {acc mod : Nat} (h : Sine.Domain acc mod)
    {v : Int} (hv : Sine.exact acc mod = v) : |sine acc mod - v| ≤ 1 := by
  have := hs acc mod h
  rw [hv] at this
  exact_mod_cast this

section
variable {sine : Nat → Nat → Int} (hs : Sine.Accurate sine) {acc mod : Nat} (h : Sine.Domain acc mod)
include hs h

theorem Sine.abs_zero_le : |sine 0 mod| ≤ 1 := by
  simpa using Sine.within_one hs (h.of_lt h.mod_pos) (v := 0) (by simp [Sine.exact_zero])

theorem Sine.abs_half_le : |sine (mod / 2) mod| ≤ 1 := by
  have hlt : mod / 2 < mod := Nat.div_lt_self h.mod_pos (by norm_num)
  simpa using Sine.within_one hs (h.of_lt hlt) (v := 0) (by simp [Sine.exact_half h])

theorem Sine.le_quarter : 2 ^ 30 - 1 ≤ sine (mod / 4) mod := by
  have hlt : mod / 4 < mod := Nat.div_lt_self h.mod_pos (by norm_num)
  have := abs_le.1 (Sine.within_one hs (h.of_lt hlt) (v := 2 ^ 30) (by rw [Sine.exact_quarter h]; norm_num))
  omega

theorem Sine.threeQuarters_le : sine (3 * mod / 4) mod ≤ -(2 ^ 30 - 1) := by
  have hlt : 3 * mod / 4 < mod := by have := h.mod_pos; omega
  have := abs_le.1 (Sine.within_one hs (h.of_lt hlt) (v := -2 ^ 30) (by rw [Sine.exact_threeQuarters h]; norm_num))
  omega

end

/-- Settles O31: the bounds of every unit that meets S2. -/
theorem sineUnitBounds : Obligations.SineUnitBounds := by
  unfold Obligations.SineUnitBounds
  intro acc mod h
  have hs := Config.params.sine_accurate
  exact ⟨Sine.abs_le_of_accurate hs h, Sine.abs_zero_le hs h, Sine.abs_half_le hs h, Sine.le_quarter hs h,
    Sine.threeQuarters_le hs h⟩

end Sys2Proof.Machine

/-! SUPPORT. The quantizer: rounding half away from zero as two floor divisions, its error, its thresholds. -/

namespace Sys2Proof.Machine

/-! ### Rounding (`40_generator.md` rules R120, R121) -/

theorem roundHalfAway_neg (p : Int) : roundHalfAway (-p) = -roundHalfAway p := by
  simp [roundHalfAway]

theorem roundHalfAway_of_nonneg {p : Int} (h : 0 ≤ p) : roundHalfAway p = (p + 2 ^ 29) / 2 ^ 30 := by
  rcases h.eq_or_lt with rfl | hp
  · decide
  · rw [roundHalfAway, Int.sign_eq_one_of_pos hp]; omega

/-- Rounding written out: a floor division on either side of 0. -/
theorem roundHalfAway_eq (p : Int) :
    roundHalfAway p = if 0 ≤ p then (p + 2 ^ 29) / 2 ^ 30 else -((-p + 2 ^ 29) / 2 ^ 30) := by
  split_ifs with h
  · exact roundHalfAway_of_nonneg h
  · rw [← neg_neg p, roundHalfAway_neg, roundHalfAway_of_nonneg (by omega), neg_neg]

theorem roundHalfAway_mono {p q : Int} (h : p ≤ q) : roundHalfAway p ≤ roundHalfAway q := by
  rw [roundHalfAway_eq, roundHalfAway_eq]
  split_ifs <;> omega

/-- The rounded value is at least a positive k from the tie below k on. -/
theorem le_roundHalfAway_iff {k p : Int} (hk : 0 < k) : k ≤ roundHalfAway p ↔ k * 2 ^ 30 - 2 ^ 29 ≤ p := by
  rw [roundHalfAway_eq]
  split_ifs <;> omega

/-- The rounded value is at most a negative k up to the tie above k. -/
theorem roundHalfAway_le_iff {k p : Int} (hk : k < 0) : roundHalfAway p ≤ k ↔ p ≤ k * 2 ^ 30 + 2 ^ 29 := by
  rw [roundHalfAway_eq]
  split_ifs <;> omega

/-- Rounding misses a value by at most 1/2. -/
theorem roundHalfAway_error (p : Int) : |2 ^ 30 * roundHalfAway p - p| ≤ 2 ^ 29 := by
  rw [roundHalfAway_eq, abs_le]
  split_ifs <;> omega

/-- The two rounding modes differ at ties only. -/
theorem roundHalfEven_eq_of_not_tie {p : Int} (h : p % 2 ^ 30 ≠ 2 ^ 29) : roundHalfEven p = roundHalfAway p := by
  rw [roundHalfAway_eq]
  simp only [roundHalfEven]
  split_ifs <;> omega

/-! ### Saturation (`40_generator.md` rule R122) -/

theorem clamp_bounds {lo hi : Int} (h : lo ≤ hi) (v : Int) : lo ≤ clamp v lo hi ∧ clamp v lo hi ≤ hi := by
  rw [clamp]; split_ifs <;> omega

theorem clamp_of_mem {v lo hi : Int} (hl : lo ≤ v) (hh : v ≤ hi) : clamp v lo hi = v := by
  rw [clamp]; split_ifs <;> omega

theorem clamp_of_ge {v lo hi : Int} (h : lo ≤ hi) (hv : hi ≤ v) : clamp v lo hi = hi := by
  rw [clamp]; split_ifs <;> omega

theorem clamp_of_le {v lo hi : Int} (h : lo ≤ hi) (hv : v ≤ lo) : clamp v lo hi = lo := by
  rw [clamp]; split_ifs <;> omega

theorem clamp_eq_zero_iff {v lo hi : Int} (hl : lo < 0) (hh : 0 < hi) : clamp v lo hi = 0 ↔ v = 0 := by
  rw [clamp]; split_ifs <;> omega

theorem clamp_mono {v w lo hi : Int} (h : lo ≤ hi) (hv : v ≤ w) : clamp v lo hi ≤ clamp w lo hi := by
  rw [clamp, clamp]; split_ifs <;> omega

/-! ### QUANT -/

theorem quant_bounds (a : Int) : -32768 ≤ quant a ∧ quant a ≤ 32767 := clamp_bounds (by norm_num) _

theorem quant_mono {a b : Int} (h : a ≤ b) : quant a ≤ quant b :=
  clamp_mono (by norm_num) (roundHalfAway_mono (by omega))

/-- QUANT at the top: the rounded value is at least 32767. -/
theorem quant_eq_max {a : Int} (h : 2 ^ 30 - 16384 ≤ a) : quant a = 32767 :=
  clamp_of_ge (by norm_num) ((le_roundHalfAway_iff (by norm_num)).2 (by omega))

/-- QUANT at the bottom: the rounded value is at most -32768. -/
theorem quant_eq_min {a : Int} (h : a ≤ -(2 ^ 30 + 16385)) : quant a = -32768 :=
  clamp_of_le (by norm_num) ((roundHalfAway_le_iff (by norm_num)).2 (by omega))

/-- No clamp acts on an amplitude of at most `1 + 16384 / 2^30` (`40_generator.md` rule R123 b). -/
theorem roundHalfAway_abs_le {a : Int} (h : |a| ≤ 2 ^ 30 + 16384) : |roundHalfAway (a * 32767)| ≤ 32767 := by
  rw [abs_le] at h ⊢
  have hhigh := (le_roundHalfAway_iff (k := 32768) (p := a * 32767) (by norm_num)).not.2 (by omega)
  have hlow := (roundHalfAway_le_iff (k := -32768) (p := a * 32767) (by norm_num)).not.2 (by omega)
  omega

theorem quant_eq_round {a : Int} (h : |a| ≤ 2 ^ 30 + 16384) : quant a = roundHalfAway (a * 32767) := by
  have := abs_le.1 (roundHalfAway_abs_le h)
  exact clamp_of_mem (by omega) (by omega)

theorem quant_abs_le {a : Int} (h : |a| ≤ 2 ^ 30 + 16384) : |quant a| ≤ 32767 := by
  rw [quant_eq_round h]; exact roundHalfAway_abs_le h

theorem quant_neg {a : Int} (h : |a| ≤ 2 ^ 30 + 16384) : quant (-a) = -quant a := by
  rw [quant_eq_round h, quant_eq_round (by rwa [abs_neg]), neg_mul, roundHalfAway_neg]

theorem quant_eq_zero_iff (a : Int) : quant a = 0 ↔ |a| ≤ 16384 := by
  have hhigh := le_roundHalfAway_iff (k := 1) (p := a * 32767) (by norm_num)
  have hlow := roundHalfAway_le_iff (k := -1) (p := a * 32767) (by norm_num)
  rw [quant, clamp_eq_zero_iff (by norm_num) (by norm_num), abs_le]
  omega

/-- Rounding misses the scaled amplitude by at most 1/2. -/
theorem round_amplitude_error (a : Int) : |(roundHalfAway (a * 32767) : ℝ) - a * 32767 / 2 ^ 30| ≤ 1 / 2 := by
  have h : |(2 ^ 30 * roundHalfAway (a * 32767) - a * 32767 : ℝ)| ≤ 2 ^ 29 := by
    exact_mod_cast roundHalfAway_error (a * 32767)
  rw [abs_le] at h ⊢
  constructor <;> linarith

/-- A cell holds a quantized amplitude without loss. -/
theorem ofInt_quant_toInt (a : Int) : (BitVec.ofInt 16 (quant a)).toInt = quant a := by
  obtain ⟨hl, hh⟩ := quant_bounds a
  rw [BitVec.toInt_ofInt, Int.bmod_eq_of_le] <;> omega

/-- Settles O32: the modes differ at ties only, an amplitude of a tie is an odd multiple of `2^29`, and at the four
of them both give the same. -/
theorem roundingModesAgree : Obligations.RoundingModesAgree := by
  unfold Obligations.RoundingModesAgree
  intro a hl hh
  have htie : a * 32767 % 2 ^ 30 = 2 ^ 29 ↔ a = -3 * 2 ^ 29 ∨ a = -2 ^ 29 ∨ a = 2 ^ 29 ∨ a = 3 * 2 ^ 29 := by omega
  refine ⟨?_, htie⟩
  by_cases h : a * 32767 % 2 ^ 30 = 2 ^ 29
  · rcases htie.1 h with rfl | rfl | rfl | rfl <;> decide
  · rw [quant, roundHalfEven_eq_of_not_tie h]

/-- Settles O33: the thresholds are those of rounding at 32768 and at -32769. -/
theorem quantizerSaturation : Obligations.QuantizerSaturation := by
  unfold Obligations.QuantizerSaturation
  refine ⟨fun a => ⟨(quant_bounds a).1, (quant_bounds a).2, ?_, ?_, fun h => ?_, fun h => ?_⟩, by decide⟩
  · rw [le_roundHalfAway_iff (by norm_num)]; omega
  · rw [roundHalfAway_le_iff (by norm_num)]; omega
  · exact clamp_of_ge (by norm_num) (by omega)
  · exact clamp_of_le (by norm_num) (by omega)

/-- Settles O34: each property from the thresholds, the oddness and the error of rounding. -/
theorem quantizerProperties : Obligations.QuantizerProperties := by
  unfold Obligations.QuantizerProperties
  refine ⟨fun a b => quant_mono, fun a => quant_neg, fun a h => quant_eq_max (by omega), fun a => quant_eq_min,
    quant_eq_zero_iff, by decide, by decide, by decide, by decide, by decide, fun a hl hh => ?_⟩
  rw [quant, clamp_of_mem hl hh]
  exact round_amplitude_error a

end Sys2Proof.Machine

/-! SUPPORT. GEN before its loop and in it: the outcome of each check, what the start latches, the accumulator. -/

namespace Sys2Proof.Machine

/-! ### Validation of GEN (`40_generator.md` rule R111) -/

/-- A failed check of GEN writes STATUS and clears SMP_LEN (`60_exceptions.md` rule R193). -/
theorem execGen_of_validate_some {s : State} {c : Check} (h : validate Config.params .gen s = some c) :
    exec .gen s = .next { s with status := ⟨false, c.result, c.cause⟩, smpLen := 0 } :=
  exec_of_validate_some h

/-- The generator's loop neither reads nor writes CHANNELS. -/
theorem generateLoop_channels_irrelevant (P : Params) (k : Nat) (s : State) (w : Word) :
    generateLoop P k { s with channels := w } = { generateLoop P k s with channels := w } := by
  induction k generalizing s with
  | zero => rfl
  | succ k ih => exact ih (generateSample P s)

theorem generator_channels (P : Params) (k : Nat) (i : Instr) (s : State) (w : Word) :
    generateLoop P k (startGenerator i { s with channels := w }) =
      { generateLoop P k (startGenerator i s) with channels := w } :=
  generateLoop_channels_irrelevant P k (startGenerator i s) w

theorem validateGen_channels_irrelevant (s : State) (w : Word) :
    validate Config.params .gen { s with channels := w } = validate Config.params .gen s := by
  simp only [validate_eq, ne_eq, not_true_eq_false, false_and, if_false]
  rfl

/-- GEN does not look at CHANNELS. -/
theorem execGen_channels_irrelevant {s t : State} (w : Word) (h : exec .gen s = .next t) :
    exec .gen { s with channels := w } = .next { t with channels := w } := by
  by_cases hr : GenReady s
  · have hr' : GenReady { s with channels := w } := hr
    obtain rfl := Host.Outcome.next.inj ((execGen_of_ready hr).symm.trans h)
    rw [execGen_of_ready hr', generator_channels]
    rfl
  · obtain ⟨c, hv, he⟩ := exec_of_not_ready (i := .gen) hr
    obtain rfl := Host.Outcome.next.inj (he.symm.trans h)
    exact execGen_of_validate_some ((validateGen_channels_irrelevant s w).trans hv)

/-! ### The start (`40_generator.md` rule R112) -/

/-- What the checks of GEN and SYN give the generator. -/
theorem generator_operands {i : Instr} {s : State} (hi : i ≠ .enc) (h : Ready i s) :
    0 < operandS s ∧ 0 < operandF s ∧ 0 ≤ operandD s ∧ operandD s ≤ Config.params.nMax := by
  cases i with
  | gen =>
    obtain ⟨hS, hF, hD, -, hN⟩ := h
    exact ⟨hS, hF, hD, hN⟩
  | enc => contradiction
  | syn =>
    obtain ⟨hS, hF, hD, -, -, hN⟩ := h
    exact ⟨hS, hF, hD, hN⟩

/-- Settles O8: the first failing check, one by one in the order of `60_exceptions.md` rule R192. -/
theorem genValidation : Obligations.GenValidation := by
  unfold Obligations.GenValidation
  intro s
  refine ⟨fun hS => ?_, fun hS hF => ?_, fun hS hF hD => ?_, fun hS hF hD hB => ?_, fun hS hF hD hB h8 h16 => ?_,
    fun hS hF hD hB hN => ?_, fun w t => execGen_channels_irrelevant w⟩
  · exact execGen_of_validate_some (c := .sampleRate) (by simp [validate_eq, hS])
  · exact execGen_of_validate_some (c := .frequency) (by simp [validate_eq, hS.not_ge, hF])
  · exact execGen_of_validate_some (c := .duration) (by
      simp [validate_eq, operandCount, hS.not_ge, hF.not_ge, hD])
  · exact execGen_of_validate_some (c := .bitDepth) (by
      simp only [validate_eq, operandCount, hS.not_ge, hF.not_ge, hD.not_gt, hB, and_false, if_false, if_true])
  · exact execGen_of_validate_some (c := .only16Bits) (by
      simp [validate_eq, operandCount, hS.not_ge, hF.not_ge, hD.not_gt, hB.not_ge, h8, h16])
  · exact execGen_of_validate_some (c := .capacity) (by
      simp [validate_eq, operandCount, hS.not_ge, hF.not_ge, hD.not_gt, hB, hN])

/-- Settles O28: what the checks give bounds each word latched. -/
theorem generatorStartLatches : Obligations.GeneratorStartLatches := by
  unfold Obligations.GeneratorStartLatches
  intro i s hi h
  obtain ⟨hS, hF, -, hN⟩ := generator_operands hi h
  have hSlt := operandS_lt s
  have hFlt := operandF_lt s
  have hstep := startGenerator_stepWord_toNat i s
  obtain ⟨hlow, hhigh, hdvd, -⟩ := phaseOf_domain hS 0
  simp only [startGenerator_modulus_toNat, hstep]
  exact ⟨by rw [startCommand_of_ready h, if_neg hi], rfl, rfl, rfl, ⟨by omega, by omega⟩, ⟨by omega, by omega⟩,
    by omega, startGenerator_n_toNat hN, rfl, hlow, hhigh, hdvd, rfl, Nat.mod_lt _ (modulusOf_pos hS),
    fun hlt => Nat.mod_eq_of_lt hlt, rfl, rfl⟩

/-! ### The accumulator (`40_generator.md` rules R113, R114) -/

/-- Settles O29: two numbers below MOD sum to less than two of it, so at most one subtraction reduces the sum. -/
theorem accumulatorStepIsExact : Obligations.AccumulatorStepIsExact := by
  unfold Obligations.AccumulatorStepIsExact
  intro acc stepWord modulus ha hs
  have hnext := nextAcc_toNat acc stepWord modulus (by omega)
  refine ⟨by omega, by omega, hnext, ?_⟩
  rw [hnext]
  split_ifs with h
  · rw [Nat.mod_eq_sub_mod h, Nat.mod_eq_of_lt (by omega)]
  · exact Nat.mod_eq_of_lt (by omega)

/-- Settles O30: `AtSample` holds at the start and every turn of the loop advances it. -/
theorem accumulatorClosedForm : Obligations.AccumulatorClosedForm := by
  unfold Obligations.AccumulatorClosedForm
  intro i s k hi h hk
  obtain ⟨hS, -, -, hN⟩ := generator_operands hi h
  have hmax := nMax_lt
  have hat := generateLoop_atSample (P := Config.params) (atSample_start i hS) k (by omega)
  rw [Nat.zero_add] at hat
  exact ⟨hat.idx_eq, hat.modulus_eq, by rw [hat.modulus_eq]; exact hat.acc_eq⟩

end Sys2Proof.Machine

/-! SUPPORT. GEN as one step and the samples it leaves: each is the quantized amplitude at its phase, so it is
close to the ideal sample, in range, periodic, and fixed by the sample rate and the frequency. -/

namespace Sys2Proof.Machine

/-! ### The state GEN leaves (`40_generator.md` rule R126) -/

/-- The end of GEN on a configuration that passes its checks. -/
def generated (s : State) : State :=
  finishGenerator (generateLoop Config.params (operandD s).toNat (startGenerator .gen s))

theorem execGen_eq_generated {s : State} (h : GenReady s) : exec .gen s = .next (generated s) := execGen_of_ready h

theorem check_result_ne_ok (c : Check) : c.result ≠ .ok := by cases c <;> decide

section
variable {s : State} (h : GenReady s)
include h

theorem read_generated (c : Nat) : Memory.read (generated s).smp c =
    if c < (operandD s).toNat then some (BitVec.ofInt 16 (sampleOf s c)) else Memory.read s.smp c :=
  have ⟨hS, _, _, hN⟩ := generator_operands (i := .gen) (by decide) h
  read_generator .gen hS hN c

theorem smpRead_generated {k : Nat} (hk : k < (operandD s).toNat) :
    smpRead (generated s) k = BitVec.ofInt 16 (sampleOf s k) := by
  rw [smpRead, read_generated h, if_pos hk, Option.getD_some]

theorem smpRead_generated_of_le {k : Nat} (hk : (operandD s).toNat ≤ k) : smpRead (generated s) k = smpRead s k := by
  rw [smpRead, read_generated h, if_neg (by omega)]
  simp [smpRead, generated]

theorem generated_smpLen : (generated s).smpLen = s.duration := by
  obtain ⟨-, -, hD, hN⟩ := generator_operands (i := .gen) (by decide) h
  simpa [generated] using sampleCount_eq_duration .gen hD hN

end

/-- Settles O13: the closed form of the loop, and the failing end of GEN. -/
theorem genWritesTheSamples : Obligations.GenWritesTheSamples := by
  unfold Obligations.GenWritesTheSamples
  refine fun s => ⟨fun h => ⟨generated s, execGen_eq_generated h, fun i hi => ?_, fun k hk => ?_,
    generated_smpLen h, ?_⟩,
    fun h => ?_⟩
  · rw [read_generated h, if_pos hi]
  · rw [read_generated h, if_neg (by omega)]
  · simp [generated, readReg, Status.word, Result.code, Cause.code]
  · obtain ⟨c, -, he⟩ := exec_of_not_ready (i := .gen) h
    exact ⟨_, he, rfl, rfl, rfl, check_result_ne_ok c⟩

/-- Settles O16: the frame of the loop and of the failing end of GEN. -/
theorem genFrame : Obligations.GenFrame := by
  unfold Obligations.GenFrame
  intro s t he
  obtain ⟨hS, hB, hF, hD, hC⟩ := sameConfig_iff.1 (sameConfig_exec he)
  refine ⟨hS, hB, hF, hD, hC, ?_⟩
  by_cases h : GenReady s
  · obtain rfl := Host.Outcome.next.inj ((execGen_eq_generated h).symm.trans he)
    refine ⟨?_, ?_, fun a => ?_, fun k hk => smpRead_generated_of_le h (not_lt.1 fun hlt => hk ⟨h, hlt⟩), ?_⟩ <;>
      simp [generated, outRead]
  · obtain ⟨c, -, he'⟩ := exec_of_not_ready (i := .gen) h
    obtain rfl := Host.Outcome.next.inj (he'.symm.trans he)
    exact ⟨rfl, rfl, fun _ => rfl, fun _ _ => rfl, rfl, rfl, rfl, rfl, rfl⟩

/-! ### The samples as numbers (`40_generator.md` rules R115, R119, R127) -/

/-- The amplitude the sine unit gives for sample i. -/
def amplitudeOf (s : State) (i : Nat) : Int := Config.params.sine (phaseOf s i) (modulusOf s)

theorem sampleOf_eq_quant (s : State) (i : Nat) : sampleOf s i = quant (amplitudeOf s i) := rfl

theorem phaseOf_zero (s : State) : phaseOf s 0 = 0 := by simp [phaseOf]

section
variable {s : State} (hS : 0 < operandS s)
include hS

theorem amplitudeOf_abs_le (i : Nat) : |amplitudeOf s i| ≤ 2 ^ 30 + 1 :=
  Sine.abs_le_of_accurate Config.params.sine_accurate (phaseOf_domain hS i)

/-- No clamp acts on an amplitude of the sine unit. -/
theorem amplitudeOf_abs_le_clamp (i : Nat) : |amplitudeOf s i| ≤ 2 ^ 30 + 16384 :=
  (amplitudeOf_abs_le hS i).trans (by norm_num)

/-- The ideal sample is the exact amplitude at the phase of the sample, scaled by 32767. -/
theorem idealSample_eq_exact (hF : 0 < operandF s) (i : Nat) :
    idealSample s i = Sine.exact (phaseOf s i) (modulusOf s) * 32767 / 2 ^ 30 := by
  have hFR : (((operandF s).toNat : Nat) : ℝ) = operandF s := by exact_mod_cast Int.toNat_of_nonneg hF.le
  have hSR : (((operandS s).toNat : Nat) : ℝ) = operandS s := by exact_mod_cast Int.toNat_of_nonneg hS.le
  have hS0 : (operandS s : ℝ) ≠ 0 := by exact_mod_cast hS.ne'
  have hangle : 2 * Real.pi * ((operandF s : ℝ) / 2 ^ 16) * i / operandS s =
      2 * Real.pi * ((operandF s).toNat * i : Nat) / modulusOf s := by
    rw [modulusOf]; push_cast; rw [hFR, hSR]; field_simp; ring
  rw [phaseOf, Sine.exact_mod _ (modulusOf_pos hS), Sine.exact, idealSample, hangle]
  ring

/-- The scaled amplitude is close to the ideal sample (S2). -/
theorem scaledAmplitude_close (hF : 0 < operandF s) (i : Nat) :
    |(amplitudeOf s i : ℝ) * 32767 / 2 ^ 30 - idealSample s i| ≤ 32767 / 2 ^ 30 := by
  have h := Config.params.sine_accurate _ _ (phaseOf_domain hS i)
  rw [idealSample_eq_exact hS hF, amplitudeOf]
  rw [abs_le] at h ⊢
  constructor <;> linarith

/-- A sample is the scaled amplitude rounded. -/
theorem sampleOf_rounds (i : Nat) : |(sampleOf s i : ℝ) - amplitudeOf s i * 32767 / 2 ^ 30| ≤ 1 / 2 := by
  rw [sampleOf_eq_quant, quant_eq_round (amplitudeOf_abs_le_clamp hS i)]
  exact round_amplitude_error _

theorem sampleOf_abs_le (i : Nat) : |sampleOf s i| ≤ 32767 := quant_abs_le (amplitudeOf_abs_le_clamp hS i)

/-- A sample at phase 0 or half a turn is 0. -/
theorem sampleOf_eq_zero {i : Nat} (hp : phaseOf s i = 0 ∨ phaseOf s i = modulusOf s / 2) : sampleOf s i = 0 := by
  have hacc := Config.params.sine_accurate
  have hdom := phaseOf_domain hS i
  have ha : |amplitudeOf s i| ≤ 1 := by
    rcases hp with hp | hp <;> rw [amplitudeOf, hp]
    · exact Sine.abs_zero_le hacc hdom
    · exact Sine.abs_half_le hacc hdom
  exact (quant_eq_zero_iff _).2 (ha.trans (by norm_num))

/-- A sample at a quarter of a turn is the maximum. -/
theorem sampleOf_eq_max {i : Nat} (hp : phaseOf s i = modulusOf s / 4) : sampleOf s i = 32767 := by
  have ha := Sine.le_quarter Config.params.sine_accurate (phaseOf_domain hS i)
  rw [← hp] at ha
  exact quant_eq_max (by omega)

/-- A sample at three quarters of a turn is the negated maximum. -/
theorem sampleOf_eq_neg_max {i : Nat} (hp : phaseOf s i = 3 * modulusOf s / 4) : sampleOf s i = -32767 := by
  have ha := Sine.threeQuarters_le Config.params.sine_accurate (phaseOf_domain hS i)
  rw [← hp] at ha
  have hneg := quant_neg (amplitudeOf_abs_le_clamp hS i)
  rw [quant_eq_max (a := -amplitudeOf s i) (by rw [amplitudeOf]; omega)] at hneg
  rw [sampleOf_eq_quant]
  omega

end

theorem smpRead_generated_toInt {s : State} (h : GenReady s) {k : Nat} (hk : k < (operandD s).toNat) :
    (smpRead (generated s) k).toInt = sampleOf s k := by
  rw [smpRead_generated h hk, sampleOf_eq_quant, ofInt_quant_toInt]

theorem smpRead_generated_eq_zero {s : State} (h : GenReady s) {k : Nat} (hk : k < (operandD s).toNat)
    (hp : phaseOf s k = 0 ∨ phaseOf s k = modulusOf s / 2) : smpRead (generated s) k = 0 := by
  rw [smpRead_generated h hk, sampleOf_eq_zero h.1 hp]; rfl

/-- Settles O35: the error of rounding and the error of the sine unit. -/
theorem generatedSamplesAreAccurate : Obligations.GeneratedSamplesAreAccurate := by
  unfold Obligations.GeneratedSamplesAreAccurate
  refine fun s h => ⟨_, execGen_eq_generated h, fun i hi => ?_⟩
  rw [smpRead_generated_toInt h hi]
  calc |(sampleOf s i : ℝ) - idealSample s i|
      ≤ |(sampleOf s i : ℝ) - amplitudeOf s i * 32767 / 2 ^ 30| +
          |(amplitudeOf s i : ℝ) * 32767 / 2 ^ 30 - idealSample s i| := abs_sub_le _ _ _
    _ ≤ 1 / 2 + 32767 / 2 ^ 30 := add_le_add (sampleOf_rounds h.1 i) (scaledAmplitude_close h.1 h.2.1 i)

/-- Settles O36: no clamp acts on an amplitude of the sine unit, and the first phase is 0. -/
theorem generatedSamplesRange : Obligations.GeneratedSamplesRange := by
  unfold Obligations.GeneratedSamplesRange
  refine fun s h => ⟨_, execGen_eq_generated h, by rw [generated_smpLen h]; rfl, fun i hi => ?_, fun hD => ?_⟩
  · rw [smpRead_generated_toInt h hi]
    exact abs_le.1 (sampleOf_abs_le h.1 i)
  · exact smpRead_generated_eq_zero h (by omega) (.inl (phaseOf_zero s))

/-! ### Samples the contract fixes (`40_generator.md` rule R129) -/

/-- An integer m that rounds v is the integer nearest to y as well, if v is within ε of y and y further than ε from
every tie: a tie between m and y would lie between v and y. -/
theorem abs_sub_lt_half_of_no_tie {m : Int} {v y ε : ℝ} (hm : |(m : ℝ) - v| ≤ 1 / 2) (hv : |v - y| ≤ ε)
    (hy : ∀ k : Int, ε < |y - (k + 1 / 2)|) : |(m : ℝ) - y| < 1 / 2 := by
  rw [abs_le] at hm hv
  rw [abs_lt]
  constructor
  · by_contra! habove
    have htie := hy m
    rw [abs_of_nonneg (by linarith)] at htie
    linarith
  · by_contra! hbelow
    have htie := hy (m - 1)
    rw [abs_of_nonpos (by push_cast; linarith)] at htie
    push_cast at htie
    linarith

/-- Settles O40: the sample rounds a number as close to the ideal sample as the premise asks. -/
theorem samplesAwayFromTiesAreFixed : Obligations.SamplesAwayFromTiesAreFixed := by
  unfold Obligations.SamplesAwayFromTiesAreFixed
  refine fun s h => ⟨_, execGen_eq_generated h, fun i hi hy => ?_⟩
  rw [smpRead_generated_toInt h hi]
  exact abs_sub_lt_half_of_no_tie (sampleOf_rounds h.1 i) (scaledAmplitude_close h.1 h.2.1 i) hy

/-! ### The phases (`40_generator.md` rules R127, R128) -/

/-- `MOD / gcd(F, MOD)` samples advance the phase by whole turns. -/
theorem phaseOf_add_period (s : State) (i : Nat) :
    phaseOf s (i + modulusOf s / Nat.gcd (operandF s).toNat (modulusOf s)) = phaseOf s i := by
  rw [phaseOf, phaseOf, Nat.mul_add, ← Nat.mul_div_assoc _ (Nat.gcd_dvd_right _ _),
    Nat.mul_comm (operandF s).toNat (modulusOf s), Nat.mul_div_assoc _ (Nat.gcd_dvd_left _ _),
    Nat.add_mul_mod_self_left]

/-- A frequency of one n-th of the sample rate cycles through n phases. -/
theorem phaseOf_of_fraction {s : State} {n : Nat} (hn : n * (operandF s).toNat = modulusOf s) (i : Nat) :
    phaseOf s i = (operandF s).toNat * (i % n) := by
  rw [phaseOf, ← hn, Nat.mul_comm n, Nat.mul_mod_mul_left]

theorem modulusOf_div_gcd_pos {s : State} (hS : 0 < operandS s) :
    0 < modulusOf s / Nat.gcd (operandF s).toNat (modulusOf s) :=
  Nat.div_pos (Nat.gcd_le_right _ (modulusOf_pos hS)) (Nat.gcd_pos_of_pos_right _ (modulusOf_pos hS))

/-- Settles O37: the phase is periodic, and a sample is a function of its phase. -/
theorem generatedSamplesArePeriodic : Obligations.GeneratedSamplesArePeriodic := by
  unfold Obligations.GeneratedSamplesArePeriodic
  refine fun s h => ⟨_, execGen_eq_generated h, modulusOf_div_gcd_pos h.1, phaseOf_add_period s, fun i hi => ?_⟩
  rw [smpRead_generated h hi, smpRead_generated h (lt_of_le_of_lt (Nat.le_add_right _ _) hi), sampleOf, sampleOf,
    phaseOf_add_period]

/-- Settles O39: the phases of the three frequencies, and the samples at 0 and at each quarter of a turn. -/
theorem cornerFrequencies : Obligations.CornerFrequencies := by
  unfold Obligations.CornerFrequencies
  refine fun s h => ⟨_, execGen_eq_generated h, fun i hi => ⟨fun hdvd => ?_, fun hhalf => ?_, fun hquarter => ?_⟩⟩
  · exact smpRead_generated_eq_zero h hi (.inl (Nat.mod_eq_zero_of_dvd (hdvd.mul_right i)))
  · have hp := phaseOf_of_fraction hhalf i
    refine smpRead_generated_eq_zero h hi ?_
    rcases Nat.mod_two_eq_zero_or_one i with hr | hr <;> rw [hr] at hp <;> omega
  · have hp := phaseOf_of_fraction hquarter i
    rw [smpRead_generated_toInt h hi]
    have hr : i % 4 = 0 ∨ i % 4 = 1 ∨ i % 4 = 2 ∨ i % 4 = 3 := by omega
    rcases hr with hr | hr | hr | hr <;> rw [hr] at hp ⊢
    · exact sampleOf_eq_zero h.1 (.inl (by omega))
    · exact sampleOf_eq_max h.1 (by omega)
    · exact sampleOf_eq_zero h.1 (.inr (by omega))
    · exact sampleOf_eq_neg_max h.1 (by omega)

/-! ### Determinism (`40_generator.md` rules R116, R127) -/

section
variable {s s' : State} (hS : s'.sampleRate = s.sampleRate) (hF : s'.freq = s.freq)
include hS hF

theorem sampleOf_congr (i : Nat) : sampleOf s' i = sampleOf s i := by
  simp only [sampleOf, phaseOf, modulusOf, operandF, operandS, hS, hF]

theorem genReady_congr (hD : s'.duration = s.duration) (hB : s'.bitDepth = s.bitDepth) : GenReady s' ↔ GenReady s := by
  simp only [GenReady, operandS, operandF, operandD, operandB, hS, hF, hD, hB]

end

/-- Settles O38: readiness and the samples depend on the four registers alone. -/
theorem generationIsDeterministic : Obligations.GenerationIsDeterministic := by
  unfold Obligations.GenerationIsDeterministic
  intro s s' h hS hF hD hB
  have h' := (genReady_congr hS hF hD hB).2 h
  refine ⟨_, _, execGen_eq_generated h, execGen_eq_generated h', ?_, by simp [generated], fun i hi => ?_⟩
  · rw [generated_smpLen h, generated_smpLen h', hD]
  · have hi' : i < (operandD s').toNat := by rwa [operandD, hD]
    rw [smpRead_generated h hi, smpRead_generated h' hi', sampleOf_congr hS hF]

end Sys2Proof.Machine

/-! SUPPORT. ENC as one step and the file it leaves: one closed form of every byte of OUT, from which its frame, the
fields read back, and that the file depends on the samples and three registers alone. -/

namespace Sys2Proof.Machine

/-! ### The state ENC leaves -/

/-- The encoder's body changes STATUS, OUT_LEN, SEQ, OUT, WP and IDX and nothing else. -/
theorem runEncoder_frame (s : State) : ∃ m w i, runEncoder s = { s with
    status := ⟨false, .ok, .none⟩
    outLen := BitVec.ofNat 32 (44 + dataSize s)
    seq := .idle
    out := m
    wp := w
    idx := i } := by
  obtain ⟨m, w, hheader⟩ : ∃ m w, writeHeader s = { s with out := m, wp := w } := ⟨_, _, writeFields_frame _ s⟩
  obtain ⟨m', w', i, hdata⟩ : ∃ m' w' i, encodeLoop s.n.toNat (enterData { s with out := m, wp := w }) =
      { enterData s with out := m', wp := w', idx := i } := ⟨_, _, _, encodeLoop_frame ..⟩
  refine ⟨m', w', i, ?_⟩
  rw [runEncoder, hheader]
  exact congrArg finishEncoder hdata

/-- The end of ENC on a configuration that passes its checks. -/
def encoded (s : State) : State := runEncoder (startEncoder s)

theorem execEnc_eq_encoded {s : State} (h : EncReady s) : exec .enc s = .next (encoded s) := execEnc_of_ready h

section
variable {s : State} (h : EncReady s)
include h

theorem startEncoder_n_eq : (startEncoder s).n.toNat = (operandL s).toNat := startEncoder_n_toNat h.2.2.2.2

theorem startEncoder_n_le : (startEncoder s).n.toNat ≤ Config.params.nMax := (inEncoder_startEncoder h).n_le

theorem encoded_atData : AtData (startEncoder s).n.toNat (encoded s) := runEncoder_atData rfl (startEncoder_n_le h)

end

/-! ### Validation of ENC (`41_encoder.md` rule R141) -/

/-- A failed check of ENC writes STATUS and clears OUT_LEN (`60_exceptions.md` rule R193). -/
theorem execEnc_of_validate_some {s : State} {c : Check} (h : validate Config.params .enc s = some c) :
    exec .enc s = .next { s with status := ⟨false, c.result, c.cause⟩, outLen := 0 } :=
  exec_of_validate_some h

/-- The state with other words in FREQ and DURATION. -/
def withTone (s : State) (f d : Word) : State := { s with freq := f, duration := d }

section
variable (s : State) (f d : Word)

/-- FREQ and DURATION reach no byte of the file, nor IDX and WP, which end where the samples end. -/
theorem encoded_withTone (h : EncReady s) : encoded (withTone s f d) = withTone (encoded s) f d := by
  have hat := encoded_atData h
  have hat' := encoded_atData (s := withTone s f d) h
  have hout : (encoded (withTone s f d)).out = (encoded s).out := runEncoder_out_congr rfl rfl rfl rfl rfl rfl rfl rfl
  have hidx : (encoded (withTone s f d)).idx = (encoded s).idx :=
    BitVec.eq_of_toNat_eq (hat'.idx_eq.trans hat.idx_eq.symm)
  have hwp : (encoded (withTone s f d)).wp = (encoded s).wp :=
    BitVec.eq_of_toNat_eq (hat'.wp_eq.trans hat.wp_eq.symm)
  obtain ⟨m, w, i, hs⟩ := runEncoder_frame (startEncoder s)
  obtain ⟨m', w', i', hs'⟩ := runEncoder_frame (startEncoder (withTone s f d))
  simp only [encoded, hs, hs'] at hout hidx hwp ⊢
  rw [hout, hidx, hwp]
  rfl

theorem validateEnc_withTone : validate Config.params .enc (withTone s f d) = validate Config.params .enc s := by
  simp only [validate_eq, ne_eq, not_true_eq_false, false_and, if_false]
  rfl

end

/-- ENC does not look at FREQ or DURATION. -/
theorem execEnc_withTone {s t : State} (f d : Word) (h : exec .enc s = .next t) :
    exec .enc (withTone s f d) = .next (withTone t f d) := by
  by_cases hr : EncReady s
  · have hr' : EncReady (withTone s f d) := hr
    obtain rfl := Host.Outcome.next.inj ((execEnc_eq_encoded hr).symm.trans h)
    rw [execEnc_eq_encoded hr', encoded_withTone s f d hr]
  · obtain ⟨c, hv, he⟩ := exec_of_not_ready (i := .enc) hr
    obtain rfl := Host.Outcome.next.inj (he.symm.trans h)
    exact execEnc_of_validate_some ((validateEnc_withTone s f d).trans hv)

/-- A file is longer than OUT exactly if its sequence is longer than SMP (`00_scope.md` rule R7). -/
theorem nMax_lt_iff_outCap_lt (P : Params) (n : Int) : (P.nMax : Int) < n ↔ (P.outCap : Int) < 44 + 2 * n := by
  rw [Params.outCap]
  omega

/-- Settles O9: the first failing check, one by one in the order of `60_exceptions.md` rule R192. -/
theorem encValidation : Obligations.EncValidation := by
  unfold Obligations.EncValidation
  intro s
  refine ⟨fun hS => ?_, fun hS hL => ?_, fun hS hL hB => ?_, fun hS hL hB h8 hC => ?_, fun hS hL hB h8 hC h16 => ?_,
    fun hS hL hB hC h1 => ?_, fun hS hL hB hC hN => ?_, nMax_lt_iff_outCap_lt Config.params _,
    fun f d t => execEnc_withTone f d⟩
  · exact execEnc_of_validate_some (c := .sampleRate) (by simp [validate_eq, hS])
  · exact execEnc_of_validate_some (c := .duration) (by simp [validate_eq, operandCount, hS.not_ge, hL])
  · exact execEnc_of_validate_some (c := .bitDepth) (by
      simp only [validate_eq, operandCount, hS.not_ge, hL.not_gt, hB, ne_eq, not_true_eq_false, false_and, if_false,
        if_true])
  · exact execEnc_of_validate_some (c := .channels) (by
      simp [validate_eq, operandCount, hS.not_ge, hL.not_gt, hB.not_ge, h8, hC])
  · exact execEnc_of_validate_some (c := .only16Bits) (by
      simp [validate_eq, operandCount, hS.not_ge, hL.not_gt, hB.not_ge, h8, hC.not_gt, h16])
  · exact execEnc_of_validate_some (c := .onlyOneChannel) (by
      simp [validate_eq, operandCount, hS.not_ge, hL.not_gt, hB, hC.not_gt, h1])
  · exact execEnc_of_validate_some (c := .capacity) (by
      simp [validate_eq, operandCount, hS.not_ge, hL.not_gt, hB, hC, hN])

/-! ### The sizes (`41_encoder.md` rule R143) -/

/-- Settles O42: what the checks give bounds N and S. -/
theorem encoderSizesDoNotWrap : Obligations.EncoderSizesDoNotWrap := by
  unfold Obligations.EncoderSizesDoNotWrap
  intro s h
  have hn := startEncoder_n_eq h
  obtain ⟨-, hL, hB, hC, hN⟩ := h
  have hmax := Config.params.nMax_le
  have hSlt := operandS_lt s
  obtain ⟨hdata, hrate, hriff⟩ := derivedQuantities (s := startEncoder s) hB hC
  rw [hn] at hdata hriff
  have hS : operandS (startEncoder s) = operandS s := rfl
  rw [hS] at hrate
  exact ⟨hn, blockAlign_eq_two hB hC, hrate, hdata, hriff, by omega, by omega, by omega, by omega⟩

/-! ### The bytes of the file (`41_encoder.md` rule R160) -/

/-- The bytes of a header field, least significant first. -/
def fieldBytes (f : HeaderField) : List Byte := (List.range f.size).map fun j => BitVec.ofNat 8 (f.value / 256 ^ j)

/-- The bytes of the header. -/
def headerBytes (s : State) : List Byte := (headerFields s).flatMap fieldBytes

theorem headerBytes_length (s : State) : (headerBytes s).length = 44 := by
  simp [headerBytes, headerFields, fieldBytes]

/-- Memory that holds each of some consecutive fields holds their bytes one after the other. -/
theorem read_of_getElem?_fields {m : Memory Byte} {start stop : Nat} {fs : List HeaderField}
    (hf : fieldsFrom start stop fs)
    (hm : ∀ f ∈ fs, ∀ j < f.size, Memory.read m (f.offset + j) = some (BitVec.ofNat 8 (f.value / 256 ^ j)))
    {a : Nat} {b : Byte} (hb : (fs.flatMap fieldBytes)[a]? = some b) : Memory.read m (start + a) = some b := by
  induction fs generalizing start a with
  | nil => simp at hb
  | cons f fs ih =>
    obtain ⟨ho, hrest⟩ := hf
    have hlen : (fieldBytes f).length = f.size := by simp [fieldBytes]
    rw [List.flatMap_cons, List.getElem?_append, hlen] at hb
    split_ifs at hb with ha
    · have hbyte := hm f List.mem_cons_self a ha
      rw [ho] at hbyte
      simpa [fieldBytes, ha, hbyte] using hb
    · have := ih hrest (fun g hg => hm g (List.mem_cons_of_mem f hg)) hb
      rwa [show start + f.size + (a - f.size) = start + a by omega] at this

/-- Byte a of the file ENC makes: a byte of the header, then the samples, low byte first. -/
def fileByte (s : State) (a : Nat) : Byte :=
  if a < 44 then (headerBytes (startEncoder s)).getD a 0
  else BitVec.ofNat 8 ((smpRead s ((a - 44) / 2)).toNat / 256 ^ ((a - 44) % 2))

theorem fileByte_of_header {s : State} {a : Nat} {b : Byte} (h : (headerBytes (startEncoder s))[a]? = some b) :
    a < 44 ∧ fileByte s a = b := by
  have ha : a < 44 := headerBytes_length (startEncoder s) ▸ (List.getElem?_eq_some_iff.1 h).1
  exact ⟨ha, by rw [fileByte, if_pos ha, List.getD_eq_getElem?_getD, h, Option.getD_some]⟩

/-- The low byte of sample k. -/
theorem fileByte_low (s : State) (k : Nat) :
    fileByte s (44 + 2 * k) = BitVec.ofNat 8 ((smpRead s k).toNat % 256) := by
  rw [fileByte, if_neg (by omega), show (44 + 2 * k - 44) / 2 = k by omega, show (44 + 2 * k - 44) % 2 = 0 by omega]
  exact BitVec.eq_of_toNat_eq (by simp)

/-- The high byte of sample k. -/
theorem fileByte_high (s : State) (k : Nat) :
    fileByte s (45 + 2 * k) = BitVec.ofNat 8 ((smpRead s k).toNat / 256) := by
  rw [fileByte, if_neg (by omega), show (45 + 2 * k - 44) / 2 = k by omega, show (45 + 2 * k - 44) % 2 = 1 by omega,
    pow_one]

/-! ### What the file depends on (`41_encoder.md` rule R161) -/

/-- Both states hold the same configuration of the encoder and the same samples. -/
structure SameInput (s s' : State) : Prop where
  sampleRate_eq : s'.sampleRate = s.sampleRate
  bitDepth_eq : s'.bitDepth = s.bitDepth
  channels_eq : s'.channels = s.channels
  smpLen_eq : s'.smpLen = s.smpLen
  samples_eq : ∀ k < (operandL s).toNat, smpRead s' k = smpRead s k

section
variable {s s' : State} (hs : SameInput s s')
include hs

theorem SameInput.operandL_eq : operandL s' = operandL s := by rw [operandL, operandL, hs.smpLen_eq]

theorem SameInput.encReady_iff : EncReady s' ↔ EncReady s := by
  simp only [EncReady, hs.operandL_eq, operandS, operandB, operandC, hs.sampleRate_eq, hs.bitDepth_eq, hs.channels_eq]

theorem SameInput.headerFields_startEncoder :
    headerFields (startEncoder s') = headerFields (startEncoder s) := by
  simp [headerFields, riffChunkSize, dataSize, byteRate, blockAlign, operandS, operandB, operandC, hs.operandL_eq,
    hs.sampleRate_eq, hs.bitDepth_eq, hs.channels_eq]

theorem SameInput.fileByte_eq {a : Nat} (ha : a < 44 + 2 * (operandL s).toNat) : fileByte s' a = fileByte s a := by
  rw [fileByte, fileByte]
  split_ifs with h44
  · rw [headerBytes, headerBytes, hs.headerFields_startEncoder]
  · rw [hs.samples_eq _ (by omega)]

theorem SameInput.encoded_outLen : (encoded s').outLen = (encoded s).outLen := by
  simp [encoded, dataSize, blockAlign, operandB, operandC, hs.operandL_eq, hs.bitDepth_eq, hs.channels_eq]

end

/-! ### OUT and OUT_LEN after ENC (`41_encoder.md` rules R159, R160) -/

section
variable {s : State} (h : EncReady s)
include h

/-- Every byte of OUT after ENC: the file, and behind it what OUT held. -/
theorem read_encoded (a : Nat) : Memory.read (encoded s).out a =
    if a < 44 + 2 * (operandL s).toNat then some (fileByte s a) else Memory.read s.out a := by
  obtain ⟨hheader, hdata, hrest⟩ := read_runEncoder (s := startEncoder s) rfl (startEncoder_n_le h)
  rw [startEncoder_n_eq h] at hdata hrest
  rw [encoded]
  split_ifs with ha
  · by_cases h44 : a < 44
    · have hlen := headerBytes_length (startEncoder s)
      have hb := List.getElem?_eq_getElem (hlen ▸ h44 : a < (headerBytes (startEncoder s)).length)
      have hread := read_of_getElem?_fields (headerFields_from _) hheader hb
      rwa [Nat.zero_add, ← (fileByte_of_header hb).2] at hread
    · have hread := hdata ((a - 44) / 2) (by omega) ((a - 44) % 2) (by omega)
      rw [show 44 + 2 * ((a - 44) / 2) + (a - 44) % 2 = a by omega] at hread
      rw [hread, fileByte, if_neg h44]
      rfl
  · exact hrest a (by omega)

theorem outRead_encoded {a : Nat} (ha : a < 44 + 2 * (operandL s).toNat) : outRead (encoded s) a = fileByte s a := by
  rw [outRead, read_encoded h, if_pos ha, Option.getD_some]

theorem outRead_encoded_of_le {a : Nat} (ha : 44 + 2 * (operandL s).toNat ≤ a) :
    outRead (encoded s) a = outRead s a := by
  rw [outRead, read_encoded h, if_neg (by omega)]
  simp [outRead, encoded]

theorem encoded_outLen_toNat : (encoded s).outLen.toNat = 44 + 2 * (operandL s).toNat := by
  have hle := startEncoder_n_le h
  have hn := startEncoder_n_eq h
  obtain ⟨-, -, hB, hC, -⟩ := h
  rw [encoded, runEncoder_outLen, fileLength_toNat (s := startEncoder s) hB hC hle, hn]

/-- The header of a configuration that passes its checks (`41_encoder.md` rules R142, R145 to R157). -/
theorem headerFields_startEncoder : headerFields (startEncoder s) =
    [⟨0, 4, 0x46464952⟩, ⟨4, 4, 36 + 2 * (operandL s).toNat⟩, ⟨8, 4, 0x45564157⟩, ⟨12, 4, 0x20746D66⟩, ⟨16, 4, 16⟩,
      ⟨20, 2, 1⟩, ⟨22, 2, 1⟩, ⟨24, 4, (operandS s).toNat⟩, ⟨28, 4, 2 * (operandS s).toNat⟩, ⟨32, 2, 2⟩, ⟨34, 2, 16⟩,
      ⟨36, 4, 0x61746164⟩, ⟨40, 4, 2 * (operandL s).toNat⟩] := by
  have hn := startEncoder_n_eq h
  obtain ⟨-, -, hB, hC, -⟩ := h
  obtain ⟨hdata, hrate, hriff⟩ := derivedQuantities (s := startEncoder s) hB hC
  rw [hn] at hdata hriff
  have hB' : operandB (startEncoder s) = 16 := hB
  have hC' : operandC (startEncoder s) = 1 := hC
  rw [headerFields, hdata, hrate, hriff, blockAlign_eq_two hB' hC', hB', hC']
  rfl

end

/-- STATUS reads `{BUSY=0, RESULT=OK, CAUSE=NONE}` after ENC (`60_exceptions.md` rule R194). -/
theorem encoded_statusWord (s : State) : readReg (encoded s) .status = 0x00000010 := by
  rw [readReg, encoded, runEncoder_status]
  rfl

/-- Settles O14: the closed form of OUT, and the failing end of ENC. -/
theorem encWritesTheFile : Obligations.EncWritesTheFile := by
  unfold Obligations.EncWritesTheFile
  intro s N S le header
  refine ⟨fun h => ⟨encoded s, execEnc_eq_encoded h, fun a b hb => ?_, fun k hk => ⟨?_, ?_⟩, fun a ha => ?_,
    encoded_outLen_toNat h, encoded_statusWord s, ?_⟩, fun h => ?_⟩
  · obtain ⟨ha, hbyte⟩ := fileByte_of_header (s := s) (by rw [headerBytes, headerFields_startEncoder h]; exact hb)
    rw [read_encoded h, if_pos (by omega), hbyte]
  · rw [read_encoded h, if_pos (by omega), fileByte_low]
  · rw [read_encoded h, if_pos (by omega), fileByte_high]
  · rw [read_encoded h, if_neg (by omega)]
  · simp [encoded]
  · obtain ⟨c, -, he⟩ := exec_of_not_ready (i := .enc) h
    exact ⟨_, he, rfl, rfl, rfl, check_result_ne_ok c⟩

/-- Settles O17: the frame of the encoder's body and of the failing end of ENC. -/
theorem encFrame : Obligations.EncFrame := by
  unfold Obligations.EncFrame
  intro s t he
  obtain ⟨hS, hB, hF, hD, hC⟩ := sameConfig_iff.1 (sameConfig_exec he)
  refine ⟨hS, hB, hF, hD, hC, ?_⟩
  by_cases h : EncReady s
  · obtain rfl := Host.Outcome.next.inj ((execEnc_eq_encoded h).symm.trans he)
    refine ⟨?_, ?_, ?_, ?_, fun k => ?_, fun a ha => outRead_encoded_of_le h (not_lt.1 fun hlt => ha ⟨h, hlt⟩), ?_⟩ <;>
      simp [encoded, smpRead]
  · obtain ⟨c, -, he'⟩ := exec_of_not_ready (i := .enc) h
    obtain rfl := Host.Outcome.next.inj (he'.symm.trans he)
    exact ⟨rfl, rfl, rfl, rfl, fun _ => rfl, fun _ _ => rfl, rfl, rfl, rfl, rfl, rfl⟩

/-! ### ENC issued again (`41_encoder.md` rule R164) -/

/-- ENC leaves the sample sequence, in success and in failure. -/
theorem samples_execEnc {s t : State} (he : exec .enc s = .next t) : samples t = samples s := by
  by_cases h : EncReady s
  · exact replacedBy_samples.exec (i := .enc) rfl h he
  · obtain ⟨c, -, he'⟩ := exec_of_not_ready (i := .enc) h
    obtain rfl := Host.Outcome.next.inj (he'.symm.trans he)
    exact replacedBy_samples.raise _ _ s rfl

theorem sameInput_encoded (s : State) : SameInput s (encoded s) where
  sampleRate_eq := by simp [encoded]
  bitDepth_eq := by simp [encoded]
  channels_eq := by simp [encoded]
  smpLen_eq := by simp [encoded]
  samples_eq k _ := by simp [encoded, smpRead]

section
variable {s s' : State} (hs : SameInput s s')
include hs

/-- The bytes of the file are the same, whatever OUT held before (`41_encoder.md` rule R161). -/
theorem SameInput.outRead_encoded (h : EncReady s) {a : Nat} (ha : a < 44 + 2 * (operandL s).toNat) :
    outRead (encoded s') a = outRead (encoded s) a := by
  rw [Machine.outRead_encoded (hs.encReady_iff.2 h) (by rwa [hs.operandL_eq]), Machine.outRead_encoded h ha]
  exact hs.fileByte_eq ha

end

/-- Settles O19: ENC leaves its own input as it was, so the second file is the first. -/
theorem encAgainGivesSameFile : Obligations.EncAgainGivesSameFile := by
  unfold Obligations.EncAgainGivesSameFile
  refine ⟨fun s t he => Prod.mk.inj (samples_execEnc he), fun s h => ?_⟩
  have hs := sameInput_encoded s
  have h' := hs.encReady_iff.2 h
  refine ⟨_, _, execEnc_eq_encoded h, execEnc_eq_encoded h', hs.encoded_outLen, by simp [encoded], fun a => ?_⟩
  by_cases ha : a < 44 + 2 * (operandL s).toNat
  · exact hs.outRead_encoded h ha
  · exact outRead_encoded_of_le h' (by rw [hs.operandL_eq]; omega)

/-! ### The file read back (`41_encoder.md` rule R161) -/

/-- The fields of the header, read back. -/
theorem encoded_fields {s : State} (h : EncReady s) :
    memRead (encoded s) 4 4 = 36 + 2 * (operandL s).toNat ∧ memRead (encoded s) 16 4 = 16 ∧
    memRead (encoded s) 20 2 = 1 ∧ memRead (encoded s) 22 2 = 1 ∧ memRead (encoded s) 24 4 = (operandS s).toNat ∧
    memRead (encoded s) 28 4 = 2 * (operandS s).toNat ∧ memRead (encoded s) 32 2 = 2 ∧
    memRead (encoded s) 34 2 = 16 ∧ memRead (encoded s) 40 4 = 2 * (operandL s).toNat := by
  have hle := startEncoder_n_le h
  have hn := startEncoder_n_eq h
  obtain ⟨-, -, hB, hC, -⟩ := h
  obtain ⟨⟨-, hriff, -, -, hfmt, hpcm, hchannels⟩, ⟨hrate, hbyteRate, halign, hbits, -, hdata⟩, -⟩ :=
    runEncoder_fields (s := startEncoder s) rfl hB hC hle
  rw [hn] at hriff hdata
  exact ⟨hriff, hfmt, hpcm, hchannels, hrate, hbyteRate, halign, hbits, hdata⟩

/-- The samples, read back. -/
theorem encoded_sample {s : State} (h : EncReady s) {k : Nat} (hk : k < (operandL s).toNat) :
    memRead (encoded s) (44 + 2 * k) 2 = (smpRead s k).toNat := by
  have hle := startEncoder_n_le h
  rw [← startEncoder_n_eq h] at hk
  obtain ⟨-, -, hB, hC, -⟩ := h
  obtain ⟨-, -, hsamples⟩ := runEncoder_fields (s := startEncoder s) rfl hB hC hle
  exact hsamples k hk

/-- The file of no samples is its header. -/
theorem encoded_outLen_of_empty {s : State} (h : EncReady s) (h0 : operandL s = 0) : (encoded s).outLen = 44 :=
  BitVec.eq_of_toNat_eq (by rw [encoded_outLen_toNat h, h0]; rfl)

/-- Settles O41: the fields and the samples read back, and the bytes depend on the input of the encoder alone. -/
theorem encodedFileRoundTrip : Obligations.EncodedFileRoundTrip := by
  unfold Obligations.EncodedFileRoundTrip
  refine ⟨fun s h => ⟨encoded s, execEnc_eq_encoded h, ?_⟩, fun s s' h hS hB hC hL hx => ?_⟩
  · obtain ⟨hriff, hfmt, hpcm, hchannels, hrate, hbyteRate, halign, hbits, hdata⟩ := encoded_fields h
    have hlen := encoded_outLen_toNat h
    have ⟨hS, hL, hB, hC, _⟩ := h
    refine ⟨by omega, by omega, by omega, hbits, by omega, hchannels, by omega, by omega, by omega, halign, hfmt, hpcm,
      fun k hk => ?_, fun h0 => ⟨by omega, by omega, encoded_outLen_of_empty h h0, by simp [encoded]⟩⟩
    rw [encoded_sample h hk, BitVec.ofNat_toNat, BitVec.setWidth_eq]
  · have hs : SameInput s s' := ⟨hS, hB, hC, hL, hx⟩
    exact ⟨_, _, execEnc_eq_encoded h, execEnc_eq_encoded (hs.encReady_iff.2 h), hs.encoded_outLen,
      fun a ha => hs.outRead_encoded h (encoded_outLen_toNat h ▸ ha)⟩

end Sys2Proof.Machine

/-! SUPPORT. SYN as one step: the state in which the generator hands over to the encoder, and from it the samples and
the file SYN leaves, its frame, and that GEN then ENC leave the same. -/

namespace Sys2Proof.Machine

/-! ### Validation of SYN (`42_synth.md` rule R171) -/

/-- A failed check of SYN writes STATUS and clears both lengths (`60_exceptions.md` rule R193). -/
theorem execSyn_of_validate_some {s : State} {c : Check} (h : validate Config.params .syn s = some c) :
    exec .syn s = .next { s with status := ⟨false, c.result, c.cause⟩, smpLen := 0, outLen := 0 } :=
  exec_of_validate_some h

theorem execSyn_of_not_ready {s : State} (h : ¬ SynReady s) : ∃ c : Check,
    exec .syn s = .next { s with status := ⟨false, c.result, c.cause⟩, smpLen := 0, outLen := 0 } := by
  obtain ⟨c, hv, -⟩ := exec_of_not_ready (i := .syn) h
  exact ⟨c, execSyn_of_validate_some hv⟩

/-- Settles O10: the first failing check, one by one in the order of `60_exceptions.md` rule R192. -/
theorem synValidation : Obligations.SynValidation := by
  unfold Obligations.SynValidation
  intro s
  refine ⟨fun hS => ?_, fun hS hF => ?_, fun hS hF hD => ?_, fun hS hF hD hB => ?_, fun hS hF hD hB h8 hC => ?_,
    fun hS hF hD hB h8 hC h16 => ?_, fun hS hF hD hB hC h1 => ?_, fun hS hF hD hB hC hN => ?_⟩
  · exact execSyn_of_validate_some (c := .sampleRate) (by simp [validate_eq, hS])
  · exact execSyn_of_validate_some (c := .frequency) (by simp [validate_eq, hS.not_ge, hF])
  · exact execSyn_of_validate_some (c := .duration) (by
      simp [validate_eq, operandCount, hS.not_ge, hF.not_ge, hD])
  · exact execSyn_of_validate_some (c := .bitDepth) (by
      simp only [validate_eq, operandCount, hS.not_ge, hF.not_ge, hD.not_gt, hB, and_false, if_false, if_true])
  · exact execSyn_of_validate_some (c := .channels) (by
      simp [validate_eq, operandCount, hS.not_ge, hF.not_ge, hD.not_gt, hB.not_ge, h8, hC])
  · exact execSyn_of_validate_some (c := .only16Bits) (by
      simp [validate_eq, operandCount, hS.not_ge, hF.not_ge, hD.not_gt, hB.not_ge, h8, hC.not_gt, h16])
  · exact execSyn_of_validate_some (c := .onlyOneChannel) (by
      simp [validate_eq, operandCount, hS.not_ge, hF.not_ge, hD.not_gt, hB, hC.not_gt, h1])
  · exact execSyn_of_validate_some (c := .capacity) (by
      simp [validate_eq, operandCount, hS.not_ge, hF.not_ge, hD.not_gt, hB, hC, hN])

/-! ### The state SYN leaves (`42_synth.md` rules R170, R172) -/

/-- SYN between its two phases: the samples stored, the encoder about to write the header. -/
def handedOver (s : State) : State :=
  turnToEncoder (generateLoop Config.params (operandD s).toNat (startGenerator .syn s))

/-- The end of SYN on a configuration that passes its checks. -/
def synthesised (s : State) : State := runEncoder (handedOver s)

theorem execSyn_eq_synthesised {s : State} (h : SynReady s) : exec .syn s = .next (synthesised s) :=
  execSyn_of_ready h

theorem synthesised_smp (s : State) : (synthesised s).smp = (handedOver s).smp := by simp [synthesised]

theorem operandS_handedOver (s : State) : operandS (handedOver s) = operandS s := by simp [operandS, handedOver]

section
variable {s : State} (h : SynReady s)
include h

theorem operandB_handedOver : operandB (handedOver s) = 16 := by
  simpa [operandB, handedOver] using ready_operandB (i := .syn) h

theorem operandC_handedOver : operandC (handedOver s) = 1 := by
  simpa [operandC, handedOver] using ready_operandC (i := .syn) h (by decide)

theorem handedOver_n_toNat : (handedOver s).n.toNat = (operandD s).toNat := by
  obtain ⟨-, -, -, hN⟩ := generator_operands (i := .syn) (by decide) h
  simpa [handedOver] using startGenerator_n_toNat (i := .syn) hN

theorem handedOver_n_le : (handedOver s).n.toNat ≤ Config.params.nMax := by
  obtain ⟨-, -, -, hN⟩ := generator_operands (i := .syn) (by decide) h
  rw [handedOver_n_toNat h]
  omega

theorem read_handedOver_smp (c : Nat) : Memory.read (handedOver s).smp c =
    if c < (operandD s).toNat then some (BitVec.ofInt 16 (sampleOf s c)) else Memory.read s.smp c :=
  have ⟨hS, _, _, hN⟩ := generator_operands (i := .syn) (by decide) h
  read_generator .syn hS hN c

theorem smpRead_handedOver {k : Nat} (hk : k < (operandD s).toNat) :
    smpRead (handedOver s) k = BitVec.ofInt 16 (sampleOf s k) := by
  rw [smpRead, read_handedOver_smp h, if_pos hk, Option.getD_some]

theorem read_synthesised_smp (c : Nat) : Memory.read (synthesised s).smp c =
    if c < (operandD s).toNat then some (BitVec.ofInt 16 (sampleOf s c)) else Memory.read s.smp c := by
  rw [synthesised_smp, read_handedOver_smp h]

theorem smpRead_synthesised_of_le {k : Nat} (hk : (operandD s).toNat ≤ k) :
    smpRead (synthesised s) k = smpRead s k := by
  rw [smpRead, read_synthesised_smp h, if_neg (by omega)]
  simp [smpRead, synthesised, handedOver]

theorem synthesised_smpLen : (synthesised s).smpLen = s.duration := by
  obtain ⟨-, -, hD, hN⟩ := generator_operands (i := .syn) (by decide) h
  simpa [synthesised, handedOver] using sampleCount_eq_duration .syn hD hN

theorem read_synthesised_out_of_le {a : Nat} (ha : 44 + 2 * (operandD s).toNat ≤ a) :
    Memory.read (synthesised s).out a = Memory.read s.out a := by
  obtain ⟨-, -, hrest⟩ := read_runEncoder (s := handedOver s) rfl (handedOver_n_le h)
  rw [handedOver_n_toNat h] at hrest
  rw [synthesised, hrest a ha]
  simp [handedOver]

theorem outRead_synthesised_of_le {a : Nat} (ha : 44 + 2 * (operandD s).toNat ≤ a) :
    outRead (synthesised s) a = outRead s a := by
  rw [outRead, read_synthesised_out_of_le h ha]
  simp [outRead, synthesised, handedOver]

theorem synthesised_outLen_toNat : (synthesised s).outLen.toNat = 44 + 2 * (operandD s).toNat := by
  rw [synthesised, runEncoder_outLen,
    fileLength_toNat (operandB_handedOver h) (operandC_handedOver h) (handedOver_n_le h), handedOver_n_toNat h]

/-- The 13 fields of the header and the samples, read back (`41_encoder.md` rules R145 to R158). -/
theorem synthesised_fields :
    let t := synthesised s
    (memRead t 0 4 = 0x46464952 ∧ memRead t 4 4 = 36 + 2 * (operandD s).toNat ∧ memRead t 8 4 = 0x45564157 ∧
      memRead t 12 4 = 0x20746D66 ∧ memRead t 16 4 = 16 ∧ memRead t 20 2 = 1 ∧ memRead t 22 2 = 1) ∧
    (memRead t 24 4 = (operandS s).toNat ∧ memRead t 28 4 = 2 * (operandS s).toNat ∧ memRead t 32 2 = 2 ∧
      memRead t 34 2 = 16 ∧ memRead t 36 4 = 0x61746164 ∧ memRead t 40 4 = 2 * (operandD s).toNat) ∧
    (∀ i < (operandD s).toNat, memRead t (44 + 2 * i) 2 = (BitVec.ofInt 16 (sampleOf s i)).toNat) := by
  have hfields := runEncoder_fields rfl (operandB_handedOver h) (operandC_handedOver h) (handedOver_n_le h)
  rw [handedOver_n_toNat h, operandS_handedOver] at hfields
  obtain ⟨hformat, hrates, hsamples⟩ := hfields
  exact ⟨hformat, hrates, fun i hi => by rw [← smpRead_handedOver h hi]; exact hsamples i hi⟩

end

/-- Settles O15: the samples and the file at the end of SYN, and its failing end. -/
theorem synWritesSamplesAndFile : Obligations.SynWritesSamplesAndFile := by
  unfold Obligations.SynWritesSamplesAndFile
  intro s N
  refine ⟨fun h => ?_, fun h => ?_⟩
  · obtain ⟨⟨hRiff, hSize, hWave, hFmt, hFmtSize, hPcm, hChannels⟩,
      ⟨hRate, hByteRate, hAlign, hBits, hData, hDataSize⟩, hSamples⟩ := synthesised_fields h
    refine ⟨synthesised s, execSyn_eq_synthesised h, fun i hi => ?_, fun k hk => ?_, synthesised_smpLen h,
      hRiff, hSize, hWave, hFmt, hFmtSize, hPcm, hChannels, hRate, hByteRate, hAlign, hBits, hData, hDataSize, hSamples,
      fun a ha => read_synthesised_out_of_le h ha, synthesised_outLen_toNat h, ?_⟩
    · rw [read_synthesised_smp h, if_pos hi]
    · rw [read_synthesised_smp h, if_neg (not_lt.2 hk)]
    · simp [synthesised, handedOver, readReg, Status.word, Result.code, Cause.code]
  · obtain ⟨c, he⟩ := execSyn_of_not_ready h
    exact ⟨_, he, rfl, rfl, rfl, rfl, rfl, check_result_ne_ok c⟩

/-- Settles O18: the frame of both phases and of the failing end of SYN. -/
theorem synFrame : Obligations.SynFrame := by
  unfold Obligations.SynFrame
  intro s t he
  obtain ⟨hS, hB, hF, hD, hC⟩ := sameConfig_iff.1 (sameConfig_exec he)
  refine ⟨hS, hB, hF, hD, hC, ?_⟩
  by_cases h : SynReady s
  · obtain rfl := Host.Outcome.next.inj ((execSyn_eq_synthesised h).symm.trans he)
    refine ⟨fun k hk => smpRead_synthesised_of_le h (not_lt.1 fun hlt => hk ⟨h, hlt⟩),
      fun a ha => outRead_synthesised_of_le h (not_lt.1 fun hlt => ha ⟨h, hlt⟩), ?_⟩
    simp [synthesised, handedOver]
  · obtain ⟨c, he'⟩ := execSyn_of_not_ready h
    obtain rfl := Host.Outcome.next.inj (he'.symm.trans he)
    exact ⟨fun _ _ => rfl, fun _ _ => rfl, rfl, rfl, rfl, rfl, rfl⟩

/-! ### SYN and the pair GEN, ENC (`42_synth.md` rule R174) -/

theorem SynReady.genReady {s : State} (h : SynReady s) : GenReady s := by
  obtain ⟨hS, hF, hD, hB, -, hN⟩ := h
  exact ⟨hS, hF, hD, hB, hN⟩

/-- The samples do not depend on which command generates them. -/
theorem generated_smp (s : State) : (generated s).smp = (handedOver s).smp :=
  generateLoop_congr Config.params _ rfl rfl rfl rfl rfl

section
variable {s : State} (h : SynReady s)
include h

theorem operandL_generated : operandL (generated s) = operandD s := by
  rw [operandL, generated_smpLen h.genReady, operandD]

/-- GEN leaves a configuration that passes ENC's checks: its sample count is the one SYN checked. -/
theorem encReady_generated : EncReady (generated s) := by
  have hL := operandL_generated h
  obtain ⟨hS, -, hD, hB, hC, hN⟩ := h
  obtain ⟨hS', hB', hC'⟩ : operandS (generated s) = operandS s ∧ operandB (generated s) = operandB s ∧
      operandC (generated s) = operandC s := by simp [operandS, operandB, operandC, generated]
  exact ⟨hS' ▸ hS, hL ▸ hD, hB' ▸ hB, hC' ▸ hC, hL ▸ hN⟩

theorem startEncoder_generated_n : (startEncoder (generated s)).n = (handedOver s).n := by
  simp [operandL_generated h, handedOver]

/-- The encoder finds the same input after GEN as between the phases of SYN, so it leaves the same file. -/
theorem file_encoded_generated : file (encoded (generated s)) = file (synthesised s) := by
  have hn := startEncoder_generated_n h
  have hout : (encoded (generated s)).out = (synthesised s).out := by
    refine runEncoder_out_congr ?_ ?_ ?_ hn rfl (generated_smp s) ?_ ?_ <;> simp [generated, handedOver]
  have hlen : (encoded (generated s)).outLen = (synthesised s).outLen := by
    apply BitVec.eq_of_toNat_eq
    rw [encoded_outLen_toNat (encReady_generated h), operandL_generated h, synthesised_outLen_toNat h]
  exact Prod.ext hout hlen

theorem samples_encoded_generated : samples (encoded (generated s)) = samples (synthesised s) := by
  have hsmp : (encoded (generated s)).smp = (synthesised s).smp := by
    rw [synthesised_smp, ← generated_smp, encoded, runEncoder_smp, startEncoder_smp]
  have hlen : (encoded (generated s)).smpLen = (synthesised s).smpLen := by
    rw [synthesised_smpLen h, ← generated_smpLen h.genReady, encoded, runEncoder_smpLen, startEncoder_smpLen]
  exact Prod.ext hsmp hlen

end

/-- An ENC after a GEN that failed finds a sequence of no samples (`42_synth.md` rule R174). -/
theorem encReady_of_empty {s : State} (hS : 0 < operandS s) (hB : operandB s = 16) (hC : operandC s = 1)
    (hL : s.smpLen = 0) : EncReady s ∧ operandL s = 0 := by
  have h0 : operandL s = 0 := by rw [operandL, hL]; rfl
  exact ⟨⟨hS, by omega, hB, hC, by omega⟩, h0⟩

/-- Settles O20: the same samples and file from the pair as from SYN, and the failing ends of GEN and SYN. -/
theorem genThenEncEqualsSyn : Obligations.GenThenEncEqualsSyn := by
  unfold Obligations.GenThenEncEqualsSyn
  refine ⟨fun s h => ?_, fun s h => ?_, fun s h => ?_⟩
  · obtain ⟨hsmp, hsmpLen⟩ := Prod.mk.inj (samples_encoded_generated h)
    obtain ⟨hout, houtLen⟩ := Prod.mk.inj (file_encoded_generated h)
    exact ⟨_, _, _, execGen_eq_generated h.genReady, execEnc_eq_encoded (encReady_generated h),
      execSyn_eq_synthesised h, hsmp, hsmpLen, hout, houtLen, by simp [encoded, synthesised]⟩
  · obtain ⟨c, hv, -⟩ := exec_of_not_ready (i := .gen) h
    refine ⟨_, execGen_of_validate_some hv, rfl, fun hS hB hC => ?_⟩
    obtain ⟨hready, h0⟩ := encReady_of_empty
      (s := { s with status := ⟨false, c.result, c.cause⟩, smpLen := 0 }) hS hB hC rfl
    exact ⟨_, execEnc_eq_encoded hready, by simp [encoded], encoded_outLen_of_empty hready h0⟩
  · obtain ⟨c, he⟩ := execSyn_of_not_ready h
    exact ⟨_, he, rfl, rfl, rfl, rfl, check_result_ne_ok c⟩

end Sys2Proof.Machine

/-! SUPPORT. The words STATUS can hold, an idle block, a write of an illegal word, and the order of the checks. -/

namespace Sys2Proof.Machine

/-! ### The first failing check (`60_exceptions.md` rule R192) -/

/-- In a list without repetition no element that stands before the one `find?` answers has the property. -/
theorem eq_false_of_mem_before_find {α : Type} {p : α → Bool} {before after : List α} {c d : α}
    (hn : (before ++ c :: after).Nodup) (h : (before ++ c :: after).find? p = some c) (hd : d ∈ before) :
    p d = false := by
  rw [List.find?_append, Option.or_eq_some_iff] at h
  obtain hc | ⟨hnone, -⟩ := h
  · have hmem : c ∈ before := List.mem_of_find?_eq_some hc
    have hnot : c ∉ before ++ after := (List.nodup_cons.1 (List.nodup_middle.1 hn)).1
    exact absurd (List.mem_append_left _ hmem) hnot
  · exact Bool.eq_false_iff.2 (List.find?_eq_none.1 hnone d hd)

theorem checkOrder_nodup : Check.order.Nodup := by decide

section
variable {P : Params} {i : Instr} {s : State} {c : Check}

/-- The check validation finds is one the command makes, and it fails. -/
theorem fails_of_validate_some (h : validate P i s = some c) : c.madeBy i = true ∧ c.fails P i s = true :=
  Bool.and_eq_true_iff.1 (List.find?_some (p := fun c : Check => c.madeBy i && c.fails P i s) h)

/-- A check of the command that stands before the one validation finds does not fail. -/
theorem fails_eq_false_of_before {before after : List Check} {d : Check} (h : validate P i s = some c)
    (ho : Check.order = before ++ c :: after) (hd : d ∈ before) (hm : d.madeBy i = true) : d.fails P i s = false := by
  have hn := checkOrder_nodup
  rw [validate, ho] at h
  rw [ho] at hn
  simpa [hm] using eq_false_of_mem_before_find hn h hd

end

/-- Settles O12: validation is the first hit in a list without repetition, and its check is the one raised. -/
theorem firstFailingCheckIsReported : Obligations.FirstFailingCheckIsReported := by
  unfold Obligations.FirstFailingCheckIsReported
  intro i s c h
  obtain ⟨hm, hf⟩ := fails_of_validate_some h
  exact ⟨hm, hf, fun _ _ ho _ => fails_eq_false_of_before h ho, exec_of_validate_some h⟩

/-! ### A word that is no command (`60_exceptions.md` rule R190) -/

/-- A write of a word that is the word of no command is raised as an illegal command. -/
theorem writeCommand_of_illegal {w : Word} (h : ∀ i, w ≠ encode i) (P : Params) (s : State) :
    writeCommand P w s = .next { s with status := ⟨false, .illegalCommand, .opcode⟩ } := by
  cases hd : decode w with
  | error e => simp only [writeCommand, hd]; rfl
  | ok i => exact absurd ((decode_eq_ok_iff w i).1 hd) (h i)

/-- Settles O7: the word is none of the three the commands have. -/
theorem illegalWordWritesStatusOnly : Obligations.IllegalWordWritesStatusOnly := by
  unfold Obligations.IllegalWordWritesStatusOnly
  intro s rest w h hb hgen henc hsyn
  have hw : ∀ i, w ≠ encode i := by
    intro i
    cases i with
    | gen => exact hgen
    | enc => exact henc
    | syn => exact hsyn
  exact ⟨(step_regWrite_cmd h hb).trans (writeCommand_of_illegal hw _ _), rfl⟩

/-! ### The sample rate (`60_exceptions.md` rule R182) -/

/-- A word is not positive exactly if it is 0 or has its sign bit set. -/
theorem toInt_nonpos_iff (w : Word) : w.toInt ≤ 0 ↔ w = 0 ∨ w.getLsbD 31 = true := by
  have hneg : w.getLsbD 31 = true ↔ w.toInt < 0 := by
    rw [← BitVec.msb_eq_getLsbD_last, BitVec.msb_eq_toInt, decide_eq_true_iff]
  have hzero : w = 0 ↔ w.toInt = 0 := BitVec.toInt_inj.symm
  rw [hneg, hzero, le_iff_lt_or_eq, or_comm]

/-- The sample rate is the first check of the order, and every command makes it. -/
theorem validate_of_sampleRate_nonpos {i : Instr} {s : State} (h : operandS s ≤ 0) :
    validate Config.params i s = some .sampleRate := by
  rw [validate_eq, if_pos h]

/-- Settles O11: the sign bit of the word, and the first check of every command. -/
theorem sampleRateNotPositive : Obligations.SampleRateNotPositive := by
  unfold Obligations.SampleRateNotPositive
  intro i s
  exact ⟨toInt_nonpos_iff s.sampleRate, fun h =>
    ⟨_, exec_of_validate_some (validate_of_sampleRate_nonpos h), rfl, rfl, rfl, rfl⟩⟩

/-! ### STATUS and the idle block (`60_exceptions.md` rules R181, R201) -/

/-- The legal values of STATUS as the words it reads as (`60_exceptions.md` rule R181). -/
theorem statusLegal_words : Status.legal.map Status.word =
    [0x000#32, 0x010#32, 0x120#32, 0x220#32, 0x320#32, 0x420#32, 0x520#32, 0x630#32, 0x440#32, 0x540#32, 0x750#32,
      0x001#32] := by decide

/-- Settles O57: the invariant holds STATUS to the legal values. -/
theorem onlyLegalStatusWordsAreRead : Obligations.OnlyLegalStatusWordsAreRead := by
  unfold Obligations.OnlyLegalStatusWordsAreRead
  intro s h
  rw [← statusLegal_words]
  exact List.mem_map_of_mem h.status_legal

/-- A step with no event waiting is a micro-step. -/
theorem step_of_inbox_nil {s : State} (h : s.inbox = []) : step s = microStep Config.params s := by
  simp only [step, advance, h]

/-- Settles O27: with no event waiting a step is a micro-step, and an idle sequencer makes none. -/
theorem idleBlockKeepsItsState : Obligations.IdleBlockKeepsItsState := by
  unfold Obligations.IdleBlockKeepsItsState
  intro s hs hi
  rw [step_of_inbox_nil hi, microStep_idle hs]

end Sys2Proof.Machine

/-! SUPPORT. Reset in any state, the host's transactions while a command executes, the number of micro-steps a command
still takes, and the two words a read of a length register chooses from. -/

namespace Sys2Proof.Machine

/-! ### Reset in any state (`70_reset_and_hazards.md` rules R210, R212) -/

/-- A step on a reset event. -/
theorem step_reset {s : State} {rest : List Event} (h : s.inbox = .reset :: rest) :
    step s = .next (applyReset { s with inbox := rest }) := by
  simp only [step, advance, h, handle]

theorem readReg_applyReset (s : State) (r : Reg) : readReg (applyReset s) r = readReg State.reset r := by
  cases r <;> rfl

/-- Settles O2: reset leaves an idle sequencer and memories without a cell. -/
theorem resetAbandonsEverything : Obligations.ResetAbandonsEverything := by
  unfold Obligations.ResetAbandonsEverything
  intro s rest h
  exact ⟨_, step_reset h, rfl, readReg_applyReset _, rfl, rfl, fun _ => rfl, fun _ => rfl, fun _ => microStep_idle rfl⟩

/-! ### Host transactions while BUSY = 1 (`70_reset_and_hazards.md` rule R215) -/

section
variable {P : Params} {s : State} {r : Reg} {rest : List Event}

theorem hostWriteReg_of_busy (hb : s.status.busy = true) (w : Word) : hostWriteReg P r w s = .next s := if_pos hb

theorem bufferAccess_of_busy (hb : s.status.busy = true) (t : State) :
    bufferAccess t s = .refused .bufferAccessWhileBusy := if_pos hb

/-- A read of a length register of a busy block draws one of two words (log entry 6). -/
theorem hostReadReg_length_of_busy (hb : s.status.busy = true) (hr : r = .smpLen ∨ r = .outLen) :
    ∃ w, (w = lengthBefore s r ∨ w = lengthAfter s r) ∧
      hostReadReg r s = { s with replies := .word w :: s.replies, draws := s.draws + 1 } := by
  have hlength : (s.status.busy && (r == .smpLen || r == .outLen)) = true := by simpa [hb] using hr
  rw [hostReadReg, if_pos hlength]
  exact ⟨_, ite_eq_or_eq .., rfl⟩

/-- A busy block of the invariant reads STATUS as 1 (`10_state.md` rules R24, R33). -/
theorem BlockInv.readReg_status_of_busy (h : BlockInv s) (hb : s.status.busy = true) : readReg s .status = 1 := by
  rw [readReg, h.executing_of_not_idle (h.busy_iff.1 hb)]
  rfl

/-- A step on a host write to a register of a busy block. -/
theorem step_regWrite_of_busy {w : Word} (h : NextIs s (.regWrite r.offset w) rest) (hb : s.status.busy = true) :
    step s = .next { s with inbox := rest } := by
  rw [step_of_nextIs h, hostTransaction_regWrite, hostWriteReg_of_busy (s := { s with inbox := rest }) hb]

/-- The two words of a length register do not depend on the events that wait. -/
theorem lengths_inbox (s : State) (l : List Event) (r : Reg) :
    lengthBefore { s with inbox := l } r = lengthBefore s r ∧ lengthAfter { s with inbox := l } r = lengthAfter s r := by
  cases r <;> exact ⟨rfl, rfl⟩

/-- A step on a host read of a length register of a busy block. -/
theorem step_regRead_length_of_busy (h : NextIs s (.regRead r.offset) rest) (hb : s.status.busy = true)
    (hr : r = .smpLen ∨ r = .outLen) : ∃ w, (w = lengthBefore s r ∨ w = lengthAfter s r) ∧
      step s = .next { s with inbox := rest, replies := .word w :: s.replies, draws := s.draws + 1 } := by
  obtain ⟨w, hw, hread⟩ := hostReadReg_length_of_busy (s := { s with inbox := rest }) hb hr
  obtain ⟨hbefore, hafter⟩ := lengths_inbox s rest r
  rw [hbefore, hafter] at hw
  exact ⟨w, hw, by rw [step_of_nextIs h, hostTransaction_regRead, hread]⟩

end

/-- Settles O48: the port of a busy block ignores register writes, answers register reads and refuses the buffers. -/
theorem hostTransactionsWhileBusy : Obligations.HostTransactionsWhileBusy := by
  unfold Obligations.HostTransactionsWhileBusy
  intro s rest hinv hb
  refine ⟨fun h => ?status, fun off w hoff h => ?write, fun off r hoff hsmp hout h => ?read,
    fun off r hoff hr h => ?length, fun k w hk h => ?smpWrite, fun k hk h => ?smpRead, fun a ha h => ?outRead⟩
  case status =>
    have hread := step_regRead (r := .status) h (.inr (by decide))
    rwa [hinv.readReg_status_of_busy hb] at hread
  case write =>
    obtain ⟨r, hr⟩ := Option.ne_none_iff_exists'.1 hoff
    exact step_regWrite_of_busy (offset_eq_of_ofOffset hr ▸ h) hb
  case read => exact step_regRead (offset_eq_of_ofOffset hoff ▸ h) (.inr (by simp [hsmp, hout]))
  case length => exact step_regRead_length_of_busy (offset_eq_of_ofOffset hoff ▸ h) hb hr
  case smpWrite => exact (step_of_nextIs h).trans ((hostTransaction_smpWrite hk w).trans (bufferAccess_of_busy hb _))
  case smpRead => exact (step_of_nextIs h).trans ((hostTransaction_smpRead hk).trans (bufferAccess_of_busy hb _))
  case outRead => exact (step_of_nextIs h).trans ((hostTransaction_outRead ha).trans (bufferAccess_of_busy hb _))

/-! ### How many micro-steps a command still takes (`70_reset_and_hazards.md` rule R214, log entry 7) -/

/-- How many header fields stand below an address of OUT (`20_memory.md` rule R72). -/
def fieldsBelow (a : Nat) : Nat := [0, 4, 8, 12, 16, 20, 22, 24, 28, 32, 34, 36, 40].countP (· < a)

/-- One more field stands below the end of a header field than below its start. -/
theorem fieldsBelow_end {s : State} {f : HeaderField} (hf : f ∈ headerFields s) :
    fieldsBelow (f.offset + f.size) = fieldsBelow f.offset + 1 := by
  have htable : ∀ p ∈ (headerFields s).map (fun f => (f.offset, f.size)),
      fieldsBelow (p.1 + p.2) = fieldsBelow p.1 + 1 := by
    rw [headerFields_layout]; decide
  exact htable _ (List.mem_map_of_mem hf)

theorem fieldsBelow_le (a : Nat) : fieldsBelow a ≤ 13 := List.countP_le_length

/-- How many micro-steps the command that executes still takes: those of the whole command less those made. From
ENC_HEADER on SYN goes as ENC does. -/
def microStepsLeft (s : State) : Nat :=
  match s.seq with
  | .idle => 0
  | .genLoop => microStepsOf s.op s.n.toNat - s.idx.toNat
  | .encHeader => microStepsOf .enc s.n.toNat - fieldsBelow s.wp.toNat
  | .encData => microStepsOf .enc s.n.toNat - (14 + s.idx.toNat)

section
variable {P : Params} {k : Nat} {s t : State}

theorem microStepsLeft_idle (h : s.seq = .idle) : microStepsLeft s = 0 := by simp only [microStepsLeft, h]

theorem microStepsLeft_genLoop (h : s.seq = .genLoop) :
    microStepsLeft s = microStepsOf s.op s.n.toNat - s.idx.toNat := by simp only [microStepsLeft, h]

theorem microStepsLeft_encHeader (h : s.seq = .encHeader) :
    microStepsLeft s = s.n.toNat + 15 - fieldsBelow s.wp.toNat := by
  simp only [microStepsLeft, h, microStepsOf]; omega

theorem microStepsLeft_encData (h : s.seq = .encData) : microStepsLeft s = s.n.toNat + 1 - s.idx.toNat := by
  simp only [microStepsLeft, h, microStepsOf]; omega

theorem lt_microStepsOf (i : Instr) (n : Nat) : n < microStepsOf i n := by
  cases i <;> simp only [microStepsOf] <;> omega

theorem microStepsOf_le (i : Instr) (n : Nat) : microStepsOf i n ≤ 2 * n + 16 := by
  cases i <;> simp only [microStepsOf] <;> omega

/-- Each micro-step inside a command leaves one less to make. -/
theorem microStepsLeft_microStep (hs : s.seq ≠ .idle) (h : microStep P s = .next t) :
    microStepsLeft t + 1 = microStepsLeft s := by
  rcases microStep_next h with ⟨hi, -⟩ | ⟨hg, hlt, rfl⟩ | ⟨hg, hi, ho, rfl⟩ | ⟨hg, hi, ho, rfl⟩ | ⟨he, hw, rfl⟩ |
    ⟨he, -, f, hf, hw, rfl⟩ | ⟨hd, hlt, rfl⟩ | ⟨hd, hi, rfl⟩
  · exact absurd hi hs
  · have hop := lt_microStepsOf s.op s.n.toNat
    rw [microStepsLeft_genLoop hg, microStepsLeft_genLoop (s := generateSample P s) hg, generateSample_idx,
      idx_add_one_toNat hlt, generateSample_op, generateSample_n]
    omega
  · rw [microStepsLeft_genLoop hg, microStepsLeft_idle (by simp), ho, hi]
    simp only [microStepsOf]; omega
  · have hwp : fieldsBelow 0 = 0 := rfl
    rw [microStepsLeft_genLoop hg, microStepsLeft_encHeader (by simp), ho, hi]
    simp [microStepsOf, hwp]; omega
  · have hwp : fieldsBelow 44 = 13 := rfl
    rw [microStepsLeft_encHeader he, microStepsLeft_encData (by simp), hw, hwp]
    simp
  · have hend := fieldsBelow_end hf
    have hle := fieldsBelow_le (f.offset + f.size)
    have hn : (writeField s f).n = s.n := writeAtWp_n ..
    rw [microStepsLeft_encHeader he, microStepsLeft_encHeader (by simpa), writeField_wp_toNat hf hw, ← hw, hn]
    omega
  · rw [microStepsLeft_encData hd, microStepsLeft_encData (by simpa), encodeSample_idx, idx_add_one_toNat hlt,
      encodeSample_n]
    omega
  · rw [microStepsLeft_encData hd, microStepsLeft_idle (by simp), hi]
    omega

/-- The two micro-steps that end a command (`10_state.md` rule R31). -/
theorem last_microStep (hs : s.seq ≠ .idle) (h : microStep P s = .next t) (ht : t.seq = .idle) :
    (s.op = .gen ∧ t = finishGenerator s) ∨ (s.seq = .encData ∧ t = finishEncoder s) := by
  rcases microStep_next h with ⟨hi, -⟩ | ⟨hg, -, rfl⟩ | ⟨-, -, ho, rfl⟩ | ⟨-, -, -, rfl⟩ | ⟨-, -, rfl⟩ |
    ⟨he, -, f, -, -, rfl⟩ | ⟨hd, -, rfl⟩ | ⟨hd, -, rfl⟩
  · exact absurd hi hs
  · simp [hg] at ht
  · exact .inl ⟨ho, rfl⟩
  · simp at ht
  · simp at ht
  · simp [he] at ht
  · simp [hd] at ht
  · exact .inr ⟨hd, rfl⟩

/-- A command ends with a micro-step that succeeds (`60_exceptions.md` rules R194, R195). -/
theorem status_of_last_microStep (hs : s.seq ≠ .idle) (h : microStep P s = .next t) (ht : t.seq = .idle) :
    t.status = ⟨false, .ok, .none⟩ := by
  rcases last_microStep hs h ht with ⟨-, rfl⟩ | ⟨-, rfl⟩
  · exact finishGenerator_status s
  · exact finishEncoder_status s

/-- The sequencer goes from a state of the invariant to an idle block; if it moves at all, to one with STATUS OK. -/
theorem BlockInv.busyRun (h : BlockInv s) (hok : s.seq = .idle → s.status = ⟨false, .ok, .none⟩) :
    ∃ t, BusyRun Config.params (microStepsLeft s) s t ∧ t.seq = .idle ∧ t.status = ⟨false, .ok, .none⟩ := by
  induction hk : microStepsLeft s generalizing s with
  | zero =>
    have hs : s.seq = .idle := by
      by_contra hs
      obtain ⟨t, hm⟩ := microStep_progress (P := Config.params) h.inside
      have := microStepsLeft_microStep hs hm
      omega
    exact ⟨s, .done s, hs, hok hs⟩
  | succ k ih =>
    have hs : s.seq ≠ .idle := fun hs => by simp [microStepsLeft_idle hs] at hk
    obtain ⟨t, hm⟩ := microStep_progress (P := Config.params) h.inside
    have hleft := microStepsLeft_microStep hs hm
    obtain ⟨u, hrun, hend⟩ := ih (blockInv_microStep h hm) (status_of_last_microStep hs hm) (by omega)
    exact ⟨u, .turn (h.executing_of_not_idle hs) hs hm hrun, hend⟩

theorem BlockInv.microStepsLeft_le (h : BlockInv s) : microStepsLeft s ≤ 2 * Config.params.nMax + 16 := by
  cases hs : s.seq with
  | idle => rw [microStepsLeft_idle hs]; omega
  | genLoop =>
    have hn := ((insideCommand_genLoop_iff hs).1 h.inside).n_le
    have hop := microStepsOf_le s.op s.n.toNat
    rw [microStepsLeft_genLoop hs]; omega
  | encHeader =>
    obtain ⟨he, -⟩ := (insideCommand_encHeader_iff hs).1 h.inside
    have hn := he.n_le
    rw [microStepsLeft_encHeader hs]; omega
  | encData =>
    obtain ⟨he, -⟩ := (insideCommand_encData_iff hs).1 h.inside
    have hn := he.n_le
    rw [microStepsLeft_encData hs]; omega

/-! ### Micro-steps while ticks wait (log entries 1, 2) -/

/-- `MemWrite` does not look at the events that wait. -/
theorem memWrite_withInbox (s : State) (l : List Event) (addr n v : Nat) :
    memWrite { s with inbox := l } addr n v = { memWrite s addr n v with inbox := l } := by
  induction n generalizing s addr v with
  | zero => rfl
  | succ n ih => exact ih (outWrite s addr (BitVec.ofNat 8 v)) (addr + 1) (v / 256)

theorem writeAtWp_withInbox (s : State) (l : List Event) (n v : Nat) :
    writeAtWp { s with inbox := l } n v = { writeAtWp s n v with inbox := l } := by
  simp only [writeAtWp, memWrite_withInbox]

theorem writeField_withInbox (s : State) (l : List Event) (f : HeaderField) :
    writeField { s with inbox := l } f = { writeField s f with inbox := l } := writeAtWp_withInbox ..

theorem encodeSample_withInbox (s : State) (l : List Event) :
    encodeSample { s with inbox := l } = { encodeSample s with inbox := l } := by
  have hread : smpRead { s with inbox := l } s.idx.toNat = smpRead s s.idx.toNat := rfl
  simp only [encodeSample, hread, writeAtWp_withInbox]

/-- A micro-step does not look at the events that wait. -/
theorem microStep_withInbox (h : microStep P s = .next t) (l : List Event) :
    microStep P { s with inbox := l } = .next { t with inbox := l } := by
  rcases microStep_next h with ⟨hs, rfl⟩ | ⟨hs, hi, rfl⟩ | ⟨hs, hi, ho, rfl⟩ | ⟨hs, hi, ho, rfl⟩ | ⟨hs, hw, rfl⟩ |
    ⟨hs, -, f, hf, hw, rfl⟩ | ⟨hs, hi, rfl⟩ | ⟨hs, hi, rfl⟩
  · exact microStep_idle hs
  · exact microStep_generateSample (s := { s with inbox := l }) hs hi
  · exact microStep_finishGenerator (s := { s with inbox := l }) hs hi ho
  · exact microStep_turnToEncoder (s := { s with inbox := l }) hs hi ho
  · exact microStep_enterData (s := { s with inbox := l }) hs hw
  · rw [← writeField_withInbox]
    exact microStep_writeField (s := { s with inbox := l }) hs hf hw
  · rw [← encodeSample_withInbox]
    exact microStep_encodeSample (s := { s with inbox := l }) hs hi
  · exact microStep_finishEncoder (s := { s with inbox := l }) hs hi

/-- While nothing but ticks waits a step is a micro-step, which takes one of them. -/
theorem step_of_ticks {l : List Event} (hl : ∀ e ∈ l, e = .tick) (s : State) :
    step { s with inbox := l } = microStep Config.params { s with inbox := l.tail } := by
  cases l with
  | nil => rfl
  | cons e rest =>
    obtain rfl := hl e List.mem_cons_self
    rfl

/-- The first step of a run of the machine. -/
theorem core_run_succ (h : step s = .next t) : Host.Core.run core (k + 1) s = Host.Core.run core k t := by
  have hstep : core.step s = .next t := h
  simp only [Host.Core.run, hstep]

/-- The machine follows a run of the sequencer while nothing but ticks waits. -/
theorem BusyRun.core_run (h : BusyRun Config.params k s t) {l : List Event} (hl : ∀ e ∈ l, e = .tick) :
    Host.Core.run core k { s with inbox := l } = .next { t with inbox := l.drop k } := by
  induction h generalizing l with
  | done => rfl
  | turn _ _ hm _ ih =>
    have hstep := (step_of_ticks hl _).trans (microStep_withInbox hm l.tail)
    rw [core_run_succ hstep, ← List.drop_tail]
    exact ih fun e he => hl e (List.mem_of_mem_tail he)

end

/-- Settles O25: the machine follows the run of the sequencer, whose length is at most that of SYN with N_MAX
samples. -/
theorem everyCommandEndsInSuccess : Obligations.EveryCommandEndsInSuccess := by
  unfold Obligations.EveryCommandEndsInSuccess
  intro s h hs hticks
  obtain ⟨t, hrun, hidle, hok⟩ := h.busyRun fun hidle => absurd hidle hs
  exact ⟨_, h.microStepsLeft_le, _, hrun.core_run hticks, hidle, hok⟩

/-! ### The two words of a length register while BUSY = 1 (`70_reset_and_hazards.md` rule R215, log entry 6) -/

section
variable {P : Params} {k : Nat} {i : Instr} {s t : State} {r : Reg}

theorem lengthBefore_smpLen (s : State) :
    lengthBefore s .smpLen = if producesSamples s.op then s.smpLenBefore else s.smpLen := rfl

theorem lengthAfter_smpLen (s : State) :
    lengthAfter s .smpLen = if producesSamples s.op then s.n.setWidth 32 else s.smpLen := rfl

theorem lengthBefore_outLen (s : State) : lengthBefore s .outLen = s.outLen := rfl

theorem lengthAfter_outLen (s : State) :
    lengthAfter s .outLen = if producesFile s.op then BitVec.ofNat 32 (44 + dataSize s) else s.outLen := rfl

/-- A register reads as the second word when its field is what `lengthAfter` says of it. -/
theorem readReg_eq_lengthAfter (hr : r = .smpLen ∨ r = .outLen)
    (hsmp : t.smpLen = if producesSamples s.op then s.n.setWidth 32 else s.smpLen)
    (hout : t.outLen = if producesFile s.op then BitVec.ofNat 32 (44 + dataSize s) else s.outLen) :
    readReg t r = lengthAfter s r := by
  rcases hr with rfl | rfl
  · exact hsmp
  · exact hout

/-- The size of the data depends on N, BIT_DEPTH and CHANNELS alone. -/
theorem dataSize_congr (hn : t.n = s.n) (hc : SameConfig s t) : dataSize t = dataSize s := by
  obtain ⟨-, hB, -, -, hC⟩ := sameConfig_iff.1 hc
  simp only [dataSize, blockAlign, operandB, operandC, hn, hB, hC]

/-- At the start of a command the first word is what the register held. -/
theorem lengthBefore_startCommand (h : Ready i s) (hr : r = .smpLen ∨ r = .outLen) :
    lengthBefore (startCommand Config.params i s) r = readReg s r := by
  rw [startCommand_of_ready h]
  rcases hr with rfl | rfl <;> cases i <;> rfl

/-- At the start of a command the second word is what the register reads as after the command. -/
theorem exec_readReg_eq_lengthAfter (h : Ready i s) (hr : r = .smpLen ∨ r = .outLen) :
    ∃ t, exec i s = .next t ∧ readReg t r = lengthAfter (startCommand Config.params i s) r := by
  rw [startCommand_of_ready h]
  cases i with
  | gen =>
    exact ⟨_, execGen_of_ready h, readReg_eq_lengthAfter hr (by simp [producesSamples]) (by simp [producesFile])⟩
  | enc =>
    exact ⟨_, execEnc_of_ready h, readReg_eq_lengthAfter hr (by simp [producesSamples]) (by simp [producesFile])⟩
  | syn =>
    have hsize : dataSize (turnToEncoder (generateLoop Config.params (operandD s).toNat (startGenerator .syn s))) =
        dataSize (startGenerator .syn s) := dataSize_congr (by simp) (sameConfig_iff.2 (by simp))
    exact ⟨_, execSyn_of_ready h, readReg_eq_lengthAfter hr (by simp [producesSamples])
      (by simp [producesFile, hsize])⟩

/-- What a micro-step inside a command keeps of the registers the two words come from: SMP_LEN only when the command
does not produce the samples (`40_generator.md` rule R125). -/
theorem microStep_keeps (h : microStep P s = .next t) (ht : t.seq ≠ .idle) :
    t.op = s.op ∧ t.n = s.n ∧ t.smpLenBefore = s.smpLenBefore ∧ t.outLen = s.outLen ∧
      (producesSamples s.op = false → t.smpLen = s.smpLen) := by
  rcases microStep_next h with ⟨-, rfl⟩ | ⟨-, -, rfl⟩ | ⟨-, -, -, rfl⟩ | ⟨-, -, ho, rfl⟩ | ⟨-, -, rfl⟩ |
    ⟨-, -, f, -, -, rfl⟩ | ⟨-, -, rfl⟩ | ⟨-, -, rfl⟩
  · simp
  · simp
  · simp at ht
  · simp [ho, producesSamples]
  · simp
  · simp [writeField]
  · simp
  · simp at ht

/-- No micro-step inside a command changes either word. -/
theorem lengths_microStep (h : microStep P s = .next t) (ht : t.seq ≠ .idle) (hr : r = .smpLen ∨ r = .outLen) :
    lengthBefore t r = lengthBefore s r ∧ lengthAfter t r = lengthAfter s r := by
  obtain ⟨hop, hn, hbefore, hout, hsmp⟩ := microStep_keeps h ht
  have hsize := dataSize_congr hn (sameConfig_microStep h)
  rcases hr with rfl | rfl
  · simp only [lengthBefore_smpLen, lengthAfter_smpLen, hop, hn, hbefore]
    cases hp : producesSamples s.op with
    | false => simp [hsmp hp]
    | true => simp
  · simp only [lengthBefore_outLen, lengthAfter_outLen, hop, hout, hsize, and_self]

/-- The last micro-step of a command leaves the second word in the register (`10_state.md` rules R26, R27). -/
theorem readReg_of_last_microStep (hinv : BlockInv s) (hs : s.seq ≠ .idle) (h : microStep Config.params s = .next t)
    (ht : t.seq = .idle) (hr : r = .smpLen ∨ r = .outLen) : readReg t r = lengthAfter s r := by
  rcases last_microStep hs h ht with ⟨ho, rfl⟩ | ⟨hd, rfl⟩
  · exact readReg_eq_lengthAfter hr (by simp [ho, producesSamples]) (by simp [ho, producesFile])
  · obtain ⟨henc, -, -⟩ := (insideCommand_encData_iff hd).1 hinv.inside
    cases ho : s.op with
    | gen => exact absurd ho henc.op_ne
    | enc => exact readReg_eq_lengthAfter hr (by simp [ho, producesSamples]) (by simp [ho, producesFile])
    | syn =>
      have hlen := henc.smpLen_eq ho
      exact readReg_eq_lengthAfter hr (by simp [ho, producesSamples, hlen]) (by simp [ho, producesFile])

/-- An idle sequencer makes no micro-step (`60_exceptions.md` rule R201). -/
theorem runMicro_idle (k : Nat) (hs : s.seq = .idle) : runMicro P k s = .next s := by
  induction k with
  | zero => rfl
  | succ k ih => rw [runMicro, microStep_idle hs]; exact ih

/-- However long the sequencer runs, in the state in which the command ends the register reads as the second word. -/
theorem readReg_of_runMicro_idle (h : BlockInv s) (hs : s.seq ≠ .idle) (hrun : runMicro Config.params k s = .next t)
    (ht : t.seq = .idle) (hr : r = .smpLen ∨ r = .outLen) : readReg t r = lengthAfter s r := by
  induction k generalizing s with
  | zero =>
    obtain rfl : s = t := Host.Outcome.next.inj hrun
    exact absurd ht hs
  | succ k ih =>
    obtain ⟨u, hm⟩ := microStep_progress (P := Config.params) h.inside
    rw [runMicro, hm] at hrun
    by_cases hu : u.seq = .idle
    · obtain rfl : u = t := Host.Outcome.next.inj ((runMicro_idle k hu).symm.trans hrun)
      exact readReg_of_last_microStep h hs hm hu hr
    · obtain ⟨-, hafter⟩ := lengths_microStep hm hu hr
      exact (ih (blockInv_microStep h hm) hu hrun).trans hafter

end

/-- Settles O59: the words at the start, that the micro-steps inside a command keep them, and the last micro-step. -/
theorem lengthsReadWhileBusy : Obligations.LengthsReadWhileBusy := by
  unfold Obligations.LengthsReadWhileBusy
  have hlength : ∀ {r}, r ∈ [Reg.smpLen, .outLen] → r = .smpLen ∨ r = .outLen := by simp
  refine ⟨fun i s r h hr => ?start, fun s u r h hu hr => lengths_microStep h hu (hlength hr), fun s h hb => ?ends⟩
  case start =>
    obtain ⟨t, he, hread⟩ := exec_readReg_eq_lengthAfter h (hlength hr)
    exact ⟨lengthBefore_startCommand h (hlength hr), t, he, hread.symm⟩
  case ends =>
    have hs := h.busy_iff.1 hb
    obtain ⟨t, hrun, hidle, -⟩ := h.busyRun fun hidle => absurd hidle hs
    exact ⟨⟨_, t, hrun.runMicro_eq, hidle⟩, fun k t r hm ht hr => readReg_of_runMicro_idle h hs hm ht (hlength hr)⟩

end Sys2Proof.Machine
